-- ==== Sys2Proof/Word.lean ====
section
/-! DEFINITION. The CCC's word types (spec/00_scope.md R12, R13): a byte is 8 bits, words are
unsigned, a byte string is a list of bytes with index 0 first. -/

namespace Sys2Proof

/-- A byte (R12). -/
abbrev Byte := BitVec 8

/-- A 16-bit word, `u16` of R13. -/
abbrev Word16 := BitVec 16

/-- A 32-bit word, `u32` of R13: control registers, command words, cipher B and SHA-256 words. -/
abbrev Word32 := BitVec 32

/-- A byte string, byte 0 first (R12). -/
abbrev Bytes := List Byte

end Sys2Proof
end

