-- ==== Sys2Proof/Syntax.lean ====
section
/-! DEFINITION. The commands of the CCC (spec/30_encoding.md R96): one constructor per row of
spec/opcode_table.json. -/

namespace Sys2Proof

/-- `CIPHER` (R92): cipher A, the Feistel-family cipher, and cipher B, the SP-network cipher. The
codes 2 and 3 make a word illegal and have no constructor. -/
inductive Cipher where
  | a
  | b
  deriving DecidableEq, Repr

/-- `MODE` (R93). Code 7 decodes, as the hardware form of an unknown mode. -/
inductive Mode where
  | ecb
  | cbc
  | pcbc
  | cfb
  | ofb
  | ctr
  | randomDelta
  | unknown
  deriving DecidableEq, Repr

/-- `PAD` (R94). Codes 4 to 7 decode, as the hardware form of an unknown scheme; the code is kept
because it is part of the word. -/
inductive PadScheme where
  | zeros
  | ansiX923
  | pkcs7
  | iso10126
  | unknown (code : BitVec 3)
  deriving DecidableEq, Repr

/-- A command: the decoded form of a command word (R91, R96). -/
inductive Instr where
  | keyset (c : Cipher)
  | encb (c : Cipher)
  | decb (c : Cipher)
  | pad (c : Cipher) (p : PadScheme)
  | unpad (c : Cipher) (p : PadScheme)
  | encrypt (c : Cipher) (m : Mode) (p : PadScheme) (ivp : Bool)
  | decrypt (c : Cipher) (m : Mode) (p : PadScheme) (ivp : Bool)
  | isprime
  | genprime
  | pfactors
  | primroot
  | genparams
  | genpriv
  | genpub
  | shared
  | modexp
  | sha256
  | kdf
  deriving DecidableEq, Repr

end Sys2Proof
end

