-- ==== Sys2Proof/WellFormed.lean ====
section
/-! DEFINITION. Which terms of `Instr` stand for a command word (spec/30_encoding.md R94, R96). -/

namespace Sys2Proof

/-- An unknown scheme carries one of the codes 4 to 7 (R94); the codes 0 to 3 name schemes. -/
def PadScheme.wellFormed : PadScheme → Bool
  | .zeros => true
  | .ansiX923 => true
  | .pkcs7 => true
  | .iso10126 => true
  | .unknown code => 4 ≤ code.toNat

/-- A command is well formed when its `PAD` field is; every other field's type admits only codes
that decode (R92, R93, R95). -/
def Instr.wellFormed : Instr → Bool
  | .keyset _ => true
  | .encb _ => true
  | .decb _ => true
  | .pad _ p => p.wellFormed
  | .unpad _ p => p.wellFormed
  | .encrypt _ _ p _ => p.wellFormed
  | .decrypt _ _ p _ => p.wellFormed
  | .isprime => true
  | .genprime => true
  | .pfactors => true
  | .primroot => true
  | .genparams => true
  | .genpriv => true
  | .genpub => true
  | .shared => true
  | .modexp => true
  | .sha256 => true
  | .kdf => true

end Sys2Proof
end

