-- ==== Sys2Proof/Decode.lean ====
section
/-! DEFINITION. Decoding and encoding of the command word (spec/30_encoding.md R90 to R97). -/

namespace Sys2Proof

/-- Why a word is no command (R95). Each completes the command with `IllegalCommand`. -/
inductive DecodeError where
  /-- `OP` is not in the opcode map of R96. -/
  | unknownOpcode
  /-- A bit of `RSV` (31:17) is set. -/
  | reservedBits
  /-- A field that the opcode does not use is not zero. -/
  | unusedField
  /-- The opcode uses `CIPHER` and the code is 2 or 3. -/
  | reservedCipher
  deriving DecidableEq, Repr

/-- `OP`, bits 7:0 (R91). -/
def fieldOp (w : Word32) : BitVec 8 := w.extractLsb' 0 8
/-- `CIPHER`, bits 9:8 (R91). -/
def fieldCipher (w : Word32) : BitVec 2 := w.extractLsb' 8 2
/-- `MODE`, bits 12:10 (R91). -/
def fieldMode (w : Word32) : BitVec 3 := w.extractLsb' 10 3
/-- `PAD`, bits 15:13 (R91). -/
def fieldPad (w : Word32) : BitVec 3 := w.extractLsb' 13 3
/-- `IVP`, bit 16 (R91). -/
def fieldIvp (w : Word32) : BitVec 1 := w.extractLsb' 16 1
/-- `RSV`, bits 31:17, must be zero (R91). -/
def fieldRsv (w : Word32) : BitVec 15 := w.extractLsb' 17 15

/-- `CIPHER` codes (R92); 2 and 3 are reserved. -/
def decodeCipher (c : BitVec 2) : Option Cipher :=
  match c.toNat with
  | 0 => some .a
  | 1 => some .b
  | _ => none

/-- `MODE` codes (R93). -/
def decodeMode (m : BitVec 3) : Mode :=
  match m.toNat with
  | 0 => .ecb
  | 1 => .cbc
  | 2 => .pcbc
  | 3 => .cfb
  | 4 => .ofb
  | 5 => .ctr
  | 6 => .randomDelta
  | _ => .unknown

/-- `PAD` codes (R94). -/
def decodePad (p : BitVec 3) : PadScheme :=
  match p.toNat with
  | 0 => .zeros
  | 1 => .ansiX923
  | 2 => .pkcs7
  | 3 => .iso10126
  | _ => .unknown p

/-- Which of the fields `CIPHER`, `MODE`, `PAD`, `IVP` an opcode uses (the "fields" column of R96). -/
structure FieldUse where
  cipher : Bool
  mode : Bool
  pad : Bool
  ivp : Bool
  deriving DecidableEq, Repr

/-- An opcode's row of R96: the fields it uses and the command they make. -/
structure OpcodeRow where
  use : FieldUse
  make : Cipher → Mode → PadScheme → Bool → Instr

/-- The opcode map (R96); `none` for every `OP` not in it (R97). -/
def opcodeRow (op : BitVec 8) : Option OpcodeRow :=
  match op.toNat with
  | 0x01 => some ⟨⟨true, false, false, false⟩, fun c _ _ _ => .keyset c⟩
  | 0x02 => some ⟨⟨true, false, false, false⟩, fun c _ _ _ => .encb c⟩
  | 0x03 => some ⟨⟨true, false, false, false⟩, fun c _ _ _ => .decb c⟩
  | 0x04 => some ⟨⟨true, false, true, false⟩, fun c _ p _ => .pad c p⟩
  | 0x05 => some ⟨⟨true, false, true, false⟩, fun c _ p _ => .unpad c p⟩
  | 0x06 => some ⟨⟨true, true, true, true⟩, fun c m p v => .encrypt c m p v⟩
  | 0x07 => some ⟨⟨true, true, true, true⟩, fun c m p v => .decrypt c m p v⟩
  | 0x10 => some ⟨⟨false, false, false, false⟩, fun _ _ _ _ => .isprime⟩
  | 0x11 => some ⟨⟨false, false, false, false⟩, fun _ _ _ _ => .genprime⟩
  | 0x12 => some ⟨⟨false, false, false, false⟩, fun _ _ _ _ => .pfactors⟩
  | 0x13 => some ⟨⟨false, false, false, false⟩, fun _ _ _ _ => .primroot⟩
  | 0x14 => some ⟨⟨false, false, false, false⟩, fun _ _ _ _ => .genparams⟩
  | 0x15 => some ⟨⟨false, false, false, false⟩, fun _ _ _ _ => .genpriv⟩
  | 0x16 => some ⟨⟨false, false, false, false⟩, fun _ _ _ _ => .genpub⟩
  | 0x17 => some ⟨⟨false, false, false, false⟩, fun _ _ _ _ => .shared⟩
  | 0x18 => some ⟨⟨false, false, false, false⟩, fun _ _ _ _ => .modexp⟩
  | 0x20 => some ⟨⟨false, false, false, false⟩, fun _ _ _ _ => .sha256⟩
  | 0x21 => some ⟨⟨false, false, false, false⟩, fun _ _ _ _ => .kdf⟩
  | _ => none

/-- Some field that the opcode does not use is not zero (R95). -/
def unusedFieldSet (u : FieldUse) (w : Word32) : Bool :=
  (!u.cipher && fieldCipher w != 0) || (!u.mode && fieldMode w != 0) ||
  (!u.pad && fieldPad w != 0) || (!u.ivp && fieldIvp w != 0)

/-- Decoding of an accepted word, in the order of R95. Total: every other word is rejected by name. -/
def decode (w : Word32) : Except DecodeError Instr :=
  match opcodeRow (fieldOp w) with
  | none => .error .unknownOpcode
  | some row =>
    if fieldRsv w != 0 then .error .reservedBits
    else if unusedFieldSet row.use w then .error .unusedField
    else
      match decodeCipher (fieldCipher w) with
      | none => .error .reservedCipher
      | some c => .ok (row.make c (decodeMode (fieldMode w)) (decodePad (fieldPad w)) (fieldIvp w == 1))

/-- The word that four bytes at `CMD` make: the port is little-endian (spec/20_memory.md R62). -/
def wordOfBytes (b0 b1 b2 b3 : Byte) : Word32 := b3 ++ b2 ++ b1 ++ b0

/-- Decoding of a byte string: one command is four bytes (R90); fewer are no command. The bytes that
follow the command are returned. -/
def decodeBytes : Bytes → Option (Except DecodeError Instr × Bytes)
  | b0 :: b1 :: b2 :: b3 :: rest => some (decode (wordOfBytes b0 b1 b2 b3), rest)
  | _ => none

/-- The bytes of a table word: `nbits` bits of `w`, the rest of the 32-bit command word zero. -/
def tableBytes (nbits w : Nat) : Bytes :=
  let v : Word32 := BitVec.ofNat 32 (w % 2 ^ nbits)
  [v.extractLsb' 0 8, v.extractLsb' 8 8, v.extractLsb' 16 8, v.extractLsb' 24 8]

/-- What the decoder reads from a word numbered as spec/opcode_table.json numbers its bits. -/
def decodeTableWord (nbits w : Nat) : Option Instr :=
  match decodeBytes (tableBytes nbits w) with
  | some (.ok i, _) => some i
  | _ => none

/-- `CIPHER` code (R92). -/
def encodeCipher : Cipher → BitVec 2
  | .a => 0
  | .b => 1

/-- `MODE` code (R93). -/
def encodeMode : Mode → BitVec 3
  | .ecb => 0
  | .cbc => 1
  | .pcbc => 2
  | .cfb => 3
  | .ofb => 4
  | .ctr => 5
  | .randomDelta => 6
  | .unknown => 7

/-- `PAD` code (R94). -/
def encodePad : PadScheme → BitVec 3
  | .zeros => 0
  | .ansiX923 => 1
  | .pkcs7 => 2
  | .iso10126 => 3
  | .unknown code => code

/-- The pattern `rrrrrrrrrrrrrrr v ppp mmm cc oooooooo` of R91, `RSV` zero. -/
def packWord (op : BitVec 8) (c : BitVec 2) (m p : BitVec 3) (ivp : Bool) : Word32 :=
  (0 : BitVec 15) ++ BitVec.ofBool ivp ++ p ++ m ++ c ++ op

/-- The command word of a command (R96, R99). -/
def encode : Instr → Word32
  | .keyset c => packWord 0x01 (encodeCipher c) 0 0 false
  | .encb c => packWord 0x02 (encodeCipher c) 0 0 false
  | .decb c => packWord 0x03 (encodeCipher c) 0 0 false
  | .pad c p => packWord 0x04 (encodeCipher c) 0 (encodePad p) false
  | .unpad c p => packWord 0x05 (encodeCipher c) 0 (encodePad p) false
  | .encrypt c m p v => packWord 0x06 (encodeCipher c) (encodeMode m) (encodePad p) v
  | .decrypt c m p v => packWord 0x07 (encodeCipher c) (encodeMode m) (encodePad p) v
  | .isprime => packWord 0x10 0 0 0 false
  | .genprime => packWord 0x11 0 0 0 false
  | .pfactors => packWord 0x12 0 0 0 false
  | .primroot => packWord 0x13 0 0 0 false
  | .genparams => packWord 0x14 0 0 0 false
  | .genpriv => packWord 0x15 0 0 0 false
  | .genpub => packWord 0x16 0 0 0 false
  | .shared => packWord 0x17 0 0 0 false
  | .modexp => packWord 0x18 0 0 0 false
  | .sha256 => packWord 0x20 0 0 0 false
  | .kdf => packWord 0x21 0 0 0 false

end Sys2Proof
end

