-- ==== Sys2Proof/Machine/Bytes.lean ====
section
/-! DEFINITION. Byte strings and naturals (spec/00_scope.md R12 to R14) and the byte orders of
spec/20_memory.md R63. -/

namespace Sys2Proof.Machine

/-- `LE(b) = Σ b[i]·256^i` (R14). -/
def leNat (b : Bytes) : Nat := b.foldr (fun x acc => x.toNat + 256 * acc) 0

/-- `BE(b) = Σ b[i]·256^(|b|-1-i)` (R14). -/
def beNat (b : Bytes) : Nat := b.foldl (fun acc x => acc * 256 + x.toNat) 0

/-- `toLE(x, n)` (R14). -/
def toLE (x n : Nat) : Bytes := (List.range n).map fun i => BitVec.ofNat 8 (x >>> (8 * i))

/-- `toBE(x, n)` (R14). -/
def toBE (x n : Nat) : Bytes := (toLE x n).reverse

/-- `bitlen(x)`: 0 for 0. -/
def bitLen (x : Nat) : Nat := if x = 0 then 0 else x.log2 + 1

/-- `minBE(x)` (R14, R301): no leading zero byte, empty for 0. -/
def minBE (x : Nat) : Bytes := toBE x ((bitLen x + 7) / 8)

/-- `b[i..i+n)` (R12). -/
def slice (b : Bytes) (i n : Nat) : Bytes := (b.drop i).take n

/-- Bytewise XOR (R12); on strings of different length, over the shorter (R159). -/
def xorBytes (b c : Bytes) : Bytes := List.zipWith (· ^^^ ·) b c

/-- The blocks `X[i·bs .. (i+1)·bs)` for `i < ceil(|X|/bs)`, the last one possibly short (R140, R159). -/
def chunks (bs : Nat) (b : Bytes) : List Bytes :=
  (List.range ((b.length + bs - 1) / bs)).map fun i => slice b (i * bs) bs

/-- Two bytes as a little-endian 16-bit word. -/
def word16LE (b : Bytes) : Word16 := BitVec.ofNat 16 (leNat b)

/-- Four bytes as a little-endian 32-bit word. -/
def word32LE (b : Bytes) : Word32 := BitVec.ofNat 32 (leNat b)

/-- Four bytes as a big-endian 32-bit word (SHA-256, R63 (f)). -/
def word32BE (b : Bytes) : Word32 := BitVec.ofNat 32 (beNat b)

/-- Byte `k` of a little-endian 32-bit register (R62). -/
def byteOfWord (w : Word32) (k : Nat) : Byte := w.extractLsb' (8 * k) 8

/-- Byte `i` of a big-integer register (R46). -/
def byteOfNat (x i : Nat) : Byte := BitVec.ofNat 8 (x >>> (8 * i))

/-- A natural with its byte `i` replaced (R46, R62). -/
def setByteOfNat (x i : Nat) (b : Byte) : Nat :=
  x % 256 ^ i + b.toNat * 256 ^ i + x / 256 ^ (i + 1) * 256 ^ (i + 1)

end Sys2Proof.Machine
end

