-- ==== Sys2Proof/Config.lean ====
section
/-! DEFINITION. Build parameters (spec/00_scope.md R11, spec/43_feistel.md R203) and the free values
the spec leaves open. A free value is an opaque constant without a body: nothing can be proved of it. -/

namespace Sys2Proof

/-- Cipher A's tables, OPEN parameters (R203): `sel[t][j] = (u, p)` selects bit `p` of mixing input
word `u` as bit `j` of group `t`; `sbox[t][g]` is the 2-bit output of group `t`; `opos[t]` is where
that output is placed. -/
structure FeTables where
  sel : Vector (Vector (Fin 3 × Fin 16) 6) 8
  sbox : Vector (Vector (BitVec 2) 64) 8
  opos : Vector (Fin 8) 8
  deriving DecidableEq, Repr, Inhabited

/-- The selection takes bits from each of the three mixing input words (R203). -/
abbrev FeTables.selectsFromEach (t : FeTables) : Prop :=
  ∀ u : Fin 3, ∃ (group : Fin 8) (j : Fin 6), ((t.sel.get group).get j).1 = u

/-- What R203 fixes about cipher A's tables: the selection takes bits from each of the three words,
the eight substitution tables are pairwise different, and `FE_OPOS` is a permutation. Log entry 21. -/
abbrev FeTables.Legal (t : FeTables) : Prop :=
  t.selectsFromEach ∧ t.sbox.toList.Nodup ∧ t.opos.toList.Nodup

/-- The toy configuration `FE_TOY` (R213), for tests only: NOT cipher A's real tables. -/
def feToy : FeTables where
  sel := Vector.ofFn fun t => Vector.ofFn fun j =>
    (⟨j.val / 2, by omega⟩, ⟨(2 * t.val + j.val % 2 + 5 * (j.val / 2)) % 16, by omega⟩)
  sbox := Vector.ofFn fun t => Vector.ofFn fun g =>
    BitVec.ofNat 2 (g.val * (2 * t.val + 5) / 8 % 4)
  opos := Vector.ofFn fun t => t

/-- The build parameters of R11 that the document does not fix. They are part of the state so that
every claim holds for every build; no step changes them. -/
structure Params where
  /-- `BN_BITS`. -/
  bnBits : Nat
  /-- `BUF_BYTES`. -/
  bufBytes : Nat
  /-- `SMALL_PRIMES`, in the order in which the tester divides by them (R261, R262). -/
  smallPrimes : List Nat
  /-- `MR_ROUNDS_RESET`. -/
  mrRoundsReset : Word32
  /-- `FE_SEL`, `FE_SBOX`, `FE_OPOS`. -/
  fe : FeTables
  deriving DecidableEq, Repr, Inhabited

/-- A trial-division set that the tester can work with (R261, R262): primes in ascending order, 2 and 3
among them, so that a base's range `[2, n - 2]` is not empty when a base is drawn. Log entry 21. -/
abbrev LegalPrimes (ps : List Nat) : Prop :=
  ps.Pairwise (· < ·) ∧ (∀ q ∈ ps, q.Prime) ∧ 2 ∈ ps ∧ 3 ∈ ps

/-- The legal builds: the ranges of R11 for `BN_BITS` and `BUF_BYTES`, a set of small primes, and tables
that R203 allows. `MR_ROUNDS_RESET` is any value. -/
abbrev Params.Legal (p : Params) : Prop :=
  (256 ≤ p.bnBits ∧ p.bnBits ≤ 4096 ∧ p.bnBits % 32 = 0 ∧
    256 ≤ p.bufBytes ∧ p.bufBytes ≤ 65536 ∧ p.bufBytes % 16 = 0) ∧
  LegalPrimes p.smallPrimes ∧ p.fe.Legal

/-- `BN_BYTES = BN_BITS / 8` (R11). -/
def Params.bnBytes (p : Params) : Nat := p.bnBits / 8

namespace Config

/-- Free value behind cipher A's real tables, which no source gives (R203, U1). Log entry 4. -/
opaque openTables : FeTables

/-- Cipher A's real tables, OPEN (R203): the free value, brought into what R203 allows. Every legal
choice of the tables is a value it can have, and an illegal one is not. Log entry 4. -/
def feTables : FeTables := if openTables.Legal then openTables else feToy

/-- What the entropy port answers to the n-th draw once `Entropy.pending` is exhausted, before it is
brought into the draw's range (R19, U2). Free value, log entry 2. -/
opaque entropy : Nat → Nat

/-- The n-th unspecified byte read: an unwritten buffer byte (R47, R48), a byte of `OUT_BUF` after a
failure (R325), a location of the running command's write set (R71). Free value, log entry 3. -/
opaque freeByte : Nat → Byte

/-- `SMALL_PRIMES` (R11, R262): the 25 primes below 100. -/
def smallPrimes : List Nat :=
  [2, 3, 5, 7, 11, 13, 17, 19, 23, 29, 31, 37, 41, 43, 47, 53, 59, 61, 67, 71, 73, 79, 83, 89, 97]

/-- The values of R11: `BN_BITS = 2048`, `BUF_BYTES = 65536`, the 25 small primes,
`MR_ROUNDS_RESET = 40`, and cipher A's open tables. -/
def defaultParams : Params := ⟨2048, 65536, smallPrimes, 40, feTables⟩

end Config

end Sys2Proof
end

