-- ==== Sys2Proof/Machine/State.lean ====
section
/-! DEFINITION. The CCC's state as plain data (spec/10_state.md), the reasons a step can stop, and the
state after reset (spec/70_reset_and_hazards.md R362). -/

namespace Sys2Proof.Machine

/-- Why the machine would stop with a fault. NO CONSTRUCTOR: the spec gives every move of the host and
every command word a defined effect (R374, U10); command errors end a command, not the machine (R320),
and `BUSERR` is a bus answer (R329). Log entry 12. -/
inductive Fault
  deriving DecidableEq, Repr

/-- Why an instruction would have no meaning. -/
inductive Refusal where
  /-- Raised by an arm of `exec` whose instruction has no meaning yet. Safe. No arm raises it now. -/
  | notModelled (mnemonic : String)
  deriving DecidableEq, Repr

/-- The command errors, codes 1 to 13 of R321. They are reported in `STATUS.ERR`; none of them stops
the machine. -/
inductive CmdError where
  | invalidKeySize
  | weakKey
  | invalidIvLength
  | invalidBlockSize
  | unsupportedMode
  | padding
  | dataLength
  | invalidArgument
  | notFound
  | operationCancelled
  | illegalCommand
  | noKey
  | capacity
  deriving DecidableEq, Repr

/-- One round's subkeys of cipher A: three 16-bit words (R209). -/
structure KeyA where
  k0 : Word16
  k1 : Word16
  k2 : Word16
  deriving DecidableEq, Repr, Inhabited

/-- Four 32-bit words: a subkey of cipher B (R238) or its state (R230). -/
structure Quad where
  x0 : Word32
  x1 : Word32
  x2 : Word32
  x3 : Word32
  deriving DecidableEq, Repr, Inhabited

/-- A round-key schedule (R40): 32 triples for cipher A, 33 subkeys for cipher B. The constructor is
the cipher selector `inst.c`. -/
inductive Schedule where
  | a (rounds : Vector KeyA 32)
  | b (subkeys : Vector Quad 33)
  deriving DecidableEq, Repr

/-- A mode command in progress (R44, R148, R149): the prepared block list, the next block index, the
chaining variable (empty for ECB and CTR), the CTR counter `ctr0`, the output so far (with a generated
IV before it, R143) and the last reported percentage (`none` is the -1 of R150). -/
structure ModeJob where
  blocks : List Bytes
  next : Nat
  chain : Bytes
  ctr0 : Nat
  out : Bytes
  last : Option Nat
  deriving DecidableEq, Repr

/-- What a command has computed and its completion step will write (R30, R324). Log entry 6. -/
inductive Result where
  /-- `KEYSET`: the new instance (R185). -/
  | keyed (s : Schedule)
  /-- A byte string for `OUT_BUF`. -/
  | output (b : Bytes)
  /-- A number for `BN_R`. -/
  | number (r : Nat)
  /-- `GENPARAMS`: `BN_R` and `BN_S` (R274). -/
  | dhParams (p g : Nat)
  /-- `PFACTORS`: entries of `OUT_BUF`, and `NFACT` (R272). -/
  | factors (fs : List Nat)
  /-- `KDF`: `OUT_BUF`, `KEY[0..16)` and `KEYLEN` (R305). -/
  | derivedKey (k : Bytes)
  deriving DecidableEq, Repr

/-- The private progress of a running command (R44), at the step granularity of R149 and R372. -/
inductive Ctx where
  /-- Accepted; decoding is the next engine step's first act. -/
  | start
  /-- A mode command between its blocks. -/
  | blocks (job : ModeJob)
  /-- `GENPRIME`, `GENPARAMS`: how many candidates have been rejected. -/
  | candidates (n : Nat)
  /-- `GENPARAMS`: the accepted prime; the next step is the primitive-root search. -/
  | rootSearch (p : Nat)
  /-- Computed; the next engine step is the completion. -/
  | finish (r : Result)
  deriving DecidableEq, Repr

/-- The engine's command context (R44). `STATUS.BUSY` is this not being idle (R30). -/
inductive Engine where
  | idle
  | running (w : Word32) (ctx : Ctx)
  deriving DecidableEq, Repr

/-- The sizes of a host access (R60). -/
inductive AccessSize where
  | one
  | two
  | four
  deriving DecidableEq, Repr

/-- A host access on the bus port (R60): an 18-bit byte address, a size and, for a write, data, of
which the low `8·size` bits count (log entry 17). -/
inductive Access where
  | read (addr : BitVec 18) (size : AccessSize)
  | write (addr : BitVec 18) (size : AccessSize) (wdata : Word32)
  deriving DecidableEq, Repr

/-- The port's answer (R60). A read answered `BUSERR` returns `rdata = 0` (R67). -/
inductive Reply where
  | readOk (rdata : Word32)
  | writeOk
  | busErr
  deriving DecidableEq, Repr

/-- What moves next in the one order of R74: a host access, a step with `rst` asserted (R360), or an
engine step. -/
inductive Event where
  | access (a : Access)
  | engine
  | rst
  deriving DecidableEq, Repr

/-- The entropy port (R19): the answers it will give, first first, and how many draws have been made.
Past the pending answers a draw is `Config.entropy` at `drawn`. Log entry 2. -/
structure Entropy where
  pending : List Nat
  drawn : Nat
  deriving DecidableEq, Repr

/-- The state of the CCC (R21) and, at the end, the model's own fields (INVENTORY.md). -/
structure State where
  /-- Build parameters (R11); `PARAM_BN` and `PARAM_BUF` read them (R45). -/
  params : Params
  /-- `CTRL.CANCEL` (R26). -/
  cancel : Bool
  /-- `CTRL.IRQ_EN` (R27). -/
  irqEn : Bool
  /-- `STATUS.DONE` (R33). -/
  done : Bool
  /-- `STATUS.DROP` (R34). -/
  drop : Bool
  /-- `STATUS.ERR` (R35); `none` is code 0. -/
  err : Option CmdError
  /-- `STATUS.PROGRESS` (R36). -/
  progress : BitVec 7
  /-- `CMD` read-back (R31). -/
  cmd : Word32
  inLen : Word32
  outLen : Word32
  keyLen : Word32
  ivLen : Word32
  mrRounds : Word32
  pbits : Word32
  nfact : Word32
  key : Vector Byte 32
  iv : Vector Byte 16
  bnA : Nat
  bnB : Nat
  bnC : Nat
  bnR : Nat
  bnS : Nat
  /-- `IN_BUF` and `OUT_BUF`, by bus address (R23): strictly rising; an unlisted byte is unspecified
  (R47, R48, R325) and reads as a free value. -/
  mem : List Host.Cell
  /-- The cipher instance (R40): `none` is `valid = 0`, `c = 0`, schedule all zero. Log entry 14. -/
  inst : Option Schedule
  engine : Engine
  /-- Model's own: what moves next (log entry 1). -/
  agenda : List Event
  /-- Model's own: the port's answer to the last access (log entry 11). -/
  reply : Option Reply
  /-- Model's own: the entropy port (log entry 2). -/
  entropy : Entropy
  /-- Model's own: how many unspecified bytes have been read (log entry 3). -/
  freeCount : Nat
  deriving DecidableEq, Repr

/-- The state after reset (R362). The model's own fields are empty: nothing is placed (log entries 1,
2, 3, 8, 11). -/
def State.reset : State where
  params := Config.defaultParams
  cancel := false
  irqEn := false
  done := false
  drop := false
  err := none
  progress := 0
  cmd := 0
  inLen := 0
  outLen := 0
  keyLen := 0
  ivLen := 0
  mrRounds := Config.defaultParams.mrRoundsReset
  pbits := 0
  nfact := 0
  key := Vector.replicate 32 0
  iv := Vector.replicate 16 0
  bnA := 0
  bnB := 0
  bnC := 0
  bnR := 0
  bnS := 0
  mem := []
  inst := none
  engine := .idle
  agenda := []
  reply := none
  entropy := ⟨[], 0⟩
  freeCount := 0

end Sys2Proof.Machine
end

