-- ==== Sys2Proof/Machine/Ops.lean ====
section
/-! DEFINITION. The named operations over memory, the entropy port, the engine and the registers, and
the life of a command: acceptance (spec/10_state.md R31), failed completion and successful completion
(spec/60_exceptions.md R324, R325), reset (spec/70_reset_and_hazards.md R360 to R363). -/

namespace Sys2Proof.Machine

/-! ## Memory: the two buffers, keyed by bus address -/

/-- First address of `IN_BUF` (R23). -/
def inBase : Nat := 0x10000
/-- First address of `OUT_BUF` (R23). -/
def outBase : Nat := 0x20000
/-- First address past the `OUT_BUF` window (R23). -/
def outEnd : Nat := 0x30000

namespace Memory

/-- The byte at an address; `none` is unspecified: nothing has been written there since reset (R47,
R48), or a completion made it unspecified (R48, R325). -/
def read (m : List Host.Cell) (a : Nat) : Option Byte :=
  match m with
  | [] => none
  | c :: rest => if c.1 = a then some c.2 else read rest a

/-- The cells of a byte string stored from `a` on. -/
def cells (a : Nat) (b : Bytes) : List Host.Cell :=
  match b with
  | [] => []
  | x :: rest => (a, x) :: cells (a + 1) rest

/-- Store a byte string from `a` on: what lies below, the new cells, what lies above. -/
def store (m : List Host.Cell) (a : Nat) (b : Bytes) : List Host.Cell :=
  m.filter (fun c => decide (c.1 < a)) ++ cells a b ++
    m.filter (fun c => decide (a + b.length ≤ c.1))

/-- Make the bytes `lo ≤ a < hi` unspecified. -/
def forget (m : List Host.Cell) (lo hi : Nat) : List Host.Cell :=
  m.filter (fun c => decide (c.1 < lo) || decide (hi ≤ c.1))

/-- The canonical form: addresses strictly rise. (An unlisted byte has no value, so no listed byte
can equal what an unlisted one reads as.) -/
def wf (m : List Host.Cell) : Bool :=
  match m with
  | [] => true
  | [_] => true
  | c :: d :: rest => decide (c.1 < d.1) && wf (d :: rest)

/-- Only bytes of the two buffers are listed (R47, R48). -/
def inBuffers (p : Params) (m : List Host.Cell) : Bool :=
  m.all fun c =>
    (decide (inBase ≤ c.1) && decide (c.1 < inBase + p.bufBytes)) ||
    (decide (outBase ≤ c.1) && decide (c.1 < outBase + p.bufBytes))

end Memory

/-! ## Free values -/

/-- Give every unspecified byte of a list a free value, in order; `n` counts the free values used
(R47, R71, U4, U6). Log entry 3. -/
def resolve (l : List (Option Byte)) (n : Nat) : Bytes × Nat :=
  match l with
  | [] => ([], n)
  | some b :: rest =>
    let r := resolve rest n
    (b :: r.1, r.2)
  | none :: rest =>
    let r := resolve rest (n + 1)
    (Config.freeByte n :: r.1, r.2)

/-- Bring what the port supplies into a draw's range: every value of the range is possible, and a
value already in it stays (R19). -/
def inRange (lo hi v : Nat) : Nat := if lo ≤ v ∧ v ≤ hi then v else lo + v % (hi - lo + 1)

/-- `Draw(lo, hi)` (R19): the next answer of the entropy port. Log entry 2. -/
def Entropy.draw (lo hi : Nat) (e : Entropy) : Nat × Entropy :=
  (inRange lo hi (e.pending.headD (Config.entropy e.drawn)), ⟨e.pending.tail, e.drawn + 1⟩)

/-- `n` times `DrawByte()` (R19), in order. -/
def Entropy.drawBytes (n : Nat) (e : Entropy) : Bytes × Entropy :=
  match n with
  | 0 => ([], e)
  | k + 1 =>
    let d := e.draw 0 255
    let r := drawBytes k d.2
    (BitVec.ofNat 8 d.1 :: r.1, r.2)

/-! ## The engine -/

/-- `STATUS.BUSY` (R30). -/
def State.busy (s : State) : Bool :=
  match s.engine with
  | .idle => false
  | .running _ _ => true

/-- The running command's private progress (R44); `none` when idle. -/
def State.ctx (s : State) : Option Ctx :=
  match s.engine with
  | .idle => none
  | .running _ c => some c

/-- Move the running command on. -/
def State.setCtx (c : Ctx) (s : State) : State :=
  match s.engine with
  | .idle => s
  | .running w _ => { s with engine := .running w c }

/-- Acceptance of a command word (R31), one step. -/
def State.accept (w : Word32) (s : State) : State :=
  { s with
    cmd := w, done := false, err := none, progress := 0, cancel := false, outLen := 0
    engine := .running w .start }

/-! ## Registers written by results -/

/-- `BN(R) <- v` writes `BN_BYTES` bytes (R15, R80). -/
def State.bnValue (s : State) (v : Nat) : Nat := v % 2 ^ s.params.bnBits

/-- The buffers after a completion whose output is `b`: `OUT_BUF` holds `b` from byte 0 and is
unspecified from there on (R48). -/
def State.outputMem (s : State) (b : Bytes) : List Host.Cell :=
  Memory.store (Memory.forget s.mem outBase outEnd) outBase b

/-- `OUT[0..|b|) <- b ; OUT_LEN <- |b|`. -/
def State.writeOutput (b : Bytes) (s : State) : State :=
  { s with mem := s.outputMem b, outLen := BitVec.ofNat 32 b.length }

/-- The first bytes of `KEY` replaced (R305). -/
def keyWith (k : Vector Byte 32) (b : Bytes) : Vector Byte 32 :=
  Vector.ofFn fun i => b.getD i.val (k.get i)

/-- `PFACTORS`'s output: each factor as `BN_BYTES` little-endian bytes (R272). -/
def factorBytes (p : Params) (fs : List Nat) : Bytes := (fs.map fun f => toLE f p.bnBytes).flatten

/-- A command's result writes (R324), including `OUT_LEN`. -/
def State.writeResult (r : Result) (s : State) : State :=
  match r with
  | .keyed sched => { (s.writeOutput []) with inst := some sched }
  | .output b => s.writeOutput b
  | .number v => { (s.writeOutput []) with bnR := s.bnValue v }
  | .dhParams p g => { (s.writeOutput []) with bnR := s.bnValue p, bnS := s.bnValue g }
  | .factors fs =>
    { (s.writeOutput (factorBytes s.params fs)) with nfact := BitVec.ofNat 32 fs.length }
  | .derivedKey k => { (s.writeOutput k) with key := keyWith s.key k, keyLen := 16 }

/-! ## Completion -/

/-- Successful completion, one step (R324): the result writes, `BUSY <- 0`, `ERR <- 0`, `DONE <- 1`. -/
def State.succeed (r : Result) (s : State) : State :=
  { (s.writeResult r) with engine := .idle, err := none, done := true }

/-- Failed completion (R325), the one operation that every `raise` is: `BUSY <- 0`, `ERR <- e`,
`DONE <- 1`, `OUT_LEN <- 0`, every byte of `OUT_BUF` unspecified, everything else unchanged. A `raise`
ends the command at once (R16): it is part of the step that detects the error (log entry 5). -/
def State.fail (e : CmdError) (s : State) : State :=
  { s with
    engine := .idle, err := some e, done := true, outLen := 0
    mem := Memory.forget s.mem outBase outEnd }

/-- Acknowledgement, the host's return from an error (R327): a write of `w` to `STATUS` clears `DONE`
if bit 1 is set and `DROP` if bit 2 is set (R29). -/
def State.acknowledge (w : Word32) (s : State) : State :=
  { s with done := s.done && !w.getLsbD 1, drop := s.drop && !w.getLsbD 2 }

/-! ## Reset -/

/-- Hardware and soft reset (R360, R361): every piece of the CCC's state at the value of R362,
`MR_ROUNDS` at the build's `MR_ROUNDS_RESET`. What is not CCC state stays: the build, the agenda, the
port's last answer, and the free values, since no draw is undone (R363). Log entry 18. -/
def State.doReset (s : State) : State :=
  { State.reset with
    params := s.params, mrRounds := s.params.mrRoundsReset, agenda := s.agenda, reply := s.reply
    entropy := s.entropy, freeCount := s.freeCount }

/-! ## One-shot commands -/

/-- What a computation step gives: the results or the error raised, and the state with the draws and
free values used (R325: draws made before an error are consumed). -/
abbrev Computed := Except CmdError Result × State

/-- The engine steps of a command that takes one step for its whole computation and one for its
completion (R372). An engine that is idle, or in another command's context, takes no step (log entry
13). -/
def oneShot (compute : State → Computed) (s : State) : State :=
  match s.ctx with
  | some .start =>
    match compute s with
    | (.ok r, t) => t.setCtx (.finish r)
    | (.error e, t) => t.fail e
  | some (.finish r) => s.succeed r
  | _ => s

end Sys2Proof.Machine
end

