-- ==== Sys2Proof/Machine/Operands.lean ====
section
/-! DEFINITION. The operands of a command, all named by the command (spec/30_encoding.md R98,
spec/20_memory.md R80): the input byte string, the key, the supplied IV, block sizes. -/

namespace Sys2Proof.Machine

/-- Block size `bs` in bytes (R11, R92): `BS_A = 8`, `BS_B = 16`. -/
def blockSize : Cipher → Nat
  | .a => 8
  | .b => 16

/-- Allowed key lengths (R180): `KEYLENS_A = {16}`, `KEYLENS_B = {16, 24, 32}`. -/
def keyLengths : Cipher → List Nat
  | .a => [16]
  | .b => [16, 24, 32]

/-- The selector `inst.c` (R40). -/
def Schedule.cipher : Schedule → Cipher
  | .a _ => .a
  | .b _ => .b

/-- `x[IN_LEN] > BUF_BYTES` (R38, R80). -/
def State.inputTooLong (s : State) : Bool := decide (s.params.bufBytes < s.inLen.toNat)

/-- The first `n` bytes of `IN_BUF` as they stand, unspecified ones open (R47). -/
def State.inputCells (s : State) (n : Nat) : List (Option Byte) :=
  (List.range n).map fun i => Memory.read s.mem (inBase + i)

/-- `IN[0 .. x[IN_LEN])` (R80), with a free value for each unspecified byte. -/
def State.input (s : State) : Bytes := (resolve (s.inputCells s.inLen.toNat) s.freeCount).1

/-- The state after the input has been read: the free values it used are spent. -/
def State.readInput (s : State) : State :=
  { s with freeCount := (resolve (s.inputCells s.inLen.toNat) s.freeCount).2 }

/-- `KEY[0 .. x[KEYLEN])` (R41). -/
def State.keyBytes (s : State) : Bytes := s.key.toList.take s.keyLen.toNat

/-- `IV[0 .. bs)` (R42, R142). -/
def State.ivBytes (s : State) (bs : Nat) : Bytes := s.iv.toList.take bs

/-- The instance check of R189: a schedule of the named cipher, or `NoKey`. -/
def State.keyedFor (s : State) (c : Cipher) : Option Schedule :=
  match s.inst with
  | some sched => if sched.cipher = c then some sched else none
  | none => none

end Sys2Proof.Machine
end

