-- ==== Sys2Proof/Machine/Flags.lean ====
section
/-! DEFINITION. The status register and its flags (spec/10_state.md R29 to R37, R49), the error codes
(spec/60_exceptions.md R321), the progress percentage (spec/41_modes.md R150) and the interrupt output
(spec/60_exceptions.md R336). The CCC has no arithmetic condition codes (R49). -/

namespace Sys2Proof.Machine

/-- Error codes (R321). -/
def CmdError.code : CmdError → BitVec 8
  | .invalidKeySize => 1
  | .weakKey => 2
  | .invalidIvLength => 3
  | .invalidBlockSize => 4
  | .unsupportedMode => 5
  | .padding => 6
  | .dataLength => 7
  | .invalidArgument => 8
  | .notFound => 9
  | .operationCancelled => 10
  | .illegalCommand => 11
  | .noKey => 12
  | .capacity => 13

/-- `STATUS.ERR` (R35). -/
def State.errCode (s : State) : BitVec 8 :=
  match s.err with
  | none => 0
  | some e => e.code

/-- `STATUS.KEYVALID` (R37). -/
def State.keyValid (s : State) : Bool := s.inst.isSome

/-- `STATUS.INSTC` (R37): 0 when the instance is invalid. -/
def State.instC (s : State) : BitVec 2 :=
  match s.inst with
  | some (.b _) => 1
  | _ => 0

/-- `STATUS` as the host reads it (R29). -/
def State.statusWord (s : State) : Word32 :=
  (0 : BitVec 9) ++ s.progress ++ s.errCode ++ (0 : BitVec 2) ++ s.instC ++
    BitVec.ofBool s.keyValid ++ BitVec.ofBool s.drop ++ BitVec.ofBool s.done ++
    BitVec.ofBool s.busy

/-- `CTRL` as the host reads it (R25): `SRST` and the reserved bits read 0. -/
def State.ctrlWord (s : State) : Word32 :=
  (0 : BitVec 30) ++ BitVec.ofBool s.irqEn ++ BitVec.ofBool s.cancel

/-- The interrupt output (R27, R336). -/
def State.irq (s : State) : Bool := s.done && s.irqEn

/-- `pct := (100 · (i + 1)) div N` (R150). -/
def percent (i n : Nat) : Nat := 100 * (i + 1) / n

/-- The progress point after block `i` of `N` (R150), for a job that already counts block `i`: report
a changed percentage, and at a report honour a cancellation request. -/
def State.progressPoint (job : ModeJob) (i : Nat) (s : State) : State :=
  let pct := percent i job.blocks.length
  if job.last = some pct then s.setCtx (.blocks job)
  else
    let t := { (s.setCtx (.blocks { job with last := some pct })) with
      progress := BitVec.ofNat 7 pct }
    if s.cancel then t.fail .operationCancelled else t

end Sys2Proof.Machine
end

