-- ==== Sys2Proof/Machine/Bus.lean ====
section
/-! DEFINITION. The bus port (spec/20_memory.md) and the register map (spec/10_state.md R23): what a
host access reads, writes and answers. -/

namespace Sys2Proof.Machine

/-- A location of the address space (R23): a control register, a byte of an array or buffer, or a
reserved location. Bytes of a register window past the register are reserved (R46 to R48). -/
inductive Loc where
  | ident
  | ctrl
  | status
  | cmd
  | inLen
  | outLen
  | keyLen
  | ivLen
  | mrRounds
  | pbits
  | nfact
  | paramBn
  | paramBuf
  | key (i : Nat)
  | iv (i : Nat)
  | bnA (i : Nat)
  | bnB (i : Nat)
  | bnC (i : Nat)
  | bnR (i : Nat)
  | bnS (i : Nat)
  | inBuf (i : Nat)
  | outBuf (i : Nat)
  | reserved
  deriving DecidableEq, Repr

/-- The control register at a word index (R23, offsets 0x00000 to 0x0003F). -/
def controlLoc (word : Nat) : Loc :=
  match word with
  | 0 => .ident
  | 1 => .ctrl
  | 2 => .status
  | 3 => .cmd
  | 4 => .inLen
  | 5 => .outLen
  | 6 => .keyLen
  | 7 => .ivLen
  | 8 => .mrRounds
  | 9 => .pbits
  | 10 => .nfact
  | 11 => .paramBn
  | 12 => .paramBuf
  | _ => .reserved

/-- Byte `off` of a window whose register has `size` bytes; past them it reads 0 and ignores writes
(R46 to R48). -/
def windowLoc (size off : Nat) (byte : Nat → Loc) : Loc := if off < size then byte off else .reserved

/-- The location at a byte address (R23). -/
def locate (p : Params) (a : Nat) : Loc :=
  if a < 0x40 then controlLoc (a / 4)
  else if a < 0x60 then .key (a - 0x40)
  else if a < 0x70 then .iv (a - 0x60)
  else if a < 0x1000 then .reserved
  else if a < 0x1200 then windowLoc p.bnBytes (a - 0x1000) .bnA
  else if a < 0x1400 then windowLoc p.bnBytes (a - 0x1200) .bnB
  else if a < 0x1600 then windowLoc p.bnBytes (a - 0x1400) .bnC
  else if a < 0x1800 then windowLoc p.bnBytes (a - 0x1600) .bnR
  else if a < 0x1A00 then windowLoc p.bnBytes (a - 0x1800) .bnS
  else if a < inBase then .reserved
  else if a < outBase then windowLoc p.bufBytes (a - inBase) .inBuf
  else if a < outEnd then windowLoc p.bufBytes (a - outBase) .outBuf
  else .reserved

/-- The value of a 32-bit control register (R24 to R45); reserved locations read 0 (R68). -/
def State.controlWord (s : State) : Loc → Word32
  | .ident => 0x43430007
  | .ctrl => s.ctrlWord
  | .status => s.statusWord
  | .cmd => s.cmd
  | .inLen => s.inLen
  | .outLen => s.outLen
  | .keyLen => s.keyLen
  | .ivLen => s.ivLen
  | .mrRounds => s.mrRounds
  | .pbits => s.pbits
  | .nfact => s.nfact
  | .paramBn => BitVec.ofNat 32 s.params.bnBits
  | .paramBuf => BitVec.ofNat 32 s.params.bufBytes
  | _ => 0

/-- A command's write set (R50). -/
def inWriteSet (i : Instr) (l : Loc) : Bool :=
  match i, l with
  | .keyset _, _ => false
  | .encb _, .outBuf _ => true
  | .decb _, .outBuf _ => true
  | .pad _ _, .outBuf _ => true
  | .unpad _ _, .outBuf _ => true
  | .encrypt _ _ _ _, .outBuf _ => true
  | .decrypt _ _ _ _, .outBuf _ => true
  | .sha256, .outBuf _ => true
  | .pfactors, .outBuf _ => true
  | .pfactors, .nfact => true
  | .isprime, .bnR _ => true
  | .genprime, .bnR _ => true
  | .primroot, .bnR _ => true
  | .genpriv, .bnR _ => true
  | .genpub, .bnR _ => true
  | .shared, .bnR _ => true
  | .modexp, .bnR _ => true
  | .genparams, .bnR _ => true
  | .genparams, .bnS _ => true
  | .kdf, .outBuf _ => true
  | .kdf, .key i => decide (i < 16)
  | .kdf, .keyLen => true
  | _, _ => false

/-- The running command's write set hides this location (R71). An illegal word writes nothing. -/
def State.hidden (s : State) (l : Loc) : Bool :=
  match s.engine with
  | .idle => false
  | .running w _ =>
    match decode w with
    | .ok i => inWriteSet i l
    | .error _ => false

/-- The byte the host sees at an address: `none` is unspecified (R47, R48, R71). -/
def State.peek (s : State) (a : Nat) : Option Byte :=
  let l := locate s.params a
  if s.hidden l then none
  else
    match l with
    | .key i => some (s.key.toList.getD i 0)
    | .iv i => some (s.iv.toList.getD i 0)
    | .bnA i => some (byteOfNat s.bnA i)
    | .bnB i => some (byteOfNat s.bnB i)
    | .bnC i => some (byteOfNat s.bnC i)
    | .bnR i => some (byteOfNat s.bnR i)
    | .bnS i => some (byteOfNat s.bnS i)
    | .inBuf _ => Memory.read s.mem a
    | .outBuf _ => Memory.read s.mem a
    | _ => some (byteOfWord (s.controlWord l) (a % 4))

/-- How many bytes an access covers (R60). -/
def AccessSize.bytes : AccessSize → Nat
  | .one => 1
  | .two => 2
  | .four => 4

/-- The accesses the port answers `OK` (R64 to R66): naturally aligned, and of four bytes in the control
registers. -/
def accessOk (a : Nat) (size : AccessSize) : Bool :=
  decide (a % size.bytes = 0) && (decide (0x40 ≤ a) || size == .four)

/-- A host read (R62, R71): the covered bytes, little-endian, each unspecified one a free value. It
changes no CCC state (R69). -/
def State.busRead (a : Nat) (size : AccessSize) (s : State) : State :=
  let r := resolve ((List.range size.bytes).map fun k => s.peek (a + k)) s.freeCount
  { s with reply := some (.readOk (BitVec.ofNat 32 (leNat r.1))), freeCount := r.2 }

/-- The locations a host write to which is dropped while a command runs (R70). -/
def Loc.isOperand : Loc → Bool
  | .cmd => true
  | .inLen => true
  | .keyLen => true
  | .ivLen => true
  | .mrRounds => true
  | .pbits => true
  | .key _ => true
  | .iv _ => true
  | .bnA _ => true
  | .bnB _ => true
  | .bnC _ => true
  | .inBuf _ => true
  | _ => false

/-- A write of `CTRL` (R25 to R28): `SRST` resets and the other bits are then ignored (R361). -/
def State.writeCtrl (w : Word32) (s : State) : State :=
  if w.getLsbD 2 then s.doReset
  else { s with cancel := w.getLsbD 0, irqEn := w.getLsbD 1 }

/-- A write of a control register that is not dropped (R23, R68). -/
def State.writeControl (l : Loc) (w : Word32) (s : State) : State :=
  match l with
  | .ctrl => s.writeCtrl w
  | .status => s.acknowledge w
  | .cmd => s.accept w
  | .inLen => { s with inLen := w }
  | .keyLen => { s with keyLen := w }
  | .ivLen => { s with ivLen := w }
  | .mrRounds => { s with mrRounds := w }
  | .pbits => { s with pbits := w }
  | _ => s

/-- A write of one byte of an array or buffer that is not dropped; read-only and reserved bytes ignore
it (R68). -/
def State.writeByte (a : Nat) (b : Byte) (s : State) : State :=
  match locate s.params a with
  | .key i => { s with key := s.key.setIfInBounds i b }
  | .iv i => { s with iv := s.iv.setIfInBounds i b }
  | .bnA i => { s with bnA := setByteOfNat s.bnA i b }
  | .bnB i => { s with bnB := setByteOfNat s.bnB i b }
  | .bnC i => { s with bnC := setByteOfNat s.bnC i b }
  | .inBuf _ => { s with mem := Memory.store s.mem a [b] }
  | _ => s

/-- The bytes of a write, from address `a + k` on (R62). -/
def State.writeBytes (a : Nat) (w : Word32) (k n : Nat) (s : State) : State :=
  match n with
  | 0 => s
  | m + 1 => (s.writeByte (a + k) (byteOfWord w k)).writeBytes a w (k + 1) m

/-- A write covers an operand location (R70). -/
def State.touchesOperand (s : State) (a : Nat) (size : AccessSize) : Bool :=
  (List.range size.bytes).any fun k => (locate s.params (a + k)).isOperand

/-- A host write (R60, R70): dropped while a command runs if it covers an operand, otherwise done. -/
def State.busWrite (a : Nat) (size : AccessSize) (w : Word32) (s : State) : State :=
  if s.busy && s.touchesOperand a size then { s with drop := true }
  else if a < 0x40 then s.writeControl (locate s.params a) w
  else s.writeBytes a w 0 size.bytes

/-- A host access on the port (R60): its effect and its answer; `BUSERR` changes nothing (R67). -/
def State.busAccess (x : Access) (s : State) : State :=
  match x with
  | .read addr size =>
    if accessOk addr.toNat size then s.busRead addr.toNat size
    else { s with reply := some .busErr }
  | .write addr size w =>
    if accessOk addr.toNat size then
      { (s.busWrite addr.toNat size w) with reply := some .writeOk }
    else { s with reply := some .busErr }

/-- `rdata` of an answer (R67): 0 for `BUSERR`. -/
def Reply.rdata : Reply → Word32
  | .readOk w => w
  | .writeOk => 0
  | .busErr => 0

end Sys2Proof.Machine
end

