-- ==== Sys2Proof/Machine/DiffieHellman.lean ====
section
/-! DEFINITION. The Diffie-Hellman engine (spec/45_dh.md). Intermediate values are unbounded naturals
(R260). -/

namespace Sys2Proof.Machine

/-! ## Arithmetic -/

/-- Square and multiply: `acc · b^e mod m`, for `e` below `2^fuel`. -/
def modExpLoop (m : Nat) (fuel b e acc : Nat) : Nat :=
  match fuel with
  | 0 => acc
  | k + 1 => modExpLoop m k (b * b % m) (e / 2) (if e % 2 = 1 then acc * b % m else acc)

/-- `ModExp(b, e, m) = b^e mod m` for `m ≥ 1`, with `0^0 = 1` (R260). -/
def modExp (b e m : Nat) : Nat := modExpLoop m (bitLen e) (b % m) e (1 % m)

/-! ## Primality -/

/-- Trial division by a list of primes (R261): `some` answer when it decides. -/
def trialDivide (n : Nat) (ps : List Nat) : Option Bool :=
  match ps with
  | [] => none
  | p :: rest =>
    if n = p then some true
    else if n % p = 0 then some false
    else trialDivide n rest

/-- The `s` and `d` of `n = 2^s · d` with `d` odd (R261), for `n` below `2^fuel`. -/
def splitTwos (fuel n : Nat) : Nat × Nat :=
  match fuel with
  | 0 => (0, n)
  | k + 1 =>
    if n % 2 = 0 then
      let r := splitTwos k (n / 2)
      (r.1 + 1, r.2)
    else (0, n)

/-- Some of the next `k` squares of `x` is `n - 1` modulo `n` (R261). -/
def squaresReach (n k x : Nat) : Bool :=
  match k with
  | 0 => false
  | j + 1 => decide (x * x % n = n - 1) || squaresReach n j (x * x % n)

/-- Base `a` is no witness against `n`, where `n - 1 = 2^s · d` (R261). -/
def basePasses (n s d a : Nat) : Bool :=
  let x := modExp a d n
  decide (x = 1) || decide (x = n - 1) || squaresReach n (s - 1) x

/-- The Miller-Rabin rounds (R261), each drawing its base from `[2, n - 2]`; the first witness ends
them. -/
def millerRabin (n s d rounds : Nat) (e : Entropy) : Bool × Entropy :=
  match rounds with
  | 0 => (true, e)
  | k + 1 =>
    let r := e.draw 2 (n - 2)
    if basePasses n s d r.1 then millerRabin n s d k r.2 else (false, r.2)

/-- `IsProbablyPrime(n, rounds)` (R261), with the build's `SMALL_PRIMES` (R262). -/
def isProbablyPrime (ps : List Nat) (n rounds : Nat) (e : Entropy) : Bool × Entropy :=
  if n < 2 then (false, e)
  else
    match trialDivide n ps with
    | some answer => (answer, e)
    | none =>
      let sd := splitTwos (bitLen (n - 1)) (n - 1)
      millerRabin n sd.1 sd.2 rounds e

/-- A prime candidate from a draw: top and bottom bits forced set (R264). -/
def primeCandidate (bits v : Nat) : Nat := v ||| 2 ^ (bits - 1) ||| 1

/-- One candidate of `GenPrime` (R264): its draw, then the tester's. -/
def tryCandidate (ps : List Nat) (bits rounds : Nat) (e : Entropy) : Option Nat × Entropy :=
  let d := e.draw 0 (2 ^ bits - 1)
  let c := primeCandidate bits d.1
  let r := isProbablyPrime ps c rounds d.2
  (if r.1 then some c else none, r.2)

/-! ## Factors and primitive roots -/

/-- `n` with every factor `d` divided out (R265), for `n` below `2^fuel`. -/
def stripFactor (d fuel n : Nat) : Nat :=
  match fuel with
  | 0 => n
  | k + 1 => if n % d = 0 then stripFactor d k (n / d) else n

/-- The trial-division loop of `PrimeFactors` from divisor `d` on (R265); `fuel` bounds the number of
divisors tried. -/
def factorLoop (fuel d n : Nat) : List Nat :=
  match fuel with
  | 0 => if 1 < n then [n] else []
  | k + 1 =>
    if d * d ≤ n then
      if n % d = 0 then d :: factorLoop k (d + 1) (stripFactor d (bitLen n) n)
      else factorLoop k (d + 1) n
    else if 1 < n then [n]
    else []

/-- `PrimeFactors(n)` (R265): distinct, ascending. At most `n` divisors are ever tried. -/
def primeFactors (n : Nat) : List Nat := if n < 2 then [] else factorLoop n 2 n

/-- `g` passes the primitive-root test for every prime factor of `p - 1` (R266). -/
def isRoot (p : Nat) (fs : List Nat) (g : Nat) : Bool :=
  fs.all fun f => decide (modExp g ((p - 1) / f) p ≠ 1)

/-- The ascending search of R266: the first of the `k` candidates from `g` on that passes. -/
def rootSearch (p : Nat) (fs : List Nat) (k g : Nat) : Option Nat :=
  match k with
  | 0 => none
  | j + 1 => if isRoot p fs g then some g else rootSearch p fs j (g + 1)

/-- `FindPrimitiveRoot(p)` (R266): candidates 2 to `p - 1`. -/
def findPrimitiveRoot (ps : List Nat) (p rounds : Nat) (e : Entropy) : Except CmdError Nat × Entropy :=
  let t := isProbablyPrime ps p rounds e
  if !t.1 then (.error .invalidArgument, t.2)
  else if p = 2 then (.ok 1, t.2)
  else
    match rootSearch p (primeFactors (p - 1)) (p - 2) 2 with
    | some g => (.ok g, t.2)
    | none => (.error .notFound, t.2)

/-! ## Commands -/

/-- The computation of `ISPRIME` (R270). -/
def computeIsprime (s : State) : Computed :=
  let t := isProbablyPrime s.params.smallPrimes s.bnA s.mrRounds.toNat s.entropy
  (.ok (.number (if t.1 then 1 else 0)), { s with entropy := t.2 })

/-- `ISPRIME` (R270): probabilistic primality test. -/
def execIsprime (s : State) : Host.Outcome State Fault Refusal :=
  .next (oneShot computeIsprime s)

/-- The check on `PBITS` that `GENPRIME` and `GENPARAMS` make before anything else (R271, R274). -/
def pbitsCheck (s : State) : Option CmdError :=
  if s.pbits.toNat < 8 then some .invalidArgument
  else if s.params.bnBits < s.pbits.toNat then some .capacity
  else none

/-- One prime candidate, one engine step (R264, R372): an accepted one moves the command on with
`accepted`, a rejected one is counted (R44). -/
def candidateStep (accepted : Nat → Ctx) (rejected : Nat) (s : State) : State :=
  let r := tryCandidate s.params.smallPrimes s.pbits.toNat s.mrRounds.toNat s.entropy
  let t := { s with entropy := r.2 }
  match r.1 with
  | some p => t.setCtx (accepted p)
  | none => t.setCtx (.candidates (rejected + 1))

/-- The engine steps that `GENPRIME` and `GENPARAMS` share: the checks, made in the first candidate's
step (log entry 16), and the candidates. -/
def generatePrime (accepted : Nat → Ctx) (s : State) : State :=
  match s.ctx with
  | some .start =>
    match pbitsCheck s with
    | some e => s.fail e
    | none => candidateStep accepted 0 s
  | some (.candidates n) => candidateStep accepted n s
  | some (.finish r) => s.succeed r
  | _ => s

/-- `GENPRIME` (R271): generate a large prime. -/
def execGenprime (s : State) : Host.Outcome State Fault Refusal :=
  .next (generatePrime (fun p => .finish (.number p)) s)

/-- The computation of `PFACTORS` (R272). -/
def computePfactors (s : State) : Computed :=
  let fs := primeFactors s.bnA
  if s.params.bufBytes < fs.length * s.params.bnBytes then (.error .capacity, s)
  else (.ok (.factors fs), s)

/-- `PFACTORS` (R272): distinct prime factors. -/
def execPfactors (s : State) : Host.Outcome State Fault Refusal :=
  .next (oneShot computePfactors s)

/-- The computation of `PRIMROOT` (R273). -/
def computePrimroot (s : State) : Computed :=
  match findPrimitiveRoot s.params.smallPrimes s.bnA s.mrRounds.toNat s.entropy with
  | (.ok g, e) => (.ok (.number g), { s with entropy := e })
  | (.error err, e) => (.error err, { s with entropy := e })

/-- `PRIMROOT` (R273): find a primitive root. -/
def execPrimroot (s : State) : Host.Outcome State Fault Refusal :=
  .next (oneShot computePrimroot s)

/-- The root-search step of `GENPARAMS` (R274): the prime is tested again with fresh draws. -/
def paramsRootStep (p : Nat) (s : State) : State :=
  match findPrimitiveRoot s.params.smallPrimes p s.mrRounds.toNat s.entropy with
  | (.ok g, e) => { s with entropy := e }.setCtx (.finish (.dhParams p g))
  | (.error err, e) => { s with entropy := e }.fail err

/-- `GENPARAMS` (R274): generate Diffie-Hellman parameters. -/
def execGenparams (s : State) : Host.Outcome State Fault Refusal :=
  match s.ctx with
  | some (.rootSearch p) => .next (paramsRootStep p s)
  | _ => .next (generatePrime (fun p => .rootSearch p) s)

/-- The computation of `GENPRIV` (R275). -/
def computeGenpriv (s : State) : Computed :=
  if s.bnA < 4 then (.error .invalidArgument, s)
  else
    let d := s.entropy.draw 2 (s.bnA - 2)
    (.ok (.number d.1), { s with entropy := d.2 })

/-- `GENPRIV` (R275): generate a private key. -/
def execGenpriv (s : State) : Host.Outcome State Fault Refusal :=
  .next (oneShot computeGenpriv s)

/-- `BN_B ^ BN_C mod BN_A`, which `GENPUB`, `SHARED` and `MODEXP` compute (R276 to R278). -/
def computeModExp (s : State) : Computed :=
  if s.bnA = 0 then (.error .invalidArgument, s)
  else (.ok (.number (modExp s.bnB s.bnC s.bnA)), s)

/-- `GENPUB` (R276): compute a public key. -/
def execGenpub (s : State) : Host.Outcome State Fault Refusal :=
  .next (oneShot computeModExp s)

/-- `SHARED` (R277): compute the shared secret. -/
def execShared (s : State) : Host.Outcome State Fault Refusal :=
  .next (oneShot computeModExp s)

/-- `MODEXP` (R278): modular exponentiation. -/
def execModexp (s : State) : Host.Outcome State Fault Refusal :=
  .next (oneShot computeModExp s)

end Sys2Proof.Machine
end

