-- ==== Sys2Proof/Machine/Kdf.lean ====
section
/-! DEFINITION. SHA-256 and the key derivation (spec/46_kdf.md). -/

namespace Sys2Proof.Machine

/-- The eight working words `a … h` (R302). -/
structure Hash where
  a : Word32
  b : Word32
  c : Word32
  d : Word32
  e : Word32
  f : Word32
  g : Word32
  h : Word32
  deriving DecidableEq, Repr

/-- The initial hash value `H0` (R303). -/
def hashInit : Hash :=
  ⟨0x6a09e667, 0xbb67ae85, 0x3c6ef372, 0xa54ff53a, 0x510e527f, 0x9b05688c, 0x1f83d9ab, 0x5be0cd19⟩

/-- The round constants (R303), one entry for each line of its table: eight words, the line's first word
in the highest bits. -/
def roundConstantLines : List (BitVec 256) := [
  0x428a2f9871374491b5c0fbcfe9b5dba53956c25b59f111f1923f82a4ab1c5ed5#256,
  0xd807aa9812835b01243185be550c7dc372be5d7480deb1fe9bdc06a7c19bf174#256,
  0xe49b69c1efbe47860fc19dc6240ca1cc2de92c6f4a7484aa5cb0a9dc76f988da#256,
  0x983e5152a831c66db00327c8bf597fc7c6e00bf3d5a7914706ca635114292967#256,
  0x27b70a852e1b21384d2c6dfc53380d13650a7354766a0abb81c2c92e92722c85#256,
  0xa2bfe8a1a81a664bc24b8b70c76c51a3d192e819d6990624f40e3585106aa070#256,
  0x19a4c1161e376c082748774c34b0bcb5391c0cb34ed8aa4a5b9cca4f682e6ff3#256,
  0x748f82ee78a5636f84c878148cc7020890befffaa4506cebbef9a3f7c67178f2#256
]

/-- The eight words of a table line, in reading order. -/
def lineWords (line : BitVec 256) : List Word32 :=
  (List.range 8).map fun k => line.extractLsb' (32 * (7 - k)) 32

/-- `K_0 … K_63` (R303). -/
def roundConstants : List Word32 := roundConstantLines.flatMap lineWords

/-- `Σ0` (R302). -/
def bigSigma0 (x : Word32) : Word32 := x.rotateRight 2 ^^^ x.rotateRight 13 ^^^ x.rotateRight 22
/-- `Σ1` (R302). -/
def bigSigma1 (x : Word32) : Word32 := x.rotateRight 6 ^^^ x.rotateRight 11 ^^^ x.rotateRight 25
/-- `σ0` (R302). -/
def smallSigma0 (x : Word32) : Word32 := x.rotateRight 7 ^^^ x.rotateRight 18 ^^^ (x >>> 3)
/-- `σ1` (R302). -/
def smallSigma1 (x : Word32) : Word32 := x.rotateRight 17 ^^^ x.rotateRight 19 ^^^ (x >>> 10)
/-- `Ch` (R302). -/
def choose (e f g : Word32) : Word32 := (e &&& f) ^^^ (~~~e &&& g)
/-- `Maj` (R302). -/
def majority (a b c : Word32) : Word32 := (a &&& b) ^^^ (a &&& c) ^^^ (b &&& c)

/-- The padded message `M` (R302): `k` is the least count that makes its length a multiple of 64. -/
def sha256Pad (m : Bytes) : Bytes :=
  m ++ [0x80] ++ List.replicate ((119 - m.length % 64) % 64) 0 ++ toBE (8 * m.length) 8

/-- The next message-schedule word from the words before it, newest first (R302). -/
def nextSchedWord (ws : List Word32) : Word32 :=
  smallSigma1 (ws.getD 1 0) + ws.getD 6 0 + smallSigma0 (ws.getD 14 0) + ws.getD 15 0

/-- The message schedule `W_0 … W_63` of a 64-byte chunk (R302). -/
def messageSchedule (chunk : Bytes) : List Word32 :=
  ((List.range 48).foldl (fun ws _ => nextSchedWord ws :: ws)
    ((List.range 16).map fun t => word32BE (slice chunk (4 * t) 4)).reverse).reverse

/-- One round of the compression (R302). -/
def hashRound (x : Hash) (kw : Word32 × Word32) : Hash :=
  let t1 := x.h + bigSigma1 x.e + choose x.e x.f x.g + kw.1 + kw.2
  let t2 := bigSigma0 x.a + majority x.a x.b x.c
  ⟨t1 + t2, x.a, x.b, x.c, x.d + t1, x.e, x.f, x.g⟩

/-- Wordwise sum modulo `2^32`. -/
def Hash.add (x y : Hash) : Hash :=
  ⟨x.a + y.a, x.b + y.b, x.c + y.c, x.d + y.d, x.e + y.e, x.f + y.f, x.g + y.g, x.h + y.h⟩

/-- The compression of one chunk (R302). -/
def compress (x : Hash) (chunk : Bytes) : Hash :=
  x.add ((roundConstants.zip (messageSchedule chunk)).foldl hashRound x)

/-- The digest bytes, big-endian word by word (R302). -/
def Hash.toBytes (x : Hash) : Bytes :=
  ([x.a, x.b, x.c, x.d, x.e, x.f, x.g, x.h].map fun w => toBE w.toNat 4).flatten

/-- `SHA256(m)` (R302). -/
def sha256 (m : Bytes) : Bytes := ((chunks 64 (sha256Pad m)).foldl compress hashInit).toBytes

/-- `DeriveKey(S)` (R300). -/
def deriveKey (secret : Nat) : Bytes := (sha256 (minBE secret)).take 16

/-- The computation of `SHA256` (R304). -/
def computeSha256 (s : State) : Computed :=
  if s.inputTooLong then (.error .capacity, s)
  else (.ok (.output (sha256 s.input)), s.readInput)

/-- `SHA256` (R304): hash the input. -/
def execSha256 (s : State) : Host.Outcome State Fault Refusal :=
  .next (oneShot computeSha256 s)

/-- The computation of `KDF` (R305). It draws nothing (R306). -/
def computeKdf (s : State) : Computed := (.ok (.derivedKey (deriveKey s.bnA)), s)

/-- `KDF` (R305): derive a 16-byte cipher key from a shared secret. -/
def execKdf (s : State) : Host.Outcome State Fault Refusal :=
  .next (oneShot computeKdf s)

end Sys2Proof.Machine
end

