-- ==== Sys2Proof/Machine/CipherA.lean ====
section
/-! DEFINITION. Cipher A, the Feistel-family cipher (spec/43_feistel.md), over its open tables. -/

namespace Sys2Proof.Machine

/-- The four 16-bit words of cipher A's state (R200). -/
structure StateA where
  w0 : Word16
  w1 : Word16
  w2 : Word16
  w3 : Word16
  deriving DecidableEq, Repr

/-- `loadA` (R201). -/
def loadA (b : Bytes) : StateA :=
  ⟨word16LE (slice b 0 2), word16LE (slice b 2 2), word16LE (slice b 4 2), word16LE (slice b 6 2)⟩

/-- `storeA` (R201). -/
def storeA (s : StateA) : Bytes :=
  toLE s.w0.toNat 2 ++ toLE s.w1.toNat 2 ++ toLE s.w2.toNat 2 ++ toLE s.w3.toNat 2

/-- Mixing input word `a_u` (R203). -/
def mixWord (a0 a1 a2 : Word16) (u : Fin 3) : Word16 :=
  match u with
  | 0 => a0
  | 1 => a1
  | 2 => a2

/-- The 6-bit group `g_t` (R204): selected bits, bit 0 first. -/
def groupA (sel : Vector (Fin 3 × Fin 16) 6) (a0 a1 a2 : Word16) : Nat :=
  sel.toList.foldr (fun up acc => ((mixWord a0 a1 a2 up.1).getLsbD up.2.val).toNat + 2 * acc) 0

/-- The 2-bit output `o_t` of group `t` (R204). -/
def outputA (fe : FeTables) (a0 a1 a2 : Word16) (t : Fin 8) : BitVec 2 :=
  (fe.sbox.get t).toList.getD (groupA (fe.sel.get t) a0 a1 a2) 0

/-- The mixing function `F` (R204): `Σ o_t << (2 · FE_OPOS[t])`. -/
def mixA (fe : FeTables) (a0 a1 a2 : Word16) : Word16 :=
  ([0, 1, 2, 3, 4, 5, 6, 7] : List (Fin 8)).foldl
    (fun acc t => acc + ((outputA fe a0 a1 a2 t).zeroExtend 16 <<< (2 * (fe.opos.get t).val))) 0

/-- `RoundA` (R202): `w1, w2, w3` keyed, `w0` updated (C6), words rotated. -/
def roundA (fe : FeTables) (s : StateA) (k : KeyA) : StateA :=
  ⟨s.w1, s.w2, s.w3, s.w0 ^^^ mixA fe (s.w1 ^^^ k.k0) (s.w2 ^^^ k.k1) (s.w3 ^^^ k.k2)⟩

/-- `InvRoundA` (R206). -/
def invRoundA (fe : FeTables) (y : StateA) (k : KeyA) : StateA :=
  ⟨y.w3 ^^^ mixA fe (y.w0 ^^^ k.k0) (y.w1 ^^^ k.k1) (y.w2 ^^^ k.k2), y.w0, y.w1, y.w2⟩

/-- The word-recombination permutation `ρ` (R206). -/
def recombineA (s : StateA) : StateA := ⟨s.w1, s.w2, s.w3, s.w0⟩

/-- The last inverse round of decryption, whose words are not rotated (R207, C9). -/
def lastInvRoundA (fe : FeTables) (s : StateA) (k : KeyA) : StateA :=
  ⟨s.w0, s.w1, s.w2, s.w3 ^^^ mixA fe (s.w0 ^^^ k.k0) (s.w1 ^^^ k.k1) (s.w2 ^^^ k.k2)⟩

/-- The 32 rounds of `EncA` on the state words (R205). -/
def encWordsA (fe : FeTables) (sched : Vector KeyA 32) (s : StateA) : StateA :=
  sched.toList.foldl (roundA fe) s

/-- `EncA` (R205). -/
def encA (fe : FeTables) (sched : Vector KeyA 32) (b : Bytes) : Bytes :=
  storeA (encWordsA fe sched (loadA b))

/-- `DecA` (R207): inverse rounds 31 to 1, the unrotated last one, then `ρ` three times. -/
def decA (fe : FeTables) (sched : Vector KeyA 32) (b : Bytes) : Bytes :=
  let s := sched.toList.tail.reverse.foldl (invRoundA fe) (loadA b)
  let t := lastInvRoundA fe s (sched.get 0)
  storeA (recombineA (recombineA (recombineA t)))

/-- A schedule entry XORed with the first three state words (R210). -/
def keyXorA (k : KeyA) (s : StateA) : KeyA := ⟨k.k0 ^^^ s.w0, k.k1 ^^^ s.w1, k.k2 ^^^ s.w2⟩

/-- Step `i` of the key schedule (R210, C8): a full encryption of the running state under the schedule
as it stands, then entry `i` updated. -/
def schedStepA (fe : FeTables) (acc : Vector KeyA 32 × StateA) (i : Fin 32) :
    Vector KeyA 32 × StateA :=
  let s := loadA (encA fe acc.1 (storeA acc.2))
  (acc.1.set i.val (keyXorA (acc.1.get i) s), s)

/-- The 32 steps for one 64-bit key half (R210). -/
def schedHalfA (fe : FeTables) (sched : Vector KeyA 32) (half : Bytes) : Vector KeyA 32 :=
  ((List.finRange 32).foldl (schedStepA fe) (sched, loadA half)).1

/-- `KeySchedA` (R210) of a 16-byte key: half `h = 0` is key bytes 0 to 7. -/
def keySchedA (fe : FeTables) (key : Bytes) : Vector KeyA 32 :=
  schedHalfA fe (schedHalfA fe (Vector.replicate 32 ⟨0, 0, 0⟩) (slice key 0 8)) (slice key 8 8)

end Sys2Proof.Machine
end

