-- ==== Sys2Proof/Machine/CipherB.lean ====
section
/-! DEFINITION. Cipher B, the SP-network cipher (spec/44_spn.md): Serpent in bitslice form. -/

namespace Sys2Proof.Machine

/-- Wordwise XOR. -/
def Quad.xor (x y : Quad) : Quad := ⟨x.x0 ^^^ y.x0, x.x1 ^^^ y.x1, x.x2 ^^^ y.x2, x.x3 ^^^ y.x3⟩

/-- The state of a 16-byte block (R230). -/
def loadB (b : Bytes) : Quad :=
  ⟨word32LE (slice b 0 4), word32LE (slice b 4 4), word32LE (slice b 8 4), word32LE (slice b 12 4)⟩

/-- The bytes of a state (R230). -/
def storeB (x : Quad) : Bytes :=
  toLE x.x0.toNat 4 ++ toLE x.x1.toNat 4 ++ toLE x.x2.toNat 4 ++ toLE x.x3.toNat 4

/-- The S-boxes `S_k` (R232). -/
def sboxB (k : Nat) : List (BitVec 4) :=
  match k with
  | 0 => [3, 8, 15, 1, 10, 6, 5, 11, 14, 13, 4, 2, 7, 0, 9, 12]
  | 1 => [15, 12, 2, 7, 9, 0, 5, 10, 1, 11, 14, 8, 6, 13, 3, 4]
  | 2 => [8, 6, 7, 9, 3, 12, 10, 15, 13, 1, 14, 4, 0, 11, 5, 2]
  | 3 => [0, 15, 11, 8, 12, 9, 6, 3, 13, 1, 2, 4, 10, 7, 5, 14]
  | 4 => [1, 15, 8, 3, 12, 0, 11, 6, 2, 5, 4, 10, 9, 14, 7, 13]
  | 5 => [15, 5, 2, 11, 4, 10, 9, 12, 0, 3, 14, 8, 13, 6, 7, 1]
  | 6 => [7, 2, 12, 5, 8, 4, 6, 11, 14, 9, 1, 15, 13, 3, 10, 0]
  | _ => [1, 13, 15, 0, 14, 8, 2, 11, 7, 4, 12, 10, 9, 3, 5, 6]

/-- The inverse S-boxes `SI_k` (R233). -/
def invSboxB (k : Nat) : List (BitVec 4) :=
  match k with
  | 0 => [13, 3, 11, 0, 10, 6, 5, 12, 1, 14, 4, 7, 15, 9, 8, 2]
  | 1 => [5, 8, 2, 14, 15, 6, 12, 3, 11, 4, 7, 9, 1, 13, 10, 0]
  | 2 => [12, 9, 15, 4, 11, 14, 1, 2, 0, 3, 6, 13, 5, 8, 10, 7]
  | 3 => [0, 9, 10, 7, 11, 14, 6, 13, 3, 5, 12, 2, 4, 8, 15, 1]
  | 4 => [5, 0, 8, 3, 10, 9, 7, 14, 2, 12, 11, 6, 4, 15, 13, 1]
  | 5 => [8, 15, 2, 9, 4, 1, 13, 14, 11, 6, 5, 3, 7, 12, 10, 0]
  | 6 => [15, 10, 1, 13, 5, 3, 6, 0, 4, 9, 14, 7, 2, 12, 8, 11]
  | _ => [3, 0, 6, 13, 9, 14, 15, 8, 5, 12, 11, 7, 10, 1, 4, 2]

/-- The nibble at bit position `j`, `x0` supplying its bit 0 (R231). -/
def nibbleB (x : Quad) (j : Nat) : Nat :=
  (x.x0.getLsbD j).toNat + 2 * (x.x1.getLsbD j).toNat + 4 * (x.x2.getLsbD j).toNat +
    8 * (x.x3.getLsbD j).toNat

/-- A 4-bit S-box applied to four words, bit position by bit position (R231). -/
def applyBox (box : List (BitVec 4)) (x : Quad) : Quad :=
  let word (i : Nat) : Word32 :=
    BitVec.ofFnLE fun j : Fin 32 => (box.getD (nibbleB x j.val) 0).getLsbD i
  ⟨word 0, word 1, word 2, word 3⟩

/-- The linear transform `LT` (R234), in order. -/
def linearB (x : Quad) : Quad :=
  let a0 := x.x0.rotateLeft 13
  let a2 := x.x2.rotateLeft 3
  let a1 := x.x1 ^^^ a0 ^^^ a2
  let a3 := x.x3 ^^^ a2 ^^^ (a0 <<< 3)
  let b1 := a1.rotateLeft 1
  let b3 := a3.rotateLeft 7
  let b0 := a0 ^^^ b1 ^^^ b3
  let b2 := a2 ^^^ b3 ^^^ (b1 <<< 7)
  ⟨b0.rotateLeft 5, b1, b2.rotateLeft 22, b3⟩

/-- The inverse linear transform `ILT` (R235). -/
def invLinearB (x : Quad) : Quad :=
  let b2 := x.x2.rotateRight 22
  let b0 := x.x0.rotateRight 5
  let a2 := b2 ^^^ x.x3 ^^^ (x.x1 <<< 7)
  let a0 := b0 ^^^ x.x1 ^^^ x.x3
  let a3 := x.x3.rotateRight 7
  let a1 := x.x1.rotateRight 1
  ⟨a0.rotateRight 13, a1 ^^^ a0 ^^^ a2, a2.rotateRight 3, a3 ^^^ a2 ^^^ (a0 <<< 3)⟩

/-- A key extended to 32 bytes: a single set bit just above it, then zeros (R236). -/
def extendKeyB (key : Bytes) : Bytes :=
  if key.length < 32 then key ++ [1] ++ List.replicate (31 - key.length) 0 else key

/-- The eight initial words, `w_(-1)` first (R236). -/
def initialWordsB (key : Bytes) : List Word32 :=
  ([7, 6, 5, 4, 3, 2, 1, 0] : List Nat).map fun j => word32LE (slice (extendKeyB key) (4 * j) 4)

/-- The next prekey word from the words before it, newest first (R237, C2). -/
def nextPrekeyB (ws : List Word32) (i : Nat) : Word32 :=
  (ws.getD 7 0 ^^^ ws.getD 4 0 ^^^ ws.getD 2 0 ^^^ ws.getD 0 0 ^^^ 0x9E3779B9#32 ^^^
    BitVec.ofNat 32 i).rotateLeft 11

/-- The prekey `w_0 … w_131` (R237). -/
def prekeysB (key : Bytes) : List Word32 :=
  (((List.range 132).foldl (fun ws i => nextPrekeyB ws i :: ws) (initialWordsB key)).take 132).reverse

/-- Subkey `K_i` from the prekey (R238): box `(3 - i) mod 8`. -/
def subkeyB (w : List Word32) (i : Nat) : Quad :=
  applyBox (sboxB ((35 - i) % 8))
    ⟨w.getD (4 * i) 0, w.getD (4 * i + 1) 0, w.getD (4 * i + 2) 0, w.getD (4 * i + 3) 0⟩

/-- `KeySchedB` (R238). -/
def keySchedB (key : Bytes) : Vector Quad 33 :=
  let w := prekeysB key
  Vector.ofFn fun i : Fin 33 => subkeyB w i.val

/-- Round `r` of encryption (R239, C1): the last round has `K_32` instead of the linear transform. -/
def roundB (k : Vector Quad 33) (x : Quad) (r : Fin 32) : Quad :=
  let y := applyBox (sboxB (r.val % 8)) (x.xor (k.get r.castSucc))
  if r.val < 31 then linearB y else y.xor (k.get 32)

/-- Round `r` of decryption (R240). -/
def invRoundB (k : Vector Quad 33) (x : Quad) (r : Fin 32) : Quad :=
  let y := if r.val < 31 then invLinearB x else x.xor (k.get 32)
  (applyBox (invSboxB (r.val % 8)) y).xor (k.get r.castSucc)

/-- `EncB` (R239). -/
def encB (k : Vector Quad 33) (b : Bytes) : Bytes :=
  storeB ((List.finRange 32).foldl (roundB k) (loadB b))

/-- `DecB` (R240). -/
def decB (k : Vector Quad 33) (b : Bytes) : Bytes :=
  storeB ((List.finRange 32).reverse.foldl (invRoundB k) (loadB b))

end Sys2Proof.Machine
end

