-- ==== Sys2Proof/Machine/BlockCommands.lean ====
section
/-! DEFINITION. The primitive contract, the cipher instance and the commands `KEYSET`, `ENCB`, `DECB`
(spec/42_block_commands.md). -/

namespace Sys2Proof.Machine

/-- `KeySched` of a cipher (R180). -/
def keySchedule (fe : FeTables) (c : Cipher) (key : Bytes) : Schedule :=
  match c with
  | .a => .a (keySchedA fe key)
  | .b => .b (keySchedB key)

/-- `E` of an instance (R181). -/
def Schedule.encBlock (fe : FeTables) (sched : Schedule) (b : Bytes) : Bytes :=
  match sched with
  | .a k => encA fe k b
  | .b k => encB k b

/-- `D` of an instance (R181). -/
def Schedule.decBlock (fe : FeTables) (sched : Schedule) (b : Bytes) : Bytes :=
  match sched with
  | .a k => decA fe k b
  | .b k => decB k b

/-- The computation of `KEYSET` (R184, R185): length first, then the all-zero key; a failure clears
the instance (R186). -/
def computeKeyset (c : Cipher) (s : State) : Computed :=
  if s.keyLen.toNat ∉ keyLengths c then (.error .invalidKeySize, { s with inst := none })
  else if s.keyBytes.all (· == 0) then (.error .weakKey, { s with inst := none })
  else (.ok (.keyed (keySchedule s.params.fe c s.keyBytes)), s)

/-- `KEYSET` (R185): construct the cipher instance. -/
def execKeyset (c : Cipher) (s : State) : Host.Outcome State Fault Refusal :=
  .next (oneShot (computeKeyset c) s)

/-- What `ENCB` and `DECB` share (R187, R188): the instance check, the length check, one block through
`f`. -/
def computeBlock (f : FeTables → Schedule → Bytes → Bytes) (c : Cipher) (s : State) : Computed :=
  match s.keyedFor c with
  | none => (.error .noKey, s)
  | some sched =>
    if s.inLen.toNat ≠ blockSize c then (.error .invalidBlockSize, s)
    else (.ok (.output (f s.params.fe sched s.input)), s.readInput)

/-- `ENCB` (R187): encrypt one block. -/
def execEncb (c : Cipher) (s : State) : Host.Outcome State Fault Refusal :=
  .next (oneShot (computeBlock Schedule.encBlock c) s)

/-- `DECB` (R188): decrypt one block. -/
def execDecb (c : Cipher) (s : State) : Host.Outcome State Fault Refusal :=
  .next (oneShot (computeBlock Schedule.decBlock c) s)

end Sys2Proof.Machine
end

