-- ==== Sys2Proof/Machine/Padding.lean ====
section
/-! DEFINITION. The padding engine (spec/40_padding.md) and its commands `PAD` and `UNPAD`. -/

namespace Sys2Proof.Machine

/-- `n := bs - (|d| mod bs)` (R121). -/
def padLength (len bs : Nat) : Nat := bs - len % bs

/-- The pad length as its byte. -/
def padByte (n : Nat) : Byte := BitVec.ofNat 8 n

/-- `Pad(d, scheme, bs)` (R120 to R125). `ISO_10126` draws `n-1` bytes; no other scheme draws. -/
def pad (d : Bytes) (scheme : PadScheme) (bs : Nat) (e : Entropy) :
    Except CmdError (Bytes × Entropy) :=
  let n := padLength d.length bs
  match scheme with
  | .zeros => .ok (d ++ List.replicate n 0, e)
  | .ansiX923 => .ok (d ++ List.replicate (n - 1) 0 ++ [padByte n], e)
  | .pkcs7 => .ok (d ++ List.replicate n (padByte n), e)
  | .iso10126 =>
    let r := e.drawBytes (n - 1)
    .ok (d ++ r.1 ++ [padByte n], r.2)
  | .unknown _ => .error .padding

/-- The claimed pad length of a non-empty string, its last byte, when it is in range:
`1 ≤ n ≤ bs` and `n ≤ |d|` (R126). -/
def claimedPad (d : Bytes) (bs : Nat) : Option Nat :=
  match d.getLast? with
  | none => none
  | some b =>
    if 1 ≤ b.toNat ∧ b.toNat ≤ bs ∧ b.toNat ≤ d.length then some b.toNat else none

/-- ZEROS unpad (R129): every trailing zero byte is removed. -/
def unpadZeros (d : Bytes) : Bytes := (d.reverse.dropWhile (· == 0)).reverse

/-- ANSI_X923 unpad (R130): permissive. -/
def unpadAnsi (d : Bytes) (bs : Nat) : Bytes :=
  match claimedPad d bs with
  | none => d
  | some n =>
    if (slice d (d.length - n) (n - 1)).all (· == 0) then d.take (d.length - n) else d

/-- PKCS7 unpad (R131): the only scheme that can raise. -/
def unpadPkcs7 (d : Bytes) (bs : Nat) : Except CmdError Bytes :=
  match claimedPad d bs with
  | none => .ok d
  | some n =>
    if (d.drop (d.length - n)).all (· == padByte n) then .ok (d.take (d.length - n))
    else if (slice d (d.length - n) (n - 1)).any (· == padByte n) then .error .padding
    else .ok d

/-- ISO_10126 unpad (R132): only the last byte is inspected. -/
def unpadIso (d : Bytes) (bs : Nat) : Bytes :=
  match claimedPad d bs with
  | none => d
  | some n => d.take (d.length - n)

/-- `Unpad(d, scheme, bs)` (R126). -/
def unpad (d : Bytes) (scheme : PadScheme) (bs : Nat) : Except CmdError Bytes :=
  match scheme with
  | .zeros => .ok (unpadZeros d)
  | .ansiX923 => .ok (unpadAnsi d bs)
  | .pkcs7 => unpadPkcs7 d bs
  | .iso10126 => .ok (unpadIso d bs)
  | .unknown _ => .error .padding

/-- A reserved scheme, whose command raises `PaddingError` before anything else (R127, R128, R141). -/
def schemeUnknown : PadScheme → Bool
  | .unknown _ => true
  | _ => false

/-- The computation of `PAD` (R127). -/
def computePad (c : Cipher) (p : PadScheme) (s : State) : Computed :=
  let bs := blockSize c
  if schemeUnknown p then (.error .padding, s)
  else if s.inputTooLong then (.error .capacity, s)
  else if s.params.bufBytes < s.inLen.toNat + padLength s.inLen.toNat bs then
    (.error .capacity, s.readInput)
  else
    match pad s.input p bs s.entropy with
    | .ok (out, e) => (.ok (.output out), { s.readInput with entropy := e })
    | .error err => (.error err, s.readInput)

/-- `PAD` (R127): pad a byte string. -/
def execPad (c : Cipher) (p : PadScheme) (s : State) : Host.Outcome State Fault Refusal :=
  .next (oneShot (computePad c p) s)

/-- The computation of `UNPAD` (R128). -/
def computeUnpad (c : Cipher) (p : PadScheme) (s : State) : Computed :=
  if schemeUnknown p then (.error .padding, s)
  else if s.inputTooLong then (.error .capacity, s)
  else
    match unpad s.input p (blockSize c) with
    | .ok out => (.ok (.output out), s.readInput)
    | .error err => (.error err, s.readInput)

/-- `UNPAD` (R128): remove padding from a byte string. -/
def execUnpad (c : Cipher) (p : PadScheme) (s : State) : Host.Outcome State Fault Refusal :=
  .next (oneShot (computeUnpad c p) s)

end Sys2Proof.Machine
end

