-- ==== Sys2Proof/Machine/Modes.lean ====
section
/-! DEFINITION. The mode-of-operation controller (spec/41_modes.md) and its commands `ENCRYPT` and
`DECRYPT`. Block indices are 0-based (R140, C7). -/

namespace Sys2Proof.Machine

/-- A block function: `E` or `D` (R181). -/
abbrev BlockFn := Bytes → Bytes

/-- `ctrblock(i) := toBE((ctr0 + i) mod 2^(8·bs), bs)` (R158). -/
def ctrBlock (bs ctr0 i : Nat) : Bytes := toBE ((ctr0 + i) % 2 ^ (8 * bs)) bs

/-- One block of `ChainEnc` (R151 to R157): from the chaining variable, the block index and `P_i`, the
output `C_i` and the next chaining variable (R148). In CTR mode a short last block is XORed over its
length only (R159). -/
def chainEncBlock (mode : Mode) (enc : BlockFn) (bs ctr0 i : Nat) (chain p : Bytes) : Bytes × Bytes :=
  match mode with
  | .ecb => (enc p, chain)
  | .cbc =>
    let c := enc (xorBytes p chain)
    (c, c)
  | .pcbc =>
    let c := enc (xorBytes p chain)
    (c, xorBytes p c)
  | .cfb =>
    let c := xorBytes p (enc chain)
    (c, c)
  | .ofb =>
    let k := enc chain
    (xorBytes p k, k)
  | .ctr => (xorBytes p (enc (ctrBlock bs ctr0 i)), chain)
  | .randomDelta => (enc (xorBytes p chain), enc chain)
  | .unknown => (p, chain)

/-- One block of `ChainDec` (R151 to R157). CFB, OFB and CTR use `E` in both directions (R147). -/
def chainDecBlock (mode : Mode) (enc dec : BlockFn) (bs ctr0 i : Nat) (chain c : Bytes) :
    Bytes × Bytes :=
  match mode with
  | .ecb => (dec c, chain)
  | .cbc => (xorBytes (dec c) chain, c)
  | .pcbc =>
    let p := xorBytes (dec c) chain
    (p, xorBytes p c)
  | .cfb => (xorBytes c (enc chain), c)
  | .ofb =>
    let k := enc chain
    (xorBytes c k, k)
  | .ctr => (xorBytes c (enc (ctrBlock bs ctr0 i)), chain)
  | .randomDelta => (xorBytes (dec c) chain, enc chain)
  | .unknown => (c, chain)

/-- Run a block step over a block list from index `i`, with the chaining variable carried on. -/
def chainRun (f : Nat → Bytes → Bytes → Bytes × Bytes) (i : Nat) (chain : Bytes)
    (blocks : List Bytes) : Bytes :=
  match blocks with
  | [] => []
  | x :: rest =>
    let y := f i chain x
    y.1 ++ chainRun f (i + 1) y.2 rest

/-- `ChainEnc(mode, iv, P)` (R140, R159). -/
def chainEnc (mode : Mode) (enc : BlockFn) (bs : Nat) (iv p : Bytes) : Bytes :=
  chainRun (chainEncBlock mode enc bs (beNat iv)) 0 iv (chunks bs p)

/-- `ChainDec(mode, iv, C)` (R140, R159). -/
def chainDec (mode : Mode) (enc dec : BlockFn) (bs : Nat) (iv c : Bytes) : Bytes :=
  chainRun (chainDecBlock mode enc dec bs (beNat iv)) 0 iv (chunks bs c)

/-- The job of a mode command after its preparation step (R149): the chaining variable starts from the
IV (R148), nothing has been reported (R150). -/
def newJob (bs : Nat) (iv data lead : Bytes) : ModeJob :=
  ⟨chunks bs data, 0, iv, beNat iv, lead, none⟩

/-- The checks that `ENCRYPT` and `DECRYPT` make first, in order (R141, R142, R160, R161): instance,
mode, scheme, supplied IV length, input length. -/
def modeChecks (c : Cipher) (m : Mode) (p : PadScheme) (ivp : Bool) (s : State) :
    Except CmdError Schedule :=
  match s.keyedFor c with
  | none => .error .noKey
  | some sched =>
    if m = .unknown then .error .unsupportedMode
    else if schemeUnknown p then .error .padding
    else if m ≠ .ecb ∧ ivp ∧ s.ivLen.toNat ≠ blockSize c then .error .invalidIvLength
    else if s.inputTooLong then .error .capacity
    else .ok sched

/-- `pre` of R146: the length of the IV that `ENCRYPT` generates and prepends (R143). -/
def ivPrefixLength (c : Cipher) (m : Mode) (ivp : Bool) : Nat :=
  if m ≠ .ecb ∧ ¬ivp then blockSize c else 0

/-- The preparation step of `ENCRYPT` (R160): padding draws, then IV draws (R143). -/
def prepareEncrypt (c : Cipher) (m : Mode) (p : PadScheme) (ivp : Bool) (s : State) :
    Except CmdError ModeJob × State :=
  let bs := blockSize c
  match modeChecks c m p ivp s with
  | .error e => (.error e, s)
  | .ok _ =>
    if s.params.bufBytes < ivPrefixLength c m ivp + s.inLen.toNat + padLength s.inLen.toNat bs then
      (.error .capacity, s.readInput)
    else
      match pad s.input p bs s.entropy with
      | .error e => (.error e, s.readInput)
      | .ok (padded, e) =>
        if m = .ecb then (.ok (newJob bs [] padded []), { s.readInput with entropy := e })
        else if ivp then
          (.ok (newJob bs (s.ivBytes bs) padded []), { s.readInput with entropy := e })
        else
          let r := e.drawBytes bs
          (.ok (newJob bs r.1 padded r.1), { s.readInput with entropy := r.2 })

/-- The IV and the ciphertext that `DECRYPT` works on (R142, R144): none in ECB, the supplied one, or
the input's leading block. -/
def splitIv (m : Mode) (ivp : Bool) (bs : Nat) (iv d : Bytes) : Except CmdError (Bytes × Bytes) :=
  if m = .ecb then .ok ([], d)
  else if ivp then .ok (iv, d)
  else if d.length < bs then .error .dataLength
  else .ok (d.take bs, d.drop bs)

/-- The preparation step of `DECRYPT` (R161, R145). -/
def prepareDecrypt (c : Cipher) (m : Mode) (p : PadScheme) (ivp : Bool) (s : State) :
    Except CmdError ModeJob × State :=
  let bs := blockSize c
  match modeChecks c m p ivp s with
  | .error e => (.error e, s)
  | .ok _ =>
    match splitIv m ivp bs (s.ivBytes bs) s.input with
    | .error e => (.error e, s.readInput)
    | .ok (iv, d) =>
      if d.length = 0 ∨ d.length % bs ≠ 0 then (.error .dataLength, s.readInput)
      else (.ok (newJob bs iv d []), s.readInput)

/-- One engine step of a mode command (R149): preparation, then one block a step, then the final step,
where `close` turns the output so far into the command's output. -/
def modeStep (prepare : State → Except CmdError ModeJob × State)
    (block : State → ModeJob → Bytes → Bytes × Bytes) (close : Bytes → Except CmdError Bytes)
    (s : State) : State :=
  match s.ctx with
  | some .start =>
    match prepare s with
    | (.error e, t) => t.fail e
    | (.ok job, t) => t.setCtx (.blocks job)
  | some (.blocks job) =>
    match job.blocks[job.next]? with
    | some x =>
      let y := block s job x
      s.progressPoint { job with next := job.next + 1, chain := y.2, out := job.out ++ y.1 } job.next
    | none =>
      match close job.out with
      | .ok out => s.succeed (.output out)
      | .error e => s.fail e
  | _ => s

/-- `E` of the machine's instance (R181); every command that uses it has checked the instance (log
entry 20). -/
def State.encFn (s : State) : BlockFn :=
  match s.inst with
  | some sched => sched.encBlock s.params.fe
  | none => fun b => b

/-- `D` of the machine's instance (R181). -/
def State.decFn (s : State) : BlockFn :=
  match s.inst with
  | some sched => sched.decBlock s.params.fe
  | none => fun b => b

/-- `ENCRYPT` (R160): pad, chain and encrypt a message. -/
def execEncrypt (c : Cipher) (m : Mode) (p : PadScheme) (ivp : Bool) (s : State) :
    Host.Outcome State Fault Refusal :=
  .next (modeStep (prepareEncrypt c m p ivp)
    (fun s job x => chainEncBlock m s.encFn (blockSize c) job.ctr0 job.next job.chain x)
    (fun out => .ok out) s)

/-- `DECRYPT` (R161): decrypt, unchain and unpad a message. -/
def execDecrypt (c : Cipher) (m : Mode) (p : PadScheme) (ivp : Bool) (s : State) :
    Host.Outcome State Fault Refusal :=
  .next (modeStep (prepareDecrypt c m p ivp)
    (fun s job x => chainDecBlock m s.encFn s.decFn (blockSize c) job.ctr0 job.next job.chain x)
    (fun out => unpad out p (blockSize c)) s)

end Sys2Proof.Machine
end

