-- ==== Sys2Proof/Machine/Dispatch.lean ====
section
/-! DEFINITION. The dispatch: one engine step of a decoded command, one arm per constructor of
`Instr`. -/

namespace Sys2Proof.Machine

def exec (i : Instr) (s : State) : Host.Outcome State Fault Refusal :=
  match i with
  | .keyset c => Sys2Proof.Machine.execKeyset c s
  | .encb c => Sys2Proof.Machine.execEncb c s
  | .decb c => Sys2Proof.Machine.execDecb c s
  | .pad c p => Sys2Proof.Machine.execPad c p s
  | .unpad c p => Sys2Proof.Machine.execUnpad c p s
  | .encrypt c m p ivp => Sys2Proof.Machine.execEncrypt c m p ivp s
  | .decrypt c m p ivp => Sys2Proof.Machine.execDecrypt c m p ivp s
  | .isprime => Sys2Proof.Machine.execIsprime s
  | .genprime => Sys2Proof.Machine.execGenprime s
  | .pfactors => Sys2Proof.Machine.execPfactors s
  | .primroot => Sys2Proof.Machine.execPrimroot s
  | .genparams => Sys2Proof.Machine.execGenparams s
  | .genpriv => Sys2Proof.Machine.execGenpriv s
  | .genpub => Sys2Proof.Machine.execGenpub s
  | .shared => Sys2Proof.Machine.execShared s
  | .modexp => Sys2Proof.Machine.execModexp s
  | .sha256 => Sys2Proof.Machine.execSha256 s
  | .kdf => Sys2Proof.Machine.execKdf s

end Sys2Proof.Machine
end

