-- ==== Sys2Proof/Machine/Step.lean ====
section
/-! DEFINITION. One step of the CCC: the next move of the one order of spec/20_memory.md R74, which is
a host access, a step with `rst` asserted, or an engine step. -/

namespace Sys2Proof.Machine

/-- One engine step: the running command's word is decoded (R95) and the command takes its next step;
a word that does not decode completes with `IllegalCommand`. An idle engine does nothing (R346; log
entry 10). -/
def engineStep (s : State) : Host.Outcome State Fault Refusal :=
  match s.engine with
  | .idle => .next s
  | .running w _ =>
    match decode w with
    | .ok i => exec i s
    | .error _ => .next (s.fail .illegalCommand)

/-- One step of the machine. The head of the agenda moves; when the agenda is empty the engine does
(R74, R331, U17; log entry 1). -/
def step (s : State) : Host.Outcome State Fault Refusal :=
  match s.agenda with
  | [] => engineStep s
  | .engine :: rest => engineStep { s with agenda := rest }
  | .access a :: rest => .next (State.busAccess a { s with agenda := rest })
  | .rst :: rest => .next (State.doReset { s with agenda := rest })

/-- `s` with the command word `w` just accepted (R31) and the engine next to move, so that the very
next step decodes and runs it. The word is laid out as the four little-endian bytes written to `CMD`
(log entry 8). -/
def State.withFetchWord (s : State) (nbits w : Nat) : State :=
  match tableBytes nbits w with
  | [b0, b1, b2, b3] => { (s.accept (wordOfBytes b0 b1 b2 b3)) with agenda := [] }
  | _ => s

end Sys2Proof.Machine
end

