-- ==== Sys2Proof/Machine/HostProgram.lean ====
section
/-! DEFINITION. The assembler spelling of commands and the host-program notation (spec/30_encoding.md
R99, R100), as builders of agendas. The polling loop `wait` is the host's own control flow: an agenda
gives the engine its turns instead. -/

namespace Sys2Proof.Machine

/-- `CIPHER` suffix (R99). -/
def spellCipher : Cipher → String
  | .a => ".A"
  | .b => ".B"

/-- `MODE` suffix (R99); code 7 has no spelling. -/
def spellMode : Mode → Option String
  | .ecb => some ".ECB"
  | .cbc => some ".CBC"
  | .pcbc => some ".PCBC"
  | .cfb => some ".CFB"
  | .ofb => some ".OFB"
  | .ctr => some ".CTR"
  | .randomDelta => some ".RD"
  | .unknown => none

/-- `PAD` suffix (R99); codes 4 to 7 have no spelling. -/
def spellPad : PadScheme → Option String
  | .zeros => some ".ZEROS"
  | .ansiX923 => some ".X923"
  | .pkcs7 => some ".PKCS7"
  | .iso10126 => some ".ISO10126"
  | .unknown _ => none

/-- A mode command's suffixes after its mnemonic (R99). -/
def spellModeFields (c : Cipher) (m : Mode) (p : PadScheme) (ivp : Bool) : Option String :=
  match spellMode m, spellPad p with
  | some x, some y => some (spellCipher c ++ x ++ y ++ (if ivp then ".IV" else ""))
  | _, _ => none

/-- The spelling of a command (R99); `none` for a reserved field code, which is written in hex. -/
def spell : Instr → Option String
  | .keyset c => some ("KEYSET" ++ spellCipher c)
  | .encb c => some ("ENCB" ++ spellCipher c)
  | .decb c => some ("DECB" ++ spellCipher c)
  | .pad c p => (spellPad p).map fun x => "PAD" ++ spellCipher c ++ x
  | .unpad c p => (spellPad p).map fun x => "UNPAD" ++ spellCipher c ++ x
  | .encrypt c m p v => (spellModeFields c m p v).map ("ENCRYPT" ++ ·)
  | .decrypt c m p v => (spellModeFields c m p v).map ("DECRYPT" ++ ·)
  | .isprime => some "ISPRIME"
  | .genprime => some "GENPRIME"
  | .pfactors => some "PFACTORS"
  | .primroot => some "PRIMROOT"
  | .genparams => some "GENPARAMS"
  | .genpriv => some "GENPRIV"
  | .genpub => some "GENPUB"
  | .shared => some "SHARED"
  | .modexp => some "MODEXP"
  | .sha256 => some "SHA256"
  | .kdf => some "KDF"

/-- `wr32 OFF, V` (R100). -/
def wr32 (off : Nat) (v : Word32) : List Event := [.access (.write (BitVec.ofNat 18 off) .four v)]

/-- `wr8 OFF, V` (R100). -/
def wr8 (off : Nat) (v : Byte) : List Event :=
  [.access (.write (BitVec.ofNat 18 off) .one (v.zeroExtend 32))]

/-- `wrbytes OFF, "…"` (R100): one-byte writes at rising offsets. -/
def wrbytes (off : Nat) (b : Bytes) : List Event :=
  match b with
  | [] => []
  | x :: rest => wr8 off x ++ wrbytes (off + 1) rest

/-- `rd32 OFF` (R100). -/
def rd32 (off : Nat) : List Event := [.access (.read (BitVec.ofNat 18 off) .four)]

/-- `rdbytes OFF, N` (R100). DESIGN CHOICE: one-byte reads at rising offsets, where R100 gives neither the
width nor the order of the reads. Log entry 22. -/
def rdbytes (off n : Nat) : List Event :=
  (List.range n).map fun k => .access (.read (BitVec.ofNat 18 (off + k)) .one)

/-- `cmd M` (R100). -/
def cmdWrite (i : Instr) : List Event := wr32 0x0000C (encode i)

/-- `setin "…"` (R100): the bytes first, then the length. -/
def setIn (b : Bytes) : List Event := wrbytes 0x10000 b ++ wr32 0x00010 (BitVec.ofNat 32 b.length)

/-- `setkey "…"` (R100). -/
def setKey (b : Bytes) : List Event := wrbytes 0x00040 b ++ wr32 0x00018 (BitVec.ofNat 32 b.length)

/-- `setiv "…"` (R100). -/
def setIv (b : Bytes) : List Event := wrbytes 0x00060 b ++ wr32 0x0001C (BitVec.ofNat 32 b.length)

/-- The operand registers that `setbn` writes (R100). -/
inductive BnOperand where
  | a
  | b
  | c
  deriving DecidableEq, Repr

/-- The window of an operand register (R23). -/
def bnWindow : BnOperand → Nat
  | .a => 0x01000
  | .b => 0x01200
  | .c => 0x01400

/-- `setbn X, N` (R100). -/
def setBn (p : Params) (x : BnOperand) (n : Nat) : List Event :=
  wrbytes (bnWindow x) (toLE n p.bnBytes)

/-- `n` turns of the engine between two host accesses. -/
def engineTurns (n : Nat) : List Event := List.replicate n .engine

end Sys2Proof.Machine
end

