-- ==== Sys2Proof/Safety.lean ====
section
/-! DEFINITION. What claims say about a run: runs of engine steps, what a completion leaves in the
buffers, which results and contexts belong to a command, and the states a CCC can be in. -/

namespace Sys2Proof.Machine

/-- `n` engine steps of one command with nothing in between. -/
def execTimes (i : Instr) (n : Nat) (s : State) : Host.Outcome State Fault Refusal :=
  match n with
  | 0 => .next s
  | k + 1 =>
    match exec i s with
    | .next t => execTimes i k t
    | .fault r => .fault r
    | .refused r => .refused r

/-- The buffers of `u` after a completion from `s` with output `b` (R48, R325): `OUT_BUF` holds `b` and
nothing past it has a specified value; every other byte reads as before. -/
def bufferAfter (s u : State) (b : Bytes) : Prop :=
  ∀ a, Memory.read u.mem a =
    if outBase ≤ a ∧ a < outEnd then b[a - outBase]? else Memory.read s.mem a

/-- `u` is what a failed completion with error `e` leaves of `s` (R325): `BUSY`, `ERR`, `DONE`, `OUT_LEN`
and `OUT_BUF` written as the rule says, everything else as in `s`. -/
def failedFrom (s u : State) (e : CmdError) : Prop :=
  u = { s with engine := .idle, err := some e, done := true, outLen := 0, mem := u.mem } ∧
    bufferAfter s u []

/-- A host write on the port, as the next state of a step that makes it. -/
def hostWrite (a : Nat) (size : AccessSize) (w : Word32) (s : State) : State :=
  s.busAccess (.write (BitVec.ofNat 18 a) size w)

/-- A host read on the port. -/
def hostRead (a : Nat) (size : AccessSize) (s : State) : State :=
  s.busAccess (.read (BitVec.ofNat 18 a) size)

/-- Every result of a running command is one that command produces (R98), and its byte string fits
`OUT_BUF` (R80). -/
def resultFits (p : Params) : Instr → Result → Prop
  | .keyset c, .keyed sched => sched.cipher = c
  | .encb _, .output b => b.length ≤ p.bufBytes
  | .decb _, .output b => b.length ≤ p.bufBytes
  | .pad _ _, .output b => b.length ≤ p.bufBytes
  | .unpad _ _, .output b => b.length ≤ p.bufBytes
  | .sha256, .output b => b.length ≤ p.bufBytes
  | .isprime, .number _ => True
  | .genprime, .number _ => True
  | .primroot, .number _ => True
  | .genpriv, .number _ => True
  | .genpub, .number _ => True
  | .shared, .number _ => True
  | .modexp, .number _ => True
  | .genparams, .dhParams _ _ => True
  | .pfactors, .factors fs => (factorBytes p fs).length ≤ p.bufBytes
  | .kdf, .derivedKey k => k.length ≤ p.bufBytes
  | _, _ => False

/-- A mode command's job (R148 to R150): whole blocks, an index into them, a chaining variable of one
block where the mode has one, room for what is still to come, and the last report (`STATUS.PROGRESS`)
at the percentage of the blocks done. -/
structure jobFits (p : Params) (c : Cipher) (m : Mode) (job : ModeJob) (progress : BitVec 7) :
    Prop where
  nonempty : 0 < job.blocks.length
  whole : ∀ b ∈ job.blocks, b.length = blockSize c
  index : job.next ≤ job.blocks.length
  chain : m ≠ .ecb → job.chain.length = blockSize c
  room : job.out.length + (job.blocks.length - job.next) * blockSize c ≤ p.bufBytes
  fresh : job.next = 0 → job.last = none ∧ progress = 0
  reported : 0 < job.next →
    job.last = some (percent (job.next - 1) job.blocks.length) ∧
    progress = BitVec.ofNat 7 (percent (job.next - 1) job.blocks.length)

/-- The private progress of a running command is one its command can have (R44). -/
def ctxFits (s : State) (i : Instr) : Ctx → Prop
  | .start => True
  | .finish r => resultFits s.params i r
  | .candidates _ => i = .genprime ∨ i = .genparams
  | .rootSearch _ => i = .genparams
  | .blocks job =>
    ∃ c m q v, (i = .encrypt c m q v ∨ i = .decrypt c m q v) ∧ m ≠ .unknown ∧
      s.keyedFor c ≠ none ∧ jobFits s.params c m job s.progress

/-- The engine's context: at its start a command has reported nothing (R31); a word that has left its
start decodes to a command that its context fits (R44, R95). -/
def engineFits (s : State) : Prop :=
  match s.engine with
  | .idle => True
  | .running w ctx =>
    (ctx = .start ∧ s.progress = 0) ∨ (ctx ≠ .start ∧ ∃ i, decode w = .ok i ∧ ctxFits s i ctx)

/-- A state a CCC can be in: a legal build (R11), buffers in canonical form (R47, R48), big integers of
`BN_BITS` bits (R46), a percentage in `STATUS.PROGRESS` (R36), the flags of a running command as
acceptance left them (R31, R33, R35, R39), and a context that fits the command. -/
structure State.Ok (s : State) : Prop where
  legal : s.params.Legal
  memWf : Memory.wf s.mem = true
  memIn : Memory.inBuffers s.params s.mem = true
  bnA : s.bnA < 2 ^ s.params.bnBits
  bnB : s.bnB < 2 ^ s.params.bnBits
  bnC : s.bnC < 2 ^ s.params.bnBits
  bnR : s.bnR < 2 ^ s.params.bnBits
  bnS : s.bnS < 2 ^ s.params.bnBits
  percent : s.progress.toNat ≤ 100
  flags : s.busy = true → s.done = false ∧ s.err = none ∧ s.outLen = 0
  engine : engineFits s

end Sys2Proof.Machine
end

