-- ==== Sys2Proof/Certificates/Slice0/Obligations.lean ====
section
/-! DEFINITION. The statements for the provers. Each docstring names the rule of spec/ that the statement
comes from, or says that it rests on a choice or inference. -/

open Sys2Proof Sys2Proof.Machine

/-! ## Encoding (spec/30_encoding.md) -/

/-- Every well-formed command, with every field at every code, is what its word decodes to. -/
def Obligations.DecodeOfEncode : Prop :=
  ∀ i : Instr, i.wellFormed = true → decode (encode i) = .ok i

/-- Every word that decodes is the word of the command it decodes to: no bit of it is ignored. -/
def Obligations.EncodeOfDecode : Prop :=
  ∀ (w : Word32) (i : Instr), decode w = .ok i → i.wellFormed = true ∧ encode i = w

/-- Words written out from R91 decode to the commands they spell. -/
def Obligations.ListedWordsDecode : Prop :=
  decode 0x00000101 = .ok (.keyset .b) ∧ decode 0x00002105 = .ok (.unpad .b .ansiX923) ∧
  decode 0x00013906 = .ok (.encrypt .b .randomDelta .ansiX923 true) ∧
  decode 0x00004907 = .ok (.decrypt .b .pcbc .pkcs7 false) ∧
  decode 0x00000018 = .ok .modexp ∧ decode 0x00000021 = .ok .kdf

/-- The opcode map of R96 (match, mask, and whether the opcode uses `CIPHER`) together with the
`CIPHER` legality check accepts exactly the words that decode. -/
def Obligations.DecodableWordsAreTheOpcodeMap : Prop :=
  ∀ w : Word32, (∃ i, decode w = .ok i) ↔
    ∃ row ∈ ([(0x00000001, 0xFFFFFCFF, true), (0x00000002, 0xFFFFFCFF, true),
        (0x00000003, 0xFFFFFCFF, true), (0x00000004, 0xFFFF1CFF, true),
        (0x00000005, 0xFFFF1CFF, true), (0x00000006, 0xFFFE00FF, true),
        (0x00000007, 0xFFFE00FF, true), (0x00000010, 0xFFFFFFFF, false),
        (0x00000011, 0xFFFFFFFF, false), (0x00000012, 0xFFFFFFFF, false),
        (0x00000013, 0xFFFFFFFF, false), (0x00000014, 0xFFFFFFFF, false),
        (0x00000015, 0xFFFFFFFF, false), (0x00000016, 0xFFFFFFFF, false),
        (0x00000017, 0xFFFFFFFF, false), (0x00000018, 0xFFFFFFFF, false),
        (0x00000020, 0xFFFFFFFF, false), (0x00000021, 0xFFFFFFFF, false)] :
        List (Word32 × Word32 × Bool)),
      w &&& row.2.1 = row.1 ∧ (row.2.2 = true → (fieldCipher w).toNat < 2)

/-! ## Steps (spec/10_state.md, spec/20_memory.md) -/

/-- A step whose mover is the engine runs the decoded command: the step is one `exec` of it, after
the agenda's entry is taken (no entry, when the agenda is empty); with an idle engine only the entry is
taken. A step whose mover is a host access is that access on the port. The agenda, and that an empty one
lets the engine move, are the model's choice (log 1), and so is the idle engine's turn (log 10). -/
def Obligations.StepRunsTheDecodedCommand : Prop :=
  (∀ (s : State) (w : Word32) (ctx : Ctx) (i : Instr),
    s.engine = .running w ctx → decode w = .ok i →
    (s.agenda = [] ∨ s.agenda.head? = some .engine) →
    step s = exec i { s with agenda := s.agenda.tail }) ∧
  (∀ s : State, s.engine = .idle → (s.agenda = [] ∨ s.agenda.head? = some .engine) →
    step s = .next { s with agenda := s.agenda.tail }) ∧
  (∀ (s : State) (a : Access) (rest : List Event), s.agenda = .access a :: rest →
    step s = .next (State.busAccess a { s with agenda := rest }))

/-- A command word that does not decode completes with `IllegalCommand` and the effects of R325
only, in a step whose mover is the engine. The model's readings: an error ends the command in the step
that detects it (log 5), and an empty agenda lets the engine move (log 1). -/
def Obligations.IllegalWordCompletes : Prop :=
  ∀ (s : State) (w : Word32) (ctx : Ctx) (e : DecodeError),
    s.engine = .running w ctx → decode w = .error e →
    (s.agenda = [] ∨ s.agenda.head? = some .engine) →
    ∃ u, step s = .next u ∧ failedFrom { s with agenda := s.agenda.tail } u .illegalCommand

/-- No move of the host, the engine or `rst` stops the machine, in any state. Rests on the model's
choice of what a step is (log 1) and its reading that nothing the host may do is undefined (log
12). -/
def Obligations.StepNeverStops : Prop := ∀ s : State, ∃ t, step s = .next t

/-- Reset leaves a state the machine can be in. -/
def Obligations.ResetStateIsOk : Prop := State.reset.Ok

/-- The invariant of `State.Ok` is kept by every step from every state that has it. `State.Ok` is
the model's invariant. -/
def Obligations.EveryStepKeepsOk : Prop := ∀ s t : State, s.Ok → step s = .next t → t.Ok

/-- The values of R362 after a step with `rst` asserted, whatever the state and a running command;
`MR_ROUNDS` is the build's `MR_ROUNDS_RESET`, which is 40 in the build of R11. -/
def Obligations.ResetValues : Prop :=
  State.reset.mrRounds = 40 ∧
  ∀ (s : State) (rest : List Event), s.agenda = .rst :: rest → s.params.Legal →
    ∃ t, step s = .next t ∧
      t.ctrlWord = 0 ∧ t.statusWord = 0 ∧ t.cmd = 0 ∧ t.inLen = 0 ∧ t.outLen = 0 ∧ t.keyLen = 0 ∧
      t.ivLen = 0 ∧ t.pbits = 0 ∧ t.nfact = 0 ∧ t.mrRounds = s.params.mrRoundsReset ∧
      (∀ i : Fin 32, t.key.get i = 0) ∧ (∀ i : Fin 16, t.iv.get i = 0) ∧
      t.bnA = 0 ∧ t.bnB = 0 ∧ t.bnC = 0 ∧ t.bnR = 0 ∧ t.bnS = 0 ∧
      (∀ i < s.params.bufBytes, t.peek (inBase + i) = none ∧ t.peek (outBase + i) = none) ∧
      t.inst = none ∧ t.engine = .idle ∧ t.irq = false ∧
      (hostRead 0x00000 .four t).reply = some (.readOk 0x43430007) ∧
      (hostRead 0x0002C .four t).reply = some (.readOk (BitVec.ofNat 32 s.params.bnBits)) ∧
      (hostRead 0x00030 .four t).reply = some (.readOk (BitVec.ofNat 32 s.params.bufBytes)) ∧
      (∀ a, a < 0x40000 → locate s.params a = .reserved → t.peek a = some 0)

/-! ## The bus port (spec/20_memory.md) -/

/-- Which accesses the port answers `BUSERR`, and that such an access changes nothing (R64, R66, R67). -/
def Obligations.BusErrorExactlyWhenMisalignedOrNarrow : Prop :=
  ∀ (s : State) (addr : BitVec 18) (size : AccessSize) (w : Word32),
    let bad := addr.toNat % size.bytes ≠ 0 ∨ (addr.toNat < 0x40 ∧ size ≠ .four)
    (bad → s.busAccess (.read addr size) = { s with reply := some .busErr } ∧
      s.busAccess (.write addr size w) = { s with reply := some .busErr } ∧
      Reply.busErr.rdata = 0) ∧
    (¬bad → (s.busAccess (.read addr size)).reply ≠ some .busErr ∧
      (s.busAccess (.write addr size w)).reply = some .writeOk)

/-- Acceptance (R31): what a write of `w` to `CMD` does to an idle CCC, and that `CMD` reads `w` back. -/
def Obligations.AcceptanceEffect : Prop :=
  ∀ (s : State) (w : Word32), s.engine = .idle →
    hostWrite 0x0000C .four w s =
      { s with
        cmd := w, done := false, err := none, progress := 0, cancel := false, outLen := 0
        engine := .running w .start, reply := some .writeOk } ∧
    (hostWrite 0x0000C .four w s).busy = true ∧
    (hostRead 0x0000C .four (hostWrite 0x0000C .four w s)).reply = some (.readOk w)

/-- A write to `CMD` while a command runs only sets `DROP` (R32). -/
def Obligations.CmdWriteWhileBusyIsDropped : Prop :=
  ∀ (s : State) (w : Word32), s.busy = true →
    hostWrite 0x0000C .four w s = { s with drop := true, reply := some .writeOk }

/-- What a host write that answers `OK` does, location by location, but for `CMD` of an idle CCC
(`AcceptanceEffect`), the byte arrays of an idle CCC (`ArrayWritesReadBack`, `BigIntegerWrites`) and a
soft reset. While a command runs a write of an operand is dropped (R70); a write of a read-only or
reserved location changes nothing, busy or idle (R68; for the window bytes past a register while busy,
the model's reading of log 9); `CTRL` and `STATUS` writes take effect, busy or idle (R25, R29, R70); the
length and operand registers of an idle CCC take the written word (R38, R41 to R43). -/
def Obligations.HostWritesByLocation : Prop :=
  ∀ (s : State) (addr : BitVec 18) (size : AccessSize) (w : Word32),
    s.params.Legal → addr.toNat % size.bytes = 0 → (addr.toNat < 0x40 → size = .four) →
    let a := addr.toNat
    let t := s.busAccess (.write addr size w)
    let operand := a = 0x0C ∨ a = 0x10 ∨ a = 0x18 ∨ a = 0x1C ∨ a = 0x20 ∨ a = 0x24 ∨
      (0x40 ≤ a ∧ a < 0x70) ∨
      (0x1000 ≤ a ∧ a < 0x1000 + s.params.bnBytes) ∨
      (0x1200 ≤ a ∧ a < 0x1200 + s.params.bnBytes) ∨
      (0x1400 ≤ a ∧ a < 0x1400 + s.params.bnBytes) ∨
      (0x10000 ≤ a ∧ a < 0x10000 + s.params.bufBytes)
    (s.busy = true → operand → t = { s with drop := true, reply := some .writeOk }) ∧
    (¬operand → a ≠ 0x04 → a ≠ 0x08 → t = { s with reply := some .writeOk }) ∧
    (a = 0x04 → w.getLsbD 2 = false →
      t = { s with cancel := w.getLsbD 0, irqEn := w.getLsbD 1, reply := some .writeOk }) ∧
    (a = 0x08 → t =
      { s with
        done := s.done && !w.getLsbD 1, drop := s.drop && !w.getLsbD 2
        reply := some .writeOk }) ∧
    (s.busy = false →
      (a = 0x10 → t = { s with inLen := w, reply := some .writeOk }) ∧
      (a = 0x18 → t = { s with keyLen := w, reply := some .writeOk }) ∧
      (a = 0x1C → t = { s with ivLen := w, reply := some .writeOk }) ∧
      (a = 0x20 → t = { s with mrRounds := w, reply := some .writeOk }) ∧
      (a = 0x24 → t = { s with pbits := w, reply := some .writeOk }))

/-- A host read changes no register, no buffer byte and nothing of the engine (R69); only the
port's answer and the count of free values move. The port's answer and the count are the model's
own fields (log 3, log 11). -/
def Obligations.ReadsHaveNoSideEffect : Prop :=
  ∀ (s : State) (addr : BitVec 18) (size : AccessSize),
    ∃ r n, s.busAccess (.read addr size) = { s with reply := some r, freeCount := n }

/-- What a host read of each control register returns, while a command runs too: `STATUS` with its
fields at their bits (R29), the error codes of R321 and the cipher selector of R37; `CTRL` with `SRST`
and the reserved bits 0 (R25); `ID`, `CMD`, the length and operand registers, `PARAM_BN`, `PARAM_BUF`
and the reserved words (R23, R24, R31, R38 to R45). `KEYLEN` and `NFACT` read so but while a command that
writes them runs (R50, R71). -/
def Obligations.ControlRegistersReadTheirFields : Prop :=
  ∀ s : State,
    let reads (a : Nat) (v : Word32) : Prop := (hostRead a .four s).reply = some (.readOk v)
    (∃ v : Word32, reads 0x00008 v ∧
      v.getLsbD 0 = s.busy ∧ v.getLsbD 1 = s.done ∧ v.getLsbD 2 = s.drop ∧
      v.getLsbD 3 = s.inst.isSome ∧
      v.extractLsb' 4 2 = (match s.inst with
        | none => 0
        | some (.a _) => 0
        | some (.b _) => 1) ∧
      v.extractLsb' 6 2 = 0 ∧
      v.extractLsb' 8 8 = (match s.err with
        | none => 0
        | some .invalidKeySize => 1
        | some .weakKey => 2
        | some .invalidIvLength => 3
        | some .invalidBlockSize => 4
        | some .unsupportedMode => 5
        | some .padding => 6
        | some .dataLength => 7
        | some .invalidArgument => 8
        | some .notFound => 9
        | some .operationCancelled => 10
        | some .illegalCommand => 11
        | some .noKey => 12
        | some .capacity => 13) ∧
      v.extractLsb' 16 7 = s.progress ∧ v.extractLsb' 23 9 = 0) ∧
    (∃ v : Word32, reads 0x00004 v ∧
      v.getLsbD 0 = s.cancel ∧ v.getLsbD 1 = s.irqEn ∧ v.extractLsb' 2 30 = 0) ∧
    reads 0x00000 0x43430007 ∧ reads 0x0000C s.cmd ∧ reads 0x00010 s.inLen ∧
    reads 0x00014 s.outLen ∧ reads 0x0001C s.ivLen ∧ reads 0x00020 s.mrRounds ∧
    reads 0x00024 s.pbits ∧ reads 0x0002C (BitVec.ofNat 32 s.params.bnBits) ∧
    reads 0x00030 (BitVec.ofNat 32 s.params.bufBytes) ∧
    reads 0x00034 0 ∧ reads 0x00038 0 ∧ reads 0x0003C 0 ∧
    ((∀ w ctx, s.engine = .running w ctx → decode w ≠ .ok .kdf) → reads 0x00018 s.keyLen) ∧
    ((∀ w ctx, s.engine = .running w ctx → decode w ≠ .ok .pfactors) → reads 0x00028 s.nfact)

/-- A soft reset is a hardware reset (R361), and a command it ends never completes (R363): the two
leave the same state but for the agenda and the port's answer; `DONE` and `ERR` are 0, the engine
is idle, and no draw is undone. That a reset keeps the agenda, the answer and the free values is
the model's reading (log 18). -/
def Obligations.SoftResetIsHardReset : Prop :=
  ∀ (s t : State) (w : Word32) (rest : List Event),
    w.getLsbD 2 = true → s.agenda = .rst :: rest → step s = .next t →
    hostWrite 0x00004 .four w s = { t with agenda := s.agenda, reply := some .writeOk } ∧
    t.done = false ∧ t.err = none ∧ t.engine = .idle ∧ t.ctrlWord = 0 ∧ t.irq = false ∧
    t.entropy = s.entropy

/-- A write of 1, 2 or 4 bytes in `IN_BUF`, `KEY` or `IV` of an idle CCC (R41, R42, R47, R62): byte `k` of
the access becomes bits `8k+7 : 8k` of the data, every other byte stays, no other register changes, and a
read of the same size at the same address returns the bytes written. -/
def Obligations.ArrayWritesReadBack : Prop :=
  ∀ (s : State) (i : Nat) (size : AccessSize) (w : Word32),
    s.params.Legal → s.engine = .idle → i % size.bytes = 0 →
    let back := some (Reply.readOk (BitVec.ofNat 32 (w.toNat % 2 ^ (8 * size.bytes))))
    (i + size.bytes ≤ s.params.bufBytes →
      let t := hostWrite (inBase + i) size w s
      (hostRead (inBase + i) size t).reply = back ∧
      (∀ k < size.bytes, Memory.read t.mem (inBase + i + k) = some (w.extractLsb' (8 * k) 8)) ∧
      (∀ a, a < inBase + i ∨ inBase + i + size.bytes ≤ a →
        Memory.read t.mem a = Memory.read s.mem a) ∧
      t = { s with mem := t.mem, reply := some .writeOk }) ∧
    (i + size.bytes ≤ 32 →
      let t := hostWrite (0x40 + i) size w s
      (hostRead (0x40 + i) size t).reply = back ∧
      (∀ j : Fin 32, t.key.get j =
        if i ≤ j.val ∧ j.val < i + size.bytes then w.extractLsb' (8 * (j.val - i)) 8
        else s.key.get j) ∧
      t = { s with key := t.key, reply := some .writeOk }) ∧
    (i + size.bytes ≤ 16 →
      let t := hostWrite (0x60 + i) size w s
      (hostRead (0x60 + i) size t).reply = back ∧
      (∀ j : Fin 16, t.iv.get j =
        if i ≤ j.val ∧ j.val < i + size.bytes then w.extractLsb' (8 * (j.val - i)) 8
        else s.iv.get j) ∧
      t = { s with iv := t.iv, reply := some .writeOk })

/-- A write of 1, 2 or 4 bytes in the window of `BN_A`, `BN_B` or `BN_C` of an idle CCC (R46, R62): byte `k`
of the access becomes bits `8k+7 : 8k` of the data, every other byte of the natural stays, the natural
stays below `2^BN_BITS`, and no other register changes. -/
def Obligations.BigIntegerWrites : Prop :=
  ∀ (s : State) (i : Nat) (size : AccessSize) (w : Word32),
    s.params.Legal → s.engine = .idle → i % size.bytes = 0 → i + size.bytes ≤ s.params.bnBytes →
    let written (x y : Nat) : Prop := y < 2 ^ s.params.bnBits ∧ ∀ j, byteOfNat y j =
      if i ≤ j ∧ j < i + size.bytes then w.extractLsb' (8 * (j - i)) 8 else byteOfNat x j
    (s.bnA < 2 ^ s.params.bnBits →
      let t := hostWrite (0x1000 + i) size w s
      written s.bnA t.bnA ∧ t = { s with bnA := t.bnA, reply := some .writeOk }) ∧
    (s.bnB < 2 ^ s.params.bnBits →
      let t := hostWrite (0x1200 + i) size w s
      written s.bnB t.bnB ∧ t = { s with bnB := t.bnB, reply := some .writeOk }) ∧
    (s.bnC < 2 ^ s.params.bnBits →
      let t := hostWrite (0x1400 + i) size w s
      written s.bnC t.bnC ∧ t = { s with bnC := t.bnC, reply := some .writeOk })

/-- What a host read returns, byte by byte. While a command runs, a byte of its write set, as R50 lists it,
has no specified value, and every other byte is what the idle CCC shows at once (R71), but for the byte
of `STATUS` that holds `BUSY`. The bytes of `KEY`, `IV`, the five big integers and the two buffers stand
at their addresses, and a reserved byte reads 0 (R23, R41, R42, R46 to R48, R68); a read's bytes lie
little-endian in its data (R62). What a byte without a specified value reads as is free (log 3). -/
def Obligations.HostReadsByLocation : Prop :=
  ∀ s : State, s.params.Legal →
    (∀ (w : Word32) (ctx : Ctx) (i : Instr) (a : Nat),
      s.engine = .running w ctx → decode w = .ok i → a < 0x40000 →
      let out := 0x20000 ≤ a ∧ a < 0x20000 + s.params.bufBytes
      let bnR := 0x1600 ≤ a ∧ a < 0x1600 + s.params.bnBytes
      let bnS := 0x1800 ≤ a ∧ a < 0x1800 + s.params.bnBytes
      let writeSet : Prop := match i with
        | .keyset _ => False
        | .encb _ => out
        | .decb _ => out
        | .pad _ _ => out
        | .unpad _ _ => out
        | .encrypt _ _ _ _ => out
        | .decrypt _ _ _ _ => out
        | .sha256 => out
        | .pfactors => out ∨ (0x28 ≤ a ∧ a < 0x2C)
        | .isprime => bnR
        | .genprime => bnR
        | .primroot => bnR
        | .genpriv => bnR
        | .genpub => bnR
        | .shared => bnR
        | .modexp => bnR
        | .genparams => bnR ∨ bnS
        | .kdf => out ∨ (0x40 ≤ a ∧ a < 0x50) ∨ (0x18 ≤ a ∧ a < 0x1C)
      (writeSet → s.peek a = none) ∧
      (¬writeSet → a ≠ 0x08 → s.peek a = State.peek { s with engine := .idle } a)) ∧
    (s.engine = .idle →
      (∀ j : Fin 32, s.peek (0x40 + j.val) = some (s.key.get j)) ∧
      (∀ j : Fin 16, s.peek (0x60 + j.val) = some (s.iv.get j)) ∧
      (∀ j < s.params.bnBytes,
        s.peek (0x1000 + j) = some (byteOfNat s.bnA j) ∧
        s.peek (0x1200 + j) = some (byteOfNat s.bnB j) ∧
        s.peek (0x1400 + j) = some (byteOfNat s.bnC j) ∧
        s.peek (0x1600 + j) = some (byteOfNat s.bnR j) ∧
        s.peek (0x1800 + j) = some (byteOfNat s.bnS j)) ∧
      (∀ j < s.params.bufBytes,
        s.peek (0x10000 + j) = Memory.read s.mem (0x10000 + j) ∧
        s.peek (0x20000 + j) = Memory.read s.mem (0x20000 + j)) ∧
      (∀ j, s.params.bnBytes ≤ j → j < 0x200 →
        s.peek (0x1000 + j) = some 0 ∧ s.peek (0x1200 + j) = some 0 ∧
        s.peek (0x1400 + j) = some 0 ∧ s.peek (0x1600 + j) = some 0 ∧
        s.peek (0x1800 + j) = some 0) ∧
      (∀ j, s.params.bufBytes ≤ j → j < 0x10000 →
        s.peek (0x10000 + j) = some 0 ∧ s.peek (0x20000 + j) = some 0) ∧
      (∀ a, (0x34 ≤ a ∧ a < 0x40) ∨ (0x70 ≤ a ∧ a < 0x1000) ∨ (0x1A00 ≤ a ∧ a < 0x10000) ∨
        (0x30000 ≤ a ∧ a < 0x40000) → s.peek a = some 0)) ∧
    (∀ (addr : BitVec 18) (size : AccessSize),
      addr.toNat % size.bytes = 0 → (addr.toNat < 0x40 → size = .four) →
      ∃ b : Bytes, b.length = size.bytes ∧
        (s.busAccess (.read addr size)).reply = some (.readOk (BitVec.ofNat 32 (leNat b))) ∧
        ∀ (k : Nat) (x : Byte), k < size.bytes → s.peek (addr.toNat + k) = some x → b[k]? = some x)

/-! ## The life of a command (spec/10_state.md, spec/60_exceptions.md) -/

/-- `DONE` is set at the completion of every accepted command (R33): an engine step that ends a command
sets it, and the interrupt output then follows `IRQ_EN` (R336). -/
def Obligations.CompletionSetsDone : Prop :=
  ∀ s t : State, s.busy = true → engineStep s = .next t → t.busy = false →
    t.done = true ∧ t.irq = s.irqEn ∧ t.cmd = s.cmd

/-- What no engine step of any command writes (the last sentence of R50), and which command alone
writes the rest: the instance, `KEY`, `KEYLEN`, `BN_S`, `NFACT`. That results are written at
completion only is the model's reading (log 6). -/
def Obligations.EngineStepsKeepOperands : Prop :=
  ∀ (s t : State) (w : Word32) (ctx : Ctx) (i : Instr),
    s.engine = .running w ctx → decode w = .ok i → engineStep s = .next t →
    t.inLen = s.inLen ∧ t.iv = s.iv ∧ t.ivLen = s.ivLen ∧ t.bnA = s.bnA ∧ t.bnB = s.bnB ∧
    t.bnC = s.bnC ∧ t.mrRounds = s.mrRounds ∧ t.pbits = s.pbits ∧
    (∀ a, a < outBase → s.params.Legal → ctxFits s i ctx →
      Memory.read t.mem a = Memory.read s.mem a) ∧
    t.params = s.params ∧ t.irqEn = s.irqEn ∧ t.cancel = s.cancel ∧ t.drop = s.drop ∧
    t.cmd = s.cmd ∧ t.agenda = s.agenda ∧ t.reply = s.reply ∧
    ((∀ c, i ≠ .keyset c) → ctxFits s i ctx → t.inst = s.inst) ∧
    (i ≠ .kdf → ctxFits s i ctx → t.key = s.key ∧ t.keyLen = s.keyLen) ∧
    (i ≠ .genparams → ctxFits s i ctx → t.bnS = s.bnS) ∧
    (i ≠ .pfactors → ctxFits s i ctx → t.nfact = s.nfact)

/-- The instance changes only in an engine step of a running `KEYSET` or at a reset (R37, R79, R186). That
an empty agenda lets the engine move: log 1. What a reset leaves of the model's own fields: log 18. -/
def Obligations.InstanceChangesOnlyByKeysetOrReset : Prop :=
  ∀ s t : State, s.Ok → step s = .next t →
    t.inst = s.inst ∨
    ((s.agenda = [] ∨ s.agenda.head? = some .engine) ∧
      ∃ w ctx c, s.engine = .running w ctx ∧ decode w = .ok (.keyset c)) ∨
    t = { State.reset with
      params := s.params, mrRounds := s.params.mrRoundsReset, agenda := s.agenda.tail
      reply := t.reply, entropy := s.entropy, freeCount := s.freeCount }

/-- `STATUS.PROGRESS` is written only by `ENCRYPT` and `DECRYPT`, and never falls within one such command
(R36). -/
def Obligations.ProgressRisesOnlyInModeCommands : Prop :=
  ∀ (s t : State) (w : Word32) (ctx : Ctx), s.Ok → s.engine = .running w ctx →
    engineStep s = .next t →
    (t.progress ≠ s.progress →
      ∃ c m p v, decode w = .ok (.encrypt c m p v) ∨ decode w = .ok (.decrypt c m p v)) ∧
    (ctx ≠ .start → s.progress.toNat ≤ t.progress.toNat) ∧ t.progress.toNat ≤ 100

/-- `CTRL.CANCEL` is read by no command but `ENCRYPT` and `DECRYPT` (R26): two runs that differ only in it
stay equal but for it. -/
def Obligations.CancelIsInvisibleOutsideModeCommands : Prop :=
  ∀ (i : Instr) (s : State) (b : Bool),
    (∀ c m p v, i ≠ .encrypt c m p v ∧ i ≠ .decrypt c m p v) →
    ∃ t, exec i s = .next t ∧ exec i { s with cancel := b } = .next { t with cancel := b }

/-! ## Padding (spec/40_padding.md) -/

/-- The padded string of each scheme (R122 to R125), with `n` of R121; the ISO_10126 pad bytes are the next
`n - 1` draws, in that order; an unknown scheme raises `PaddingError` (R120). -/
def Obligations.PadAppendsTheSchemesBytes : Prop :=
  ∀ (d : Bytes) (bs : Nat) (e : Entropy), bs = 8 ∨ bs = 16 →
    let n := bs - d.length % bs
    (1 ≤ n ∧ n ≤ bs ∧ (d.length + n) % bs = 0 ∧ (n = bs ↔ d.length % bs = 0)) ∧
    pad d .zeros bs e = .ok (d ++ List.replicate n 0x00, e) ∧
    pad d .ansiX923 bs e = .ok (d ++ List.replicate (n - 1) 0x00 ++ [BitVec.ofNat 8 n], e) ∧
    pad d .pkcs7 bs e = .ok (d ++ List.replicate n (BitVec.ofNat 8 n), e) ∧
    pad d .iso10126 bs e =
      .ok (d ++ (e.drawBytes (n - 1)).1 ++ [BitVec.ofNat 8 n], (e.drawBytes (n - 1)).2) ∧
    (∀ (r : Bytes) (rest : List Nat), r.length = n - 1 → e.pending = r.map BitVec.toNat ++ rest →
      pad d .iso10126 bs e = .ok (d ++ r ++ [BitVec.ofNat 8 n], ⟨rest, e.drawn + (n - 1)⟩)) ∧
    ∀ code, pad d (.unknown code) bs e = .error .padding

/-- Unpadding undoes padding, for every draw (the round trip that R133 derives from R121 to R132); for
ZEROS exactly when the plaintext does not end in a zero byte. -/
def Obligations.UnpadUndoesPad : Prop :=
  ∀ (d out : Bytes) (p : PadScheme) (bs : Nat) (e e' : Entropy), bs = 8 ∨ bs = 16 →
    pad d p bs e = .ok (out, e') →
    (p ≠ .zeros → unpad out p bs = .ok d) ∧
    (p = .zeros → (unpad out p bs = .ok d ↔ d.getLast? ≠ some 0))

/-- Unpadding of any string (R126, R129 to R132). ZEROS strips every trailing zero byte and nothing else.
With a claimed length `n` in range, ANSI_X923 strips `n` bytes when all of them but the last are zero and
returns the buffer otherwise; ISO_10126 strips `n` bytes; PKCS7 strips when the last `n` bytes are all
`n`, returns the buffer when none of them but the last is, and raises `PaddingError` otherwise. With
none in range, and for the empty string, the three return the buffer. An unknown scheme raises. -/
def Obligations.UnpadOutcomes : Prop :=
  ∀ (d : Bytes) (bs : Nat), bs = 8 ∨ bs = 16 →
    (∃ (out : Bytes) (k : Nat), unpad d .zeros bs = .ok out ∧ d = out ++ List.replicate k 0 ∧
      out.getLast? ≠ some 0) ∧
    (∀ (q : Bytes) (b : Byte), d = q ++ [b] →
      (1 ≤ b.toNat ∧ b.toNat ≤ bs ∧ b.toNat ≤ d.length →
        let kept := d.take (d.length - b.toNat)
        let pre := q.drop (d.length - b.toNat)
        ((∀ x ∈ pre, x = 0) → unpad d .ansiX923 bs = .ok kept) ∧
        ((∃ x ∈ pre, x ≠ 0) → unpad d .ansiX923 bs = .ok d) ∧
        ((∀ x ∈ pre, x = b) → unpad d .pkcs7 bs = .ok kept) ∧
        ((∃ x ∈ pre, x ≠ b) → (∀ x ∈ pre, x ≠ b) → unpad d .pkcs7 bs = .ok d) ∧
        ((∃ x ∈ pre, x ≠ b) → (∃ x ∈ pre, x = b) → unpad d .pkcs7 bs = .error .padding) ∧
        unpad d .iso10126 bs = .ok kept) ∧
      (¬(1 ≤ b.toNat ∧ b.toNat ≤ bs ∧ b.toNat ≤ d.length) →
        unpad d .ansiX923 bs = .ok d ∧ unpad d .pkcs7 bs = .ok d ∧
        unpad d .iso10126 bs = .ok d)) ∧
    (d = [] → unpad d .ansiX923 bs = .ok d ∧ unpad d .pkcs7 bs = .ok d ∧
      unpad d .iso10126 bs = .ok d) ∧
    ∀ code, unpad d (.unknown code) bs = .error .padding

/-- `PAD` (R127), in check order: reserved scheme, input too long, output too long, and otherwise
one computation step and one completion step that leave the padded input in `OUT_BUF`. The model's
readings: an error ends the command in the step that detects it (log 5), results appear at
completion (log 6), `OUT_BUF` past `OUT_LEN` is unspecified (log 7). -/
def Obligations.PadCommand : Prop :=
  ∀ (s : State) (w : Word32) (c : Cipher) (p : PadScheme),
    s.params.Legal → s.engine = .running w .start →
    let bs := blockSize c
    let n := bs - s.inLen.toNat % bs
    ((∃ code, p = .unknown code) → ∃ u, exec (.pad c p) s = .next u ∧ failedFrom s u .padding) ∧
    ((∀ code, p ≠ .unknown code) → s.params.bufBytes < s.inLen.toNat →
      ∃ u, exec (.pad c p) s = .next u ∧ failedFrom s u .capacity) ∧
    ((∀ code, p ≠ .unknown code) → s.inLen.toNat ≤ s.params.bufBytes →
      s.params.bufBytes < s.inLen.toNat + n →
      ∃ u, exec (.pad c p) s = .next u ∧ failedFrom s.readInput u .capacity) ∧
    ((∀ code, p ≠ .unknown code) → s.inLen.toNat + n ≤ s.params.bufBytes →
      ∃ out e t u, pad s.input p bs s.entropy = .ok (out, e) ∧ out.length = s.inLen.toNat + n ∧
        exec (.pad c p) s = .next t ∧ exec (.pad c p) t = .next u ∧ bufferAfter s u out ∧
        u = { s.readInput with
          entropy := e, engine := .idle, err := none, done := true
          outLen := BitVec.ofNat 32 out.length, mem := u.mem })

/-- `UNPAD` (R128), in check order: reserved scheme, input too long, inconsistent PKCS7 padding,
and otherwise the unpadded input in `OUT_BUF`. The model's readings: an error ends the command in
the step that detects it (log 5), results appear at completion (log 6), `OUT_BUF` past `OUT_LEN`
is unspecified (log 7). -/
def Obligations.UnpadCommand : Prop :=
  ∀ (s : State) (w : Word32) (c : Cipher) (p : PadScheme),
    s.params.Legal → s.engine = .running w .start →
    ((∃ code, p = .unknown code) → ∃ u, exec (.unpad c p) s = .next u ∧ failedFrom s u .padding) ∧
    ((∀ code, p ≠ .unknown code) → s.params.bufBytes < s.inLen.toNat →
      ∃ u, exec (.unpad c p) s = .next u ∧ failedFrom s u .capacity) ∧
    ((∀ code, p ≠ .unknown code) → s.inLen.toNat ≤ s.params.bufBytes →
      unpad s.input p (blockSize c) = .error .padding →
      ∃ u, exec (.unpad c p) s = .next u ∧ failedFrom s.readInput u .padding) ∧
    (∀ out, s.inLen.toNat ≤ s.params.bufBytes → unpad s.input p (blockSize c) = .ok out →
      out.length ≤ s.inLen.toNat ∧
      ∃ t u, exec (.unpad c p) s = .next t ∧ exec (.unpad c p) t = .next u ∧ bufferAfter s u out ∧
        u = { s.readInput with
          engine := .idle, err := none, done := true
          outLen := BitVec.ofNat 32 out.length, mem := u.mem })

/-! ## The instance and single blocks (spec/42_block_commands.md to spec/44_spn.md) -/

/-- `KEYSET` (R185, R186): the length check, then the all-zero check, each leaving no instance;
otherwise the instance under the key's schedule. Cipher A's schedule (R210): 64 steps over the two
halves of the key, each a full encryption under the schedule as it stands, whose first three words are
XORed into entry `k mod 32`. Cipher B's (R236 to R238): the eight initial words, the 132 prekey words
and the 33 subkeys; a short key and its 32-byte extension give the same schedule (R242). The
model's readings: an error ends the command in the step that detects it (log 5), results appear at
completion (log 6), `OUT_BUF` past `OUT_LEN` is unspecified (log 7). -/
def Obligations.KeysetCommand : Prop :=
  (∀ (s : State) (w : Word32) (c : Cipher), s.engine = .running w .start →
    let n := s.keyLen.toNat
    let allowed := (c = .a ∧ n = 16) ∨ (c = .b ∧ (n = 16 ∨ n = 24 ∨ n = 32))
    let key := s.key.toList.take n
    (¬allowed → ∃ u, exec (.keyset c) s = .next u ∧
      failedFrom { s with inst := none } u .invalidKeySize) ∧
    (allowed → (∀ x ∈ key, x = 0) → ∃ u, exec (.keyset c) s = .next u ∧
      failedFrom { s with inst := none } u .weakKey) ∧
    (allowed → (∃ x ∈ key, x ≠ 0) → ∃ t u, exec (.keyset c) s = .next t ∧
      exec (.keyset c) t = .next u ∧ bufferAfter s u [] ∧
      u = { s with
        inst := some (match c with
          | .a => .a (keySchedA s.params.fe key)
          | .b => .b (keySchedB key))
        engine := .idle, err := none, done := true, outLen := 0, mem := u.mem })) ∧
  (∀ (fe : FeTables) (key : Bytes), key.length = 16 →
    ∃ (sched : Nat → Vector KeyA 32) (x : Nat → StateA),
      (∀ j : Fin 32, (sched 0).get j = ⟨0, 0, 0⟩) ∧
      (∀ k < 64,
        let before := if k % 32 = 0 then loadA (slice key (8 * (k / 32)) 8) else x k
        x (k + 1) = loadA (encA fe (sched k) (storeA before)) ∧
        ∀ j : Fin 32, (sched (k + 1)).get j =
          if j.val = k % 32 then
            ⟨((sched k).get j).k0 ^^^ (x (k + 1)).w0, ((sched k).get j).k1 ^^^ (x (k + 1)).w1,
              ((sched k).get j).k2 ^^^ (x (k + 1)).w2⟩
          else (sched k).get j) ∧
      keySchedA fe key = sched 64) ∧
  (∀ key : Bytes, key.length = 16 ∨ key.length = 24 ∨ key.length = 32 →
    let k := if key.length < 32 then key ++ [1] ++ List.replicate (31 - key.length) 0 else key
    (∃ pre : Nat → Word32,
      (∀ j < 8, pre j = word32LE (slice k (4 * j) 4)) ∧
      (∀ i < 132, pre (i + 8) =
        (pre i ^^^ pre (i + 3) ^^^ pre (i + 5) ^^^ pre (i + 7) ^^^ 0x9E3779B9 ^^^
          BitVec.ofNat 32 i).rotateLeft 11) ∧
      ∀ i : Fin 33, (keySchedB key).get i = applyBox (sboxB ((35 - i.val) % 8))
        ⟨pre (4 * i.val + 8), pre (4 * i.val + 9), pre (4 * i.val + 10), pre (4 * i.val + 11)⟩) ∧
    keySchedB k = keySchedB key)

/-- `ENCB` and `DECB` (R187, R188, R189), in check order: no instance of the named cipher, an
input that is not one block, and otherwise the block through `E` or `D` in `OUT_BUF`. The model's
readings: an error ends the command in the step that detects it (log 5), results appear at
completion (log 6), `OUT_BUF` past `OUT_LEN` is unspecified (log 7). -/
def Obligations.BlockCommands : Prop :=
  ∀ (s : State) (w : Word32) (c : Cipher), s.engine = .running w .start →
    ((∀ sched, s.inst = some sched → sched.cipher ≠ c) →
      (∃ u, exec (.encb c) s = .next u ∧ failedFrom s u .noKey) ∧
      (∃ u, exec (.decb c) s = .next u ∧ failedFrom s u .noKey)) ∧
    (∀ sched, s.inst = some sched → sched.cipher = c → s.inLen.toNat ≠ blockSize c →
      (∃ u, exec (.encb c) s = .next u ∧ failedFrom s u .invalidBlockSize) ∧
      (∃ u, exec (.decb c) s = .next u ∧ failedFrom s u .invalidBlockSize)) ∧
    (∀ sched, s.inst = some sched → sched.cipher = c → s.inLen.toNat = blockSize c →
      (∃ t u, exec (.encb c) s = .next t ∧ exec (.encb c) t = .next u ∧
        bufferAfter s u (sched.encBlock s.params.fe s.input) ∧
        u = { s.readInput with
          engine := .idle, err := none, done := true
          outLen := BitVec.ofNat 32 (blockSize c), mem := u.mem }) ∧
      (∃ t u, exec (.decb c) s = .next t ∧ exec (.decb c) t = .next u ∧
        bufferAfter s u (sched.decBlock s.params.fe s.input) ∧
        u = { s.readInput with
          engine := .idle, err := none, done := true
          outLen := BitVec.ofNat 32 (blockSize c), mem := u.mem }))

/-- Cipher A's block functions are inverse to each other for every schedule and every choice of the open
tables (what R208 derives from R205 to R207). -/
def Obligations.CipherABlockFunctionsInverse : Prop :=
  ∀ (fe : FeTables) (sched : Vector KeyA 32) (b : Bytes), b.length = 8 →
    decA fe sched (encA fe sched b) = b ∧ encA fe sched (decA fe sched b) = b

/-- Cipher B's block functions are inverse to each other for all subkeys (what R241 derives from R233,
R235, R239 and R240). -/
def Obligations.CipherBBlockFunctionsInverse : Prop :=
  ∀ (k : Vector Quad 33) (b : Bytes), b.length = 16 →
    decB k (encB k b) = b ∧ encB k (decB k b) = b

/-- The inverse S-boxes undo the S-boxes on whole words, and `ILT` undoes `LT`, both ways (what R233 and
R235 derive). -/
def Obligations.CipherBLayersInvert : Prop :=
  ∀ (k : Nat) (x : Quad), k < 8 →
    applyBox (invSboxB k) (applyBox (sboxB k) x) = x ∧
    applyBox (sboxB k) (applyBox (invSboxB k) x) = x ∧
    invLinearB (linearB x) = x ∧ linearB (invLinearB x) = x

/-! ## Modes (spec/41_modes.md) -/

/-- Decryption is the inverse of encryption in every mode, over any block functions that invert each other
(R140: "decrypt is the algebraic inverse using the same chaining variable"); CTR on strings of any
length (R159). -/
def Obligations.ChainDecInvertsChainEnc : Prop :=
  ∀ (m : Mode) (enc dec : BlockFn) (bs : Nat) (iv p : Bytes), m ≠ .unknown → 0 < bs →
    (∀ b : Bytes, b.length = bs →
      (enc b).length = bs ∧ (dec b).length = bs ∧ dec (enc b) = b) →
    (m ≠ .ecb → iv.length = bs) → (m ≠ .ctr → p.length % bs = 0) →
    chainDec m enc dec bs iv (chainEnc m enc bs iv p) = p

/-- The CTR counter (R158): block `i` of the encryption, short or whole, is its input XORed, over its own
length, with `E` of the big-endian string of `BE(iv) + i` modulo `2^(8·bs)`; block 0 uses the IV itself. -/
def Obligations.CtrBlocks : Prop :=
  ∀ (enc : BlockFn) (bs : Nat) (iv p : Bytes), 0 < bs →
    (∀ b : Bytes, b.length = bs → (enc b).length = bs) →
    (chainEnc .ctr enc bs iv p).length = p.length ∧
    ∀ i, i * bs < p.length →
      slice (chainEnc .ctr enc bs iv p) (i * bs) bs =
        xorBytes (slice p (i * bs) bs) (enc (toBE ((beNat iv + i) % 2 ^ (8 * bs)) bs))

/-- A message survives padding, chaining under any instance, unchaining and unpadding, for every mode,
every draw and every schedule (the round trip that R162 derives). -/
def Obligations.MessageRoundTrip : Prop :=
  ∀ (fe : FeTables) (sched : Schedule) (m : Mode) (p : PadScheme) (iv d padded : Bytes)
    (e e' : Entropy),
    let bs := blockSize sched.cipher
    m ≠ .unknown → (m ≠ .ecb → iv.length = bs) → pad d p bs e = .ok (padded, e') →
    (p = .zeros → d.getLast? ≠ some 0) →
    unpad (chainDec m (sched.encBlock fe) (sched.decBlock fe) bs iv
      (chainEnc m (sched.encBlock fe) bs iv padded)) p bs = .ok d

/-- `ENCRYPT` (R160) from its first engine step to its completion, with no cancellation requested:
one preparation step, one step per block, one final step (R149); the output is the generated IV,
if any, and the chained padded input; `PROGRESS` ends at 100. The model's readings: an error ends
the command in the step that detects it (log 5), results appear at completion (log 6), `OUT_BUF`
past `OUT_LEN` is unspecified (log 7). -/
def Obligations.EncryptRunsToCompletion : Prop :=
  ∀ (s : State) (w : Word32) (c : Cipher) (m : Mode) (p : PadScheme) (ivp : Bool)
    (sched : Schedule) (padded : Bytes) (e : Entropy),
    let bs := blockSize c
    let pre := if m ≠ .ecb ∧ ivp = false then bs else 0
    s.params.Legal → s.engine = .running w .start → s.cancel = false →
    s.inst = some sched → sched.cipher = c → m ≠ .unknown →
    (m ≠ .ecb → ivp = true → s.ivLen.toNat = bs) →
    pre + s.inLen.toNat + (bs - s.inLen.toNat % bs) ≤ s.params.bufBytes →
    pad s.input p bs s.entropy = .ok (padded, e) →
    let ivs := if m = .ecb then ([], e) else if ivp then (s.ivBytes bs, e) else e.drawBytes bs
    let out := (if m ≠ .ecb ∧ ivp = false then ivs.1 else []) ++
      chainEnc m (sched.encBlock s.params.fe) bs ivs.1 padded
    out.length = pre + s.inLen.toNat + (bs - s.inLen.toNat % bs) ∧
    ∃ t u, exec (.encrypt c m p ivp) s = .next t ∧
      execTimes (.encrypt c m p ivp) (padded.length / bs + 1) t = .next u ∧ bufferAfter s u out ∧
      u = { s.readInput with
        entropy := ivs.2, progress := 100, engine := .idle, err := none, done := true
        outLen := BitVec.ofNat 32 out.length, mem := u.mem }

/-- `DECRYPT` (R161) from its first engine step to its completion, with no cancellation requested,
on a ciphertext of whole blocks: the unpadded plaintext, or `PaddingError` at the final step. The
model's readings: an error ends the command in the step that detects it (log 5), results appear at
completion (log 6), `OUT_BUF` past `OUT_LEN` is unspecified (log 7). -/
def Obligations.DecryptRunsToCompletion : Prop :=
  ∀ (s : State) (w : Word32) (c : Cipher) (m : Mode) (p : PadScheme) (ivp : Bool)
    (sched : Schedule) (iv d : Bytes),
    let bs := blockSize c
    s.params.Legal → s.engine = .running w .start → s.cancel = false →
    s.inst = some sched → sched.cipher = c → m ≠ .unknown → (∀ code, p ≠ .unknown code) →
    (m ≠ .ecb → ivp = true → s.ivLen.toNat = bs) → s.inLen.toNat ≤ s.params.bufBytes →
    (if m = .ecb then iv = [] ∧ d = s.input
      else if ivp then iv = s.ivBytes bs ∧ d = s.input
      else bs ≤ s.input.length ∧ iv = s.input.take bs ∧ d = s.input.drop bs) →
    d ≠ [] → d.length % bs = 0 →
    let plain := chainDec m (sched.encBlock s.params.fe) (sched.decBlock s.params.fe) bs iv d
    ∃ t u, exec (.decrypt c m p ivp) s = .next t ∧
      execTimes (.decrypt c m p ivp) (d.length / bs + 1) t = .next u ∧
      match unpad plain p bs with
      | .ok out => bufferAfter s u out ∧ out.length ≤ d.length ∧
          u = { s.readInput with
            progress := 100, engine := .idle, err := none, done := true
            outLen := BitVec.ofNat 32 out.length, mem := u.mem }
      | .error err => err = .padding ∧ failedFrom { s.readInput with progress := 100 } u .padding

/-- The checks of `ENCRYPT` and `DECRYPT` in the order of R330: instance, mode, scheme, IV length,
input length (R141, R142, R189). Each ends the command in its first engine step. The model's
reading: an error ends the command in the step that detects it (log 5). -/
def Obligations.ModeCommandChecksInOrder : Prop :=
  ∀ (s : State) (w : Word32) (c : Cipher) (m : Mode) (p : PadScheme) (ivp : Bool) (i : Instr),
    s.engine = .running w .start → (i = .encrypt c m p ivp ∨ i = .decrypt c m p ivp) →
    let keyed := ∃ sched, s.inst = some sched ∧ sched.cipher = c
    let badIv := m ≠ .ecb ∧ ivp = true ∧ s.ivLen.toNat ≠ blockSize c
    (¬keyed → ∃ u, exec i s = .next u ∧ failedFrom s u .noKey) ∧
    (keyed → m = .unknown → ∃ u, exec i s = .next u ∧ failedFrom s u .unsupportedMode) ∧
    (keyed → m ≠ .unknown → (∃ code, p = .unknown code) →
      ∃ u, exec i s = .next u ∧ failedFrom s u .padding) ∧
    (keyed → m ≠ .unknown → (∀ code, p ≠ .unknown code) → badIv →
      ∃ u, exec i s = .next u ∧ failedFrom s u .invalidIvLength) ∧
    (keyed → m ≠ .unknown → (∀ code, p ≠ .unknown code) → ¬badIv →
      s.params.bufBytes < s.inLen.toNat → ∃ u, exec i s = .next u ∧ failedFrom s u .capacity)

/-- The length checks that follow those of R330's common part: `ENCRYPT`'s output length (R160)
and `DECRYPT`'s ciphertext length (R144, R145). The model's reading: an error ends the command in
the step that detects it (log 5). -/
def Obligations.ModeCommandLengthErrors : Prop :=
  ∀ (s : State) (w : Word32) (c : Cipher) (m : Mode) (p : PadScheme) (ivp : Bool)
    (sched : Schedule),
    let bs := blockSize c
    s.engine = .running w .start → s.inst = some sched → sched.cipher = c → m ≠ .unknown →
    (∀ code, p ≠ .unknown code) → (m ≠ .ecb → ivp = true → s.ivLen.toNat = bs) →
    s.inLen.toNat ≤ s.params.bufBytes →
    (s.params.bufBytes < (if m ≠ .ecb ∧ ivp = false then bs else 0) + s.inLen.toNat +
        (bs - s.inLen.toNat % bs) →
      ∃ u, exec (.encrypt c m p ivp) s = .next u ∧ failedFrom s.readInput u .capacity) ∧
    (m ≠ .ecb ∧ ivp = false ∧ s.inLen.toNat < 2 * bs →
      ∃ u, exec (.decrypt c m p ivp) s = .next u ∧ failedFrom s.readInput u .dataLength) ∧
    (s.inLen.toNat = 0 ∨ s.inLen.toNat % bs ≠ 0 →
      ∃ u, exec (.decrypt c m p ivp) s = .next u ∧ failedFrom s.readInput u .dataLength)

/-- The progress point (R150) after block `next` of a running `ENCRYPT` or `DECRYPT`: a percentage
that differs from the last report is written, and a cancellation request then ends the command
with `OperationCancelled` and that percentage; otherwise the command goes on with the next block.
The model's reading: an error ends the command in the step that detects it (log 5). -/
def Obligations.ProgressPointReportsAndCancels : Prop :=
  ∀ (s : State) (w : Word32) (c : Cipher) (m : Mode) (p : PadScheme) (ivp : Bool) (i : Instr)
    (job : ModeJob), s.engine = .running w (.blocks job) → job.next < job.blocks.length →
    (i = .encrypt c m p ivp ∨ i = .decrypt c m p ivp) →
    let pct := 100 * (job.next + 1) / job.blocks.length
    ∃ u, exec i s = .next u ∧
      (job.last ≠ some pct → s.cancel = true →
        failedFrom { s with progress := BitVec.ofNat 7 pct } u .operationCancelled) ∧
      (job.last ≠ some pct → s.cancel = false →
        ∃ job', u = { s with
            engine := .running w (.blocks job'), progress := BitVec.ofNat 7 pct } ∧
          job'.next = job.next + 1 ∧ job'.last = some pct ∧ job'.blocks = job.blocks ∧
          job'.ctr0 = job.ctr0 ∧ job.out <+: job'.out) ∧
      (job.last = some pct →
        ∃ job', u = { s with engine := .running w (.blocks job') } ∧
          job'.next = job.next + 1 ∧ job'.last = some pct ∧ job'.blocks = job.blocks ∧
          job'.ctr0 = job.ctr0 ∧ job.out <+: job'.out)

/-! ## Diffie-Hellman (spec/45_dh.md) -/

/-- `ModExp(b, e, m) = b^e mod m` for `m ≥ 1`, with `0^0 = 1` (R260). -/
def Obligations.ModExpIsPowerModulo : Prop :=
  ∀ b e m : Nat, 1 ≤ m → modExp b e m = b ^ e % m

/-- Every prime passes the tester, for every legal trial-division set, every number of rounds and every
draw (what R263 (a) derives); which sets are legal: log 21. -/
def Obligations.EveryPrimePassesTheTester : Prop :=
  ∀ (ps : List Nat) (n rounds : Nat) (e : Entropy), LegalPrimes ps → n.Prime →
    (isProbablyPrime ps n rounds e).1 = true

/-- The trial-division set of R262 is the primes below 100, and below `97²` the tester with it is exact, for
every number of rounds and every draw (what R263 (b) derives). -/
def Obligations.TesterIsExactBelow9409 : Prop :=
  (∀ q, q ∈ Config.smallPrimes ↔ q.Prime ∧ q < 100) ∧
  ∀ (n rounds : Nat) (e : Entropy), n < 9409 →
    ((isProbablyPrime Config.smallPrimes n rounds e).1 = true ↔ n.Prime)

/-- `PrimeFactors` (R265): empty below 2, otherwise the distinct prime factors in ascending order. -/
def Obligations.PrimeFactorsAreTheDistinctPrimeFactors : Prop :=
  (∀ n, n < 2 → primeFactors n = []) ∧
  ∀ n, 2 ≤ n → (primeFactors n).Pairwise (· < ·) ∧
    ∀ p, p ∈ primeFactors n ↔ p.Prime ∧ p ∣ n

/-- The search of R266 on every number: `InvalidArgument` where the tester refuses it, 1 for an accepted 2,
otherwise the least `g` from 2 on with `g^((p-1)/f) mod p ≠ 1` for every prime factor `f` of `p - 1`; only
the test draws. There always is one below `p`, for an accepted composite too, whose own prime factors
pass, so `NotFound` does not occur. For a true prime it is the least primitive root (what R266 derives):
the least `g ≥ 1` whose powers reach every residue prime to `p`, for every legal trial-division set (log
21). -/
def Obligations.PrimitiveRootSearchFindsTheLeast : Prop :=
  ∀ (ps : List Nat) (p rounds : Nat) (e : Entropy),
    let test := isProbablyPrime ps p rounds e
    let root (g : Nat) : Prop :=
      2 ≤ g ∧ g < p ∧ ∀ f, f.Prime → f ∣ p - 1 → g ^ ((p - 1) / f) % p ≠ 1
    (test.1 = false → findPrimitiveRoot ps p rounds e = (.error .invalidArgument, test.2)) ∧
    (test.1 = true → p = 2 → findPrimitiveRoot ps p rounds e = (.ok 1, test.2)) ∧
    (test.1 = true → p ≠ 2 →
      ∃ g, findPrimitiveRoot ps p rounds e = (.ok g, test.2) ∧ root g ∧ ∀ h < g, ¬root h) ∧
    (LegalPrimes ps → p.Prime →
      ∃ g, findPrimitiveRoot ps p rounds e = (.ok g, test.2) ∧ 1 ≤ g ∧ g < p ∧
        orderOf (g : ZMod p) = p - 1 ∧
        ∀ h, 1 ≤ h → h < g → orderOf (h : ZMod p) ≠ p - 1)

/-- `ISPRIME` (R270): the tester's answer in `BN_R`, 1 or 0. The model's readings: an error ends
the command in the step that detects it (log 5), results appear at completion (log 6), `OUT_BUF`
past `OUT_LEN` is unspecified (log 7). -/
def Obligations.IsprimeCommand : Prop :=
  ∀ (s : State) (w : Word32), s.params.Legal → s.engine = .running w .start →
    ∃ t u, exec .isprime s = .next t ∧ exec .isprime t = .next u ∧ bufferAfter s u [] ∧
      u = { s with
        bnR := if (isProbablyPrime s.params.smallPrimes s.bnA s.mrRounds.toNat s.entropy).1 then 1 else 0
        entropy := (isProbablyPrime s.params.smallPrimes s.bnA s.mrRounds.toNat s.entropy).2
        engine := .idle, err := none, done := true, outLen := 0, mem := u.mem }

/-- `GENPRIME` (R271, R264): the check on `PBITS`; then each candidate is an odd number of exactly
`PBITS` bits, one engine step each; an accepted one completes the command with it in `BN_R`, a
rejected one is followed by the next. The model's readings: an error ends the command in the step
that detects it (log 5), results appear at completion (log 6), `OUT_BUF` past `OUT_LEN` is
unspecified (log 7). The checks fall in the first candidate's step (log 16). -/
def Obligations.GenprimeCommand : Prop :=
  ∀ (s : State) (w : Word32), s.params.Legal →
    let bits := s.pbits.toNat
    let d := s.entropy.draw 0 (2 ^ bits - 1)
    let v := d.1 ||| 2 ^ (bits - 1) ||| 1
    let r := isProbablyPrime s.params.smallPrimes v s.mrRounds.toNat d.2
    (s.engine = .running w .start → bits < 8 →
      ∃ u, exec .genprime s = .next u ∧ failedFrom s u .invalidArgument) ∧
    (s.engine = .running w .start → 8 ≤ bits → s.params.bnBits < bits →
      ∃ u, exec .genprime s = .next u ∧ failedFrom s u .capacity) ∧
    (∀ k ctx, s.engine = .running w ctx →
      (k = 0 ∧ ctx = .start) ∨ ctx = .candidates k → 8 ≤ bits → bits ≤ s.params.bnBits →
      v % 2 = 1 ∧ 2 ^ (bits - 1) ≤ v ∧ v < 2 ^ bits ∧
      (r.1 = true → ∃ t u, exec .genprime s = .next t ∧ exec .genprime t = .next u ∧
        bufferAfter s u [] ∧
        u = { s with
          bnR := v, entropy := r.2, engine := .idle, err := none, done := true, outLen := 0
          mem := u.mem }) ∧
      (r.1 = false → exec .genprime s =
        .next { s with entropy := r.2, engine := .running w (.candidates (k + 1)) }))

/-- `GENPARAMS` (R274): the check on `PBITS`; candidates as for `GENPRIME`; then one step for the
root search, whose errors end the command, and the completion with `BN_R = p`, `BN_S = g`. The
model's readings: an error ends the command in the step that detects it (log 5), results appear at
completion (log 6), `OUT_BUF` past `OUT_LEN` is unspecified (log 7). The checks fall in the first
candidate's step (log 16). -/
def Obligations.GenparamsCommand : Prop :=
  ∀ (s : State) (w : Word32), s.params.Legal →
    let bits := s.pbits.toNat
    let r := tryCandidate s.params.smallPrimes bits s.mrRounds.toNat s.entropy
    (s.engine = .running w .start → bits < 8 →
      ∃ u, exec .genparams s = .next u ∧ failedFrom s u .invalidArgument) ∧
    (s.engine = .running w .start → 8 ≤ bits → s.params.bnBits < bits →
      ∃ u, exec .genparams s = .next u ∧ failedFrom s u .capacity) ∧
    (∀ k ctx, s.engine = .running w ctx →
      (k = 0 ∧ ctx = .start) ∨ ctx = .candidates k → 8 ≤ bits → bits ≤ s.params.bnBits →
      (r.1 = none → exec .genparams s =
        .next { s with entropy := r.2, engine := .running w (.candidates (k + 1)) }) ∧
      (∀ p g e, r.1 = some p → findPrimitiveRoot s.params.smallPrimes p s.mrRounds.toNat r.2 =
        (.ok g, e) →
        ∃ t t' u, exec .genparams s = .next t ∧ exec .genparams t = .next t' ∧
          exec .genparams t' = .next u ∧ bufferAfter s u [] ∧
          u = { s with
            bnR := p, bnS := g, entropy := e, engine := .idle, err := none, done := true
            outLen := 0, mem := u.mem }) ∧
      (∀ p err e, r.1 = some p → findPrimitiveRoot s.params.smallPrimes p s.mrRounds.toNat r.2 =
        (.error err, e) →
        ∃ t u, exec .genparams s = .next t ∧ exec .genparams t = .next u ∧
          failedFrom { s with entropy := e } u err))

/-- `PFACTORS` (R272): the factors as `BN_BYTES`-byte little-endian entries in `OUT_BUF`, their
number in `NFACT`; `Capacity` when they do not fit. The model's readings: an error ends the
command in the step that detects it (log 5), results appear at completion (log 6), `OUT_BUF` past
`OUT_LEN` is unspecified (log 7). -/
def Obligations.PfactorsCommand : Prop :=
  ∀ (s : State) (w : Word32), s.params.Legal → s.engine = .running w .start →
    let fs := primeFactors s.bnA
    (s.params.bufBytes < fs.length * (s.params.bnBits / 8) →
      ∃ u, exec .pfactors s = .next u ∧ failedFrom s u .capacity) ∧
    (fs.length * (s.params.bnBits / 8) ≤ s.params.bufBytes →
      ∃ out t u, exec .pfactors s = .next t ∧ exec .pfactors t = .next u ∧
        out.length = fs.length * (s.params.bnBits / 8) ∧
        (∀ k f, fs[k]? = some f →
          slice out (k * (s.params.bnBits / 8)) (s.params.bnBits / 8) =
            toLE f (s.params.bnBits / 8)) ∧
        bufferAfter s u out ∧
        u = { s with
          nfact := BitVec.ofNat 32 fs.length, engine := .idle, err := none, done := true
          outLen := BitVec.ofNat 32 out.length, mem := u.mem })

/-- `PRIMROOT` (R273): the root in `BN_R`, or the search's error; `PrimitiveRootSearchFindsTheLeast` says
what the search (R266) gives. The model's readings: an error
ends the command in the step that detects it (log 5), results appear at completion (log 6),
`OUT_BUF` past `OUT_LEN` is unspecified (log 7). -/
def Obligations.PrimrootCommand : Prop :=
  ∀ (s : State) (w : Word32) (e : Entropy), s.params.Legal → s.engine = .running w .start →
    s.bnA < 2 ^ s.params.bnBits →
    (∀ g, findPrimitiveRoot s.params.smallPrimes s.bnA s.mrRounds.toNat s.entropy = (.ok g, e) →
      ∃ t u, exec .primroot s = .next t ∧ exec .primroot t = .next u ∧ bufferAfter s u [] ∧
        u = { s with
          bnR := g, entropy := e, engine := .idle, err := none, done := true, outLen := 0
          mem := u.mem }) ∧
    (∀ err, findPrimitiveRoot s.params.smallPrimes s.bnA s.mrRounds.toNat s.entropy = (.error err, e) →
      (err = .invalidArgument ∨ err = .notFound) ∧
      ∃ u, exec .primroot s = .next u ∧ failedFrom { s with entropy := e } u err)

/-- `GENPRIV` (R275): `InvalidArgument` below 4, otherwise a number of `[2, p - 2]`, one draw. The
model's readings: an error ends the command in the step that detects it (log 5), results appear at
completion (log 6), `OUT_BUF` past `OUT_LEN` is unspecified (log 7). -/
def Obligations.GenprivCommand : Prop :=
  ∀ (s : State) (w : Word32), s.engine = .running w .start → s.bnA < 2 ^ s.params.bnBits →
    (s.bnA < 4 → ∃ u, exec .genpriv s = .next u ∧ failedFrom s u .invalidArgument) ∧
    (4 ≤ s.bnA → ∃ v t u, exec .genpriv s = .next t ∧ exec .genpriv t = .next u ∧
      v = (s.entropy.draw 2 (s.bnA - 2)).1 ∧ 2 ≤ v ∧ v ≤ s.bnA - 2 ∧ bufferAfter s u [] ∧
      u = { s with
        bnR := v, entropy := ⟨s.entropy.pending.tail, s.entropy.drawn + 1⟩
        engine := .idle, err := none, done := true, outLen := 0, mem := u.mem })

/-- `GENPUB`, `SHARED` and `MODEXP` (R276 to R278): `InvalidArgument` for modulus 0, otherwise
`BN_B ^ BN_C mod BN_A` in `BN_R`. The model's readings: an error ends the command in the step that
detects it (log 5), results appear at completion (log 6), `OUT_BUF` past `OUT_LEN` is unspecified
(log 7). -/
def Obligations.ExponentiationCommands : Prop :=
  ∀ (s : State) (w : Word32) (i : Instr), i = .genpub ∨ i = .shared ∨ i = .modexp →
    s.engine = .running w .start → s.bnA < 2 ^ s.params.bnBits →
    (s.bnA = 0 → ∃ u, exec i s = .next u ∧ failedFrom s u .invalidArgument) ∧
    (s.bnA ≠ 0 → ∃ t u, exec i s = .next t ∧ exec i t = .next u ∧ bufferAfter s u [] ∧
      u = { s with
        bnR := s.bnB ^ s.bnC % s.bnA, engine := .idle, err := none, done := true, outLen := 0
        mem := u.mem })

/-- Both sides of an exchange compute the same secret (what R269 derives): `SHARED` on the other side's
`GENPUB` result, for all parameters and private keys. -/
def Obligations.SharedSecretsAgree : Prop :=
  ∀ (s : State) (w : Word32) (p g a b : Nat), s.engine = .running w .start → 2 ≤ p →
    p < 2 ^ s.params.bnBits →
    ∃ pubA pubB secA secB,
      execTimes .genpub 2 { s with bnA := p, bnB := g, bnC := a } = .next pubA ∧
      execTimes .genpub 2 { s with bnA := p, bnB := g, bnC := b } = .next pubB ∧
      execTimes .shared 2 { s with bnA := p, bnB := pubB.bnR, bnC := a } = .next secA ∧
      execTimes .shared 2 { s with bnA := p, bnB := pubA.bnR, bnC := b } = .next secB ∧
      secA.bnR = secB.bnR ∧ secA.bnR = g ^ (a * b) % p

/-! ## SHA-256 and the key derivation (spec/46_kdf.md) -/

/-- `minBE` (R301): the big-endian string of the number, of `ceil(bitlen/8)` bytes, with no leading zero
byte, empty for 0. -/
def Obligations.MinBEIsMinimal : Prop :=
  ∀ x : Nat, beNat (minBE x) = x ∧ (minBE x).head? ≠ some 0 ∧ minBE 0 = [] ∧
    (x ≠ 0 → (minBE x).length = (Nat.log2 x + 1 + 7) / 8)

/-- The padded message of R302: the message, the byte 0x80, `k` zero bytes and the length in bits, where
`k` is the least count that makes whole 64-byte chunks. -/
def Obligations.Sha256PaddingIsLeast : Prop :=
  ∀ m : Bytes, ∃ k,
    sha256Pad m = m ++ [0x80] ++ List.replicate k 0x00 ++ toBE (8 * m.length) 8 ∧
    (m.length + 1 + k + 8) % 64 = 0 ∧ ∀ j < k, (m.length + 1 + j + 8) % 64 ≠ 0

/-- `SHA256` (R304): `Capacity` for an input longer than the buffer, otherwise the 32-byte digest
of the input in `OUT_BUF`. The model's readings: an error ends the command in the step that
detects it (log 5), results appear at completion (log 6), `OUT_BUF` past `OUT_LEN` is unspecified
(log 7). -/
def Obligations.Sha256Command : Prop :=
  ∀ (s : State) (w : Word32), s.engine = .running w .start →
    (s.params.bufBytes < s.inLen.toNat →
      ∃ u, exec .sha256 s = .next u ∧ failedFrom s u .capacity) ∧
    (s.inLen.toNat ≤ s.params.bufBytes →
      (sha256 s.input).length = 32 ∧
      ∃ t u, exec .sha256 s = .next t ∧ exec .sha256 t = .next u ∧
        bufferAfter s u (sha256 s.input) ∧
        u = { s.readInput with
          engine := .idle, err := none, done := true, outLen := 32, mem := u.mem })

/-- `KDF` (R305, R306): the first 16 bytes of the digest of `minBE(BN_A)` in `OUT_BUF` and in
`KEY[0..16)`, `KEYLEN = 16`, `KEY[16..32)` and the instance unchanged, nothing drawn. The model's
readings: an error ends the command in the step that detects it (log 5), results appear at
completion (log 6), `OUT_BUF` past `OUT_LEN` is unspecified (log 7). -/
def Obligations.KdfCommand : Prop :=
  ∀ (s : State) (w : Word32), s.engine = .running w .start →
    let k := (sha256 (minBE s.bnA)).take 16
    k.length = 16 ∧
    ∃ t u, exec .kdf s = .next t ∧ exec .kdf t = .next u ∧ bufferAfter s u k ∧
      u.key.toList = k ++ s.key.toList.drop 16 ∧
      u = { s with
        key := u.key, keyLen := 16, engine := .idle, err := none, done := true, outLen := 16
        mem := u.mem }
end

