-- ==== Sys2Proof/Laws/Memory.lean ====
section
/-! SUPPORT. What the memory operations do, said once: what a byte reads as after each, and that each
keeps the canonical form. -/

namespace Sys2Proof.Machine.Memory

@[simp] theorem read_nil (a : Nat) : read [] a = none := rfl

@[simp] theorem read_cons (c : Host.Cell) (m : List Host.Cell) (a : Nat) :
    read (c :: m) a = if c.1 = a then some c.2 else read m a := rfl

@[simp] theorem cells_nil (a : Nat) : cells a [] = [] := rfl

@[simp] theorem cells_cons (a : Nat) (x : Byte) (b : Bytes) :
    cells a (x :: b) = (a, x) :: cells (a + 1) b := rfl

theorem read_append (m k : List Host.Cell) (a : Nat) :
    read (m ++ k) a = (read m a).or (read k a) := by
  induction m with
  | nil => simp
  | cons c m ih => by_cases h : c.1 = a <;> simp [h, ih]

/-- Reading a filtered memory: what the filter keeps of that address. -/
theorem read_filter (m : List Host.Cell) (p : Nat → Bool) (a : Nat) :
    read (m.filter fun c => p c.1) a = if p a then read m a else none := by
  induction m with
  | nil => simp
  | cons c m ih =>
    by_cases hc : c.1 = a
    · subst hc
      by_cases hp : p c.1 <;> simp [hp, ih]
    · by_cases hp : p c.1 <;> simp [hp, hc, ih]

/-- Reading a stored byte string: the byte at that offset. -/
theorem read_cells (b : Bytes) (a x : Nat) :
    read (cells a b) x = if a ≤ x then b[x - a]? else none := by
  induction b generalizing a with
  | nil => simp
  | cons y b ih =>
    rw [cells_cons, read_cons, ih]
    rcases Nat.lt_trichotomy a x with h | h | h
    · obtain ⟨k, rfl⟩ : ∃ k, x = a + (k + 1) := ⟨x - a - 1, by omega⟩
      have h1 : a + (k + 1) - a = k + 1 := by omega
      have h2 : a + (k + 1) - (a + 1) = k := by omega
      simp [h1, h2, show a + 1 ≤ a + (k + 1) by omega]
    · subst h; simp
    · simp [show a ≠ x by omega, show ¬a + 1 ≤ x by omega, show ¬a ≤ x by omega]

/-- A read after a store: the stored byte inside the stored range, the old byte outside it. -/
theorem read_store (m : List Host.Cell) (a : Nat) (b : Bytes) (x : Nat) :
    read (store m a b) x =
      if a ≤ x ∧ x < a + b.length then b[x - a]? else read m x := by
  unfold store
  rw [read_append, read_append, read_filter m (fun y => decide (y < a)),
    read_filter m (fun y => decide (a + b.length ≤ y)), read_cells]
  by_cases h1 : a ≤ x
  · by_cases h2 : x < a + b.length
    · simp [h1, h2, show x - a < b.length by omega, show ¬x < a by omega]
    · have h3 : b[x - a]? = none := List.getElem?_eq_none (by omega)
      simp [h1, h2, h3, show ¬x < a by omega, show a + b.length ≤ x by omega]
  · simp [h1, show x < a by omega, show ¬a + b.length ≤ x by omega]

/-- A read after bytes were made unspecified. -/
theorem read_forget (m : List Host.Cell) (lo hi x : Nat) :
    read (forget m lo hi) x = if lo ≤ x ∧ x < hi then none else read m x := by
  unfold forget
  rw [read_filter m (fun y => decide (y < lo) || decide (hi ≤ y))]
  by_cases h1 : lo ≤ x <;> by_cases h2 : x < hi <;>
    simp [h1, h2, show (x < lo) = ¬(lo ≤ x) by simp, show (hi ≤ x) = ¬(x < hi) by simp]

/-- The canonical form as a pairwise order. -/
theorem wf_iff (m : List Host.Cell) : wf m = true ↔ m.Pairwise fun c d => c.1 < d.1 := by
  induction m with
  | nil => simp [wf]
  | cons c m ih =>
    cases m with
    | nil => simp [wf]
    | cons d m =>
      rw [wf, Bool.and_eq_true, decide_eq_true_iff, ih, List.pairwise_cons (a := c)]
      constructor
      · rintro ⟨h, hp⟩
        refine ⟨fun e he => ?_, hp⟩
        rcases List.mem_cons.mp he with rfl | he
        · exact h
        · exact h.trans (List.rel_of_pairwise_cons hp he)
      · rintro ⟨h, hp⟩
        exact ⟨h d (by simp), hp⟩

theorem mem_cells {b : Bytes} {a : Nat} {c : Host.Cell} (h : c ∈ cells a b) :
    a ≤ c.1 ∧ c.1 < a + b.length := by
  induction b generalizing a with
  | nil => simp at h
  | cons x b ih =>
    rcases List.mem_cons.mp h with rfl | h
    · simp
    · have := ih h
      simp only [List.length_cons]
      omega

theorem pairwise_cells (b : Bytes) (a : Nat) :
    (cells a b).Pairwise fun c d : Host.Cell => c.1 < d.1 := by
  induction b generalizing a with
  | nil => simp
  | cons x b ih => exact List.pairwise_cons.mpr ⟨fun c hc => by have := mem_cells hc; omega, ih _⟩

/-- A store keeps the canonical form. -/
theorem wf_store {m : List Host.Cell} (a : Nat) (b : Bytes) (h : wf m = true) :
    wf (store m a b) = true := by
  rw [wf_iff] at h ⊢
  unfold store
  refine List.pairwise_append.mpr ⟨List.pairwise_append.mpr ⟨h.filter _, pairwise_cells b a, ?_⟩,
    h.filter _, ?_⟩
  · intro c hc d hd
    have h1 := (List.mem_filter.mp hc).2
    have h2 := mem_cells hd
    simp only [decide_eq_true_eq] at h1
    omega
  · intro c hc d hd
    have h2 := (List.mem_filter.mp hd).2
    simp only [decide_eq_true_eq] at h2
    rcases List.mem_append.mp hc with hc | hc
    · have h1 := (List.mem_filter.mp hc).2
      simp only [decide_eq_true_eq] at h1
      omega
    · have h1 := mem_cells hc
      omega

/-- Making bytes unspecified keeps the canonical form. -/
theorem wf_forget {m : List Host.Cell} (lo hi : Nat) (h : wf m = true) :
    wf (forget m lo hi) = true := by
  rw [wf_iff] at h ⊢
  exact h.filter _

/-- The canonical form at reset. -/
theorem wf_reset : wf State.reset.mem = true := rfl

/-- Making bytes unspecified lists nothing new. -/
theorem inBuffers_forget {p : Params} {m : List Host.Cell} (lo hi : Nat)
    (h : inBuffers p m = true) : inBuffers p (forget m lo hi) = true := by
  simp only [inBuffers, List.all_eq_true] at h ⊢
  exact fun c hc => h c (List.mem_filter.mp hc).1

/-- A store inside one of the buffers lists only bytes of the buffers. -/
theorem inBuffers_store {p : Params} {m : List Host.Cell} {a : Nat} {b : Bytes}
    (h : inBuffers p m = true)
    (hb : (inBase ≤ a ∧ a + b.length ≤ inBase + p.bufBytes) ∨
      (outBase ≤ a ∧ a + b.length ≤ outBase + p.bufBytes)) :
    inBuffers p (store m a b) = true := by
  simp only [inBuffers, List.all_eq_true] at h ⊢
  intro c hc
  unfold store at hc
  rcases List.mem_append.mp hc with hc | hc
  · rcases List.mem_append.mp hc with hc | hc
    · exact h c (List.mem_filter.mp hc).1
    · have := mem_cells hc
      simp only [Bool.or_eq_true, Bool.and_eq_true, decide_eq_true_eq]
      omega
  · exact h c (List.mem_filter.mp hc).1

/-- Where a completed command's output ends up, and what it leaves of the rest (R48). -/
theorem read_outputMem (s : State) (b : Bytes) (hb : b.length ≤ outEnd - outBase) (x : Nat) :
    read (s.outputMem b) x =
      if outBase ≤ x ∧ x < outEnd then b[x - outBase]? else read s.mem x := by
  unfold State.outputMem
  rw [read_store, read_forget]
  have ho : outBase = 0x20000 := rfl
  have he : outEnd = 0x30000 := rfl
  by_cases h1 : outBase ≤ x ∧ x < outBase + b.length
  · rw [if_pos h1, if_pos (by omega)]
  · rw [if_neg h1]
    by_cases h2 : outBase ≤ x ∧ x < outEnd
    · rw [if_pos h2, if_pos h2, List.getElem?_eq_none (by omega)]
    · rw [if_neg h2, if_neg h2]

end Sys2Proof.Machine.Memory
end

