-- ==== Sys2Proof/Laws/State.lean ====
section
/-! SUPPORT. One lemma per field per update of the state, so that no later proof unfolds a record
update. -/

namespace Sys2Proof.Machine

/-! ## Acceptance (R31) -/

@[simp] theorem State.accept_params (s : State) (w : Word32) : (s.accept w).params = s.params := rfl
@[simp] theorem State.accept_cancel (s : State) (w : Word32) : (s.accept w).cancel = false := rfl
@[simp] theorem State.accept_irqEn (s : State) (w : Word32) : (s.accept w).irqEn = s.irqEn := rfl
@[simp] theorem State.accept_done (s : State) (w : Word32) : (s.accept w).done = false := rfl
@[simp] theorem State.accept_drop (s : State) (w : Word32) : (s.accept w).drop = s.drop := rfl
@[simp] theorem State.accept_err (s : State) (w : Word32) : (s.accept w).err = none := rfl
@[simp] theorem State.accept_progress (s : State) (w : Word32) : (s.accept w).progress = 0 := rfl
@[simp] theorem State.accept_cmd (s : State) (w : Word32) : (s.accept w).cmd = w := rfl
@[simp] theorem State.accept_inLen (s : State) (w : Word32) : (s.accept w).inLen = s.inLen := rfl
@[simp] theorem State.accept_outLen (s : State) (w : Word32) : (s.accept w).outLen = 0 := rfl
@[simp] theorem State.accept_keyLen (s : State) (w : Word32) : (s.accept w).keyLen = s.keyLen := rfl
@[simp] theorem State.accept_ivLen (s : State) (w : Word32) : (s.accept w).ivLen = s.ivLen := rfl
@[simp] theorem State.accept_mrRounds (s : State) (w : Word32) :
    (s.accept w).mrRounds = s.mrRounds := rfl
@[simp] theorem State.accept_pbits (s : State) (w : Word32) : (s.accept w).pbits = s.pbits := rfl
@[simp] theorem State.accept_nfact (s : State) (w : Word32) : (s.accept w).nfact = s.nfact := rfl
@[simp] theorem State.accept_key (s : State) (w : Word32) : (s.accept w).key = s.key := rfl
@[simp] theorem State.accept_iv (s : State) (w : Word32) : (s.accept w).iv = s.iv := rfl
@[simp] theorem State.accept_bnA (s : State) (w : Word32) : (s.accept w).bnA = s.bnA := rfl
@[simp] theorem State.accept_bnB (s : State) (w : Word32) : (s.accept w).bnB = s.bnB := rfl
@[simp] theorem State.accept_bnC (s : State) (w : Word32) : (s.accept w).bnC = s.bnC := rfl
@[simp] theorem State.accept_bnR (s : State) (w : Word32) : (s.accept w).bnR = s.bnR := rfl
@[simp] theorem State.accept_bnS (s : State) (w : Word32) : (s.accept w).bnS = s.bnS := rfl
@[simp] theorem State.accept_mem (s : State) (w : Word32) : (s.accept w).mem = s.mem := rfl
@[simp] theorem State.accept_inst (s : State) (w : Word32) : (s.accept w).inst = s.inst := rfl
@[simp] theorem State.accept_engine (s : State) (w : Word32) :
    (s.accept w).engine = .running w .start := rfl
@[simp] theorem State.accept_agenda (s : State) (w : Word32) : (s.accept w).agenda = s.agenda := rfl
@[simp] theorem State.accept_reply (s : State) (w : Word32) : (s.accept w).reply = s.reply := rfl
@[simp] theorem State.accept_entropy (s : State) (w : Word32) :
    (s.accept w).entropy = s.entropy := rfl
@[simp] theorem State.accept_freeCount (s : State) (w : Word32) :
    (s.accept w).freeCount = s.freeCount := rfl

/-! ## Output (R48) -/

@[simp] theorem State.writeOutput_params (s : State) (b : Bytes) :
    (s.writeOutput b).params = s.params := rfl
@[simp] theorem State.writeOutput_cancel (s : State) (b : Bytes) :
    (s.writeOutput b).cancel = s.cancel := rfl
@[simp] theorem State.writeOutput_irqEn (s : State) (b : Bytes) :
    (s.writeOutput b).irqEn = s.irqEn := rfl
@[simp] theorem State.writeOutput_done (s : State) (b : Bytes) :
    (s.writeOutput b).done = s.done := rfl
@[simp] theorem State.writeOutput_drop (s : State) (b : Bytes) :
    (s.writeOutput b).drop = s.drop := rfl
@[simp] theorem State.writeOutput_err (s : State) (b : Bytes) : (s.writeOutput b).err = s.err := rfl
@[simp] theorem State.writeOutput_progress (s : State) (b : Bytes) :
    (s.writeOutput b).progress = s.progress := rfl
@[simp] theorem State.writeOutput_cmd (s : State) (b : Bytes) : (s.writeOutput b).cmd = s.cmd := rfl
@[simp] theorem State.writeOutput_inLen (s : State) (b : Bytes) :
    (s.writeOutput b).inLen = s.inLen := rfl
@[simp] theorem State.writeOutput_outLen (s : State) (b : Bytes) :
    (s.writeOutput b).outLen = BitVec.ofNat 32 b.length := rfl
@[simp] theorem State.writeOutput_keyLen (s : State) (b : Bytes) :
    (s.writeOutput b).keyLen = s.keyLen := rfl
@[simp] theorem State.writeOutput_ivLen (s : State) (b : Bytes) :
    (s.writeOutput b).ivLen = s.ivLen := rfl
@[simp] theorem State.writeOutput_mrRounds (s : State) (b : Bytes) :
    (s.writeOutput b).mrRounds = s.mrRounds := rfl
@[simp] theorem State.writeOutput_pbits (s : State) (b : Bytes) :
    (s.writeOutput b).pbits = s.pbits := rfl
@[simp] theorem State.writeOutput_nfact (s : State) (b : Bytes) :
    (s.writeOutput b).nfact = s.nfact := rfl
@[simp] theorem State.writeOutput_key (s : State) (b : Bytes) : (s.writeOutput b).key = s.key := rfl
@[simp] theorem State.writeOutput_iv (s : State) (b : Bytes) : (s.writeOutput b).iv = s.iv := rfl
@[simp] theorem State.writeOutput_bnA (s : State) (b : Bytes) : (s.writeOutput b).bnA = s.bnA := rfl
@[simp] theorem State.writeOutput_bnB (s : State) (b : Bytes) : (s.writeOutput b).bnB = s.bnB := rfl
@[simp] theorem State.writeOutput_bnC (s : State) (b : Bytes) : (s.writeOutput b).bnC = s.bnC := rfl
@[simp] theorem State.writeOutput_bnR (s : State) (b : Bytes) : (s.writeOutput b).bnR = s.bnR := rfl
@[simp] theorem State.writeOutput_bnS (s : State) (b : Bytes) : (s.writeOutput b).bnS = s.bnS := rfl
@[simp] theorem State.writeOutput_mem (s : State) (b : Bytes) :
    (s.writeOutput b).mem = s.outputMem b := rfl
@[simp] theorem State.writeOutput_inst (s : State) (b : Bytes) :
    (s.writeOutput b).inst = s.inst := rfl
@[simp] theorem State.writeOutput_engine (s : State) (b : Bytes) :
    (s.writeOutput b).engine = s.engine := rfl
@[simp] theorem State.writeOutput_agenda (s : State) (b : Bytes) :
    (s.writeOutput b).agenda = s.agenda := rfl
@[simp] theorem State.writeOutput_reply (s : State) (b : Bytes) :
    (s.writeOutput b).reply = s.reply := rfl
@[simp] theorem State.writeOutput_entropy (s : State) (b : Bytes) :
    (s.writeOutput b).entropy = s.entropy := rfl
@[simp] theorem State.writeOutput_freeCount (s : State) (b : Bytes) :
    (s.writeOutput b).freeCount = s.freeCount := rfl

/-! ## Failed completion (R325) -/

@[simp] theorem State.fail_params (s : State) (e : CmdError) : (s.fail e).params = s.params := rfl
@[simp] theorem State.fail_cancel (s : State) (e : CmdError) : (s.fail e).cancel = s.cancel := rfl
@[simp] theorem State.fail_irqEn (s : State) (e : CmdError) : (s.fail e).irqEn = s.irqEn := rfl
@[simp] theorem State.fail_done (s : State) (e : CmdError) : (s.fail e).done = true := rfl
@[simp] theorem State.fail_drop (s : State) (e : CmdError) : (s.fail e).drop = s.drop := rfl
@[simp] theorem State.fail_err (s : State) (e : CmdError) : (s.fail e).err = some e := rfl
@[simp] theorem State.fail_progress (s : State) (e : CmdError) :
    (s.fail e).progress = s.progress := rfl
@[simp] theorem State.fail_cmd (s : State) (e : CmdError) : (s.fail e).cmd = s.cmd := rfl
@[simp] theorem State.fail_inLen (s : State) (e : CmdError) : (s.fail e).inLen = s.inLen := rfl
@[simp] theorem State.fail_outLen (s : State) (e : CmdError) : (s.fail e).outLen = 0 := rfl
@[simp] theorem State.fail_keyLen (s : State) (e : CmdError) : (s.fail e).keyLen = s.keyLen := rfl
@[simp] theorem State.fail_ivLen (s : State) (e : CmdError) : (s.fail e).ivLen = s.ivLen := rfl
@[simp] theorem State.fail_mrRounds (s : State) (e : CmdError) :
    (s.fail e).mrRounds = s.mrRounds := rfl
@[simp] theorem State.fail_pbits (s : State) (e : CmdError) : (s.fail e).pbits = s.pbits := rfl
@[simp] theorem State.fail_nfact (s : State) (e : CmdError) : (s.fail e).nfact = s.nfact := rfl
@[simp] theorem State.fail_key (s : State) (e : CmdError) : (s.fail e).key = s.key := rfl
@[simp] theorem State.fail_iv (s : State) (e : CmdError) : (s.fail e).iv = s.iv := rfl
@[simp] theorem State.fail_bnA (s : State) (e : CmdError) : (s.fail e).bnA = s.bnA := rfl
@[simp] theorem State.fail_bnB (s : State) (e : CmdError) : (s.fail e).bnB = s.bnB := rfl
@[simp] theorem State.fail_bnC (s : State) (e : CmdError) : (s.fail e).bnC = s.bnC := rfl
@[simp] theorem State.fail_bnR (s : State) (e : CmdError) : (s.fail e).bnR = s.bnR := rfl
@[simp] theorem State.fail_bnS (s : State) (e : CmdError) : (s.fail e).bnS = s.bnS := rfl
@[simp] theorem State.fail_mem (s : State) (e : CmdError) :
    (s.fail e).mem = Memory.forget s.mem outBase outEnd := rfl
@[simp] theorem State.fail_inst (s : State) (e : CmdError) : (s.fail e).inst = s.inst := rfl
@[simp] theorem State.fail_engine (s : State) (e : CmdError) : (s.fail e).engine = .idle := rfl
@[simp] theorem State.fail_agenda (s : State) (e : CmdError) : (s.fail e).agenda = s.agenda := rfl
@[simp] theorem State.fail_reply (s : State) (e : CmdError) : (s.fail e).reply = s.reply := rfl
@[simp] theorem State.fail_entropy (s : State) (e : CmdError) :
    (s.fail e).entropy = s.entropy := rfl
@[simp] theorem State.fail_freeCount (s : State) (e : CmdError) :
    (s.fail e).freeCount = s.freeCount := rfl

/-! ## Acknowledgement (R29, R327) -/

@[simp] theorem State.acknowledge_params (s : State) (w : Word32) :
    (s.acknowledge w).params = s.params := rfl
@[simp] theorem State.acknowledge_cancel (s : State) (w : Word32) :
    (s.acknowledge w).cancel = s.cancel := rfl
@[simp] theorem State.acknowledge_irqEn (s : State) (w : Word32) :
    (s.acknowledge w).irqEn = s.irqEn := rfl
@[simp] theorem State.acknowledge_done (s : State) (w : Word32) :
    (s.acknowledge w).done = (s.done && !w.getLsbD 1) := rfl
@[simp] theorem State.acknowledge_drop (s : State) (w : Word32) :
    (s.acknowledge w).drop = (s.drop && !w.getLsbD 2) := rfl
@[simp] theorem State.acknowledge_err (s : State) (w : Word32) :
    (s.acknowledge w).err = s.err := rfl
@[simp] theorem State.acknowledge_progress (s : State) (w : Word32) :
    (s.acknowledge w).progress = s.progress := rfl
@[simp] theorem State.acknowledge_cmd (s : State) (w : Word32) :
    (s.acknowledge w).cmd = s.cmd := rfl
@[simp] theorem State.acknowledge_inLen (s : State) (w : Word32) :
    (s.acknowledge w).inLen = s.inLen := rfl
@[simp] theorem State.acknowledge_outLen (s : State) (w : Word32) :
    (s.acknowledge w).outLen = s.outLen := rfl
@[simp] theorem State.acknowledge_keyLen (s : State) (w : Word32) :
    (s.acknowledge w).keyLen = s.keyLen := rfl
@[simp] theorem State.acknowledge_ivLen (s : State) (w : Word32) :
    (s.acknowledge w).ivLen = s.ivLen := rfl
@[simp] theorem State.acknowledge_mrRounds (s : State) (w : Word32) :
    (s.acknowledge w).mrRounds = s.mrRounds := rfl
@[simp] theorem State.acknowledge_pbits (s : State) (w : Word32) :
    (s.acknowledge w).pbits = s.pbits := rfl
@[simp] theorem State.acknowledge_nfact (s : State) (w : Word32) :
    (s.acknowledge w).nfact = s.nfact := rfl
@[simp] theorem State.acknowledge_key (s : State) (w : Word32) :
    (s.acknowledge w).key = s.key := rfl
@[simp] theorem State.acknowledge_iv (s : State) (w : Word32) : (s.acknowledge w).iv = s.iv := rfl
@[simp] theorem State.acknowledge_bnA (s : State) (w : Word32) :
    (s.acknowledge w).bnA = s.bnA := rfl
@[simp] theorem State.acknowledge_bnB (s : State) (w : Word32) :
    (s.acknowledge w).bnB = s.bnB := rfl
@[simp] theorem State.acknowledge_bnC (s : State) (w : Word32) :
    (s.acknowledge w).bnC = s.bnC := rfl
@[simp] theorem State.acknowledge_bnR (s : State) (w : Word32) :
    (s.acknowledge w).bnR = s.bnR := rfl
@[simp] theorem State.acknowledge_bnS (s : State) (w : Word32) :
    (s.acknowledge w).bnS = s.bnS := rfl
@[simp] theorem State.acknowledge_mem (s : State) (w : Word32) :
    (s.acknowledge w).mem = s.mem := rfl
@[simp] theorem State.acknowledge_inst (s : State) (w : Word32) :
    (s.acknowledge w).inst = s.inst := rfl
@[simp] theorem State.acknowledge_engine (s : State) (w : Word32) :
    (s.acknowledge w).engine = s.engine := rfl
@[simp] theorem State.acknowledge_agenda (s : State) (w : Word32) :
    (s.acknowledge w).agenda = s.agenda := rfl
@[simp] theorem State.acknowledge_reply (s : State) (w : Word32) :
    (s.acknowledge w).reply = s.reply := rfl
@[simp] theorem State.acknowledge_entropy (s : State) (w : Word32) :
    (s.acknowledge w).entropy = s.entropy := rfl
@[simp] theorem State.acknowledge_freeCount (s : State) (w : Word32) :
    (s.acknowledge w).freeCount = s.freeCount := rfl

/-! ## Reset (R362) -/

@[simp] theorem State.doReset_params (s : State) : (s.doReset).params = s.params := rfl
@[simp] theorem State.doReset_cancel (s : State) : (s.doReset).cancel = false := rfl
@[simp] theorem State.doReset_irqEn (s : State) : (s.doReset).irqEn = false := rfl
@[simp] theorem State.doReset_done (s : State) : (s.doReset).done = false := rfl
@[simp] theorem State.doReset_drop (s : State) : (s.doReset).drop = false := rfl
@[simp] theorem State.doReset_err (s : State) : (s.doReset).err = none := rfl
@[simp] theorem State.doReset_progress (s : State) : (s.doReset).progress = 0 := rfl
@[simp] theorem State.doReset_cmd (s : State) : (s.doReset).cmd = 0 := rfl
@[simp] theorem State.doReset_inLen (s : State) : (s.doReset).inLen = 0 := rfl
@[simp] theorem State.doReset_outLen (s : State) : (s.doReset).outLen = 0 := rfl
@[simp] theorem State.doReset_keyLen (s : State) : (s.doReset).keyLen = 0 := rfl
@[simp] theorem State.doReset_ivLen (s : State) : (s.doReset).ivLen = 0 := rfl
@[simp] theorem State.doReset_mrRounds (s : State) :
    (s.doReset).mrRounds = s.params.mrRoundsReset := rfl
@[simp] theorem State.doReset_pbits (s : State) : (s.doReset).pbits = 0 := rfl
@[simp] theorem State.doReset_nfact (s : State) : (s.doReset).nfact = 0 := rfl
@[simp] theorem State.doReset_key (s : State) : (s.doReset).key = Vector.replicate 32 0 := rfl
@[simp] theorem State.doReset_iv (s : State) : (s.doReset).iv = Vector.replicate 16 0 := rfl
@[simp] theorem State.doReset_bnA (s : State) : (s.doReset).bnA = 0 := rfl
@[simp] theorem State.doReset_bnB (s : State) : (s.doReset).bnB = 0 := rfl
@[simp] theorem State.doReset_bnC (s : State) : (s.doReset).bnC = 0 := rfl
@[simp] theorem State.doReset_bnR (s : State) : (s.doReset).bnR = 0 := rfl
@[simp] theorem State.doReset_bnS (s : State) : (s.doReset).bnS = 0 := rfl
@[simp] theorem State.doReset_mem (s : State) : (s.doReset).mem = [] := rfl
@[simp] theorem State.doReset_inst (s : State) : (s.doReset).inst = none := rfl
@[simp] theorem State.doReset_engine (s : State) : (s.doReset).engine = .idle := rfl
@[simp] theorem State.doReset_agenda (s : State) : (s.doReset).agenda = s.agenda := rfl
@[simp] theorem State.doReset_reply (s : State) : (s.doReset).reply = s.reply := rfl
@[simp] theorem State.doReset_entropy (s : State) : (s.doReset).entropy = s.entropy := rfl
@[simp] theorem State.doReset_freeCount (s : State) : (s.doReset).freeCount = s.freeCount := rfl

/-! ## Reading the input -/

@[simp] theorem State.readInput_params (s : State) : (s.readInput).params = s.params := rfl
@[simp] theorem State.readInput_cancel (s : State) : (s.readInput).cancel = s.cancel := rfl
@[simp] theorem State.readInput_irqEn (s : State) : (s.readInput).irqEn = s.irqEn := rfl
@[simp] theorem State.readInput_done (s : State) : (s.readInput).done = s.done := rfl
@[simp] theorem State.readInput_drop (s : State) : (s.readInput).drop = s.drop := rfl
@[simp] theorem State.readInput_err (s : State) : (s.readInput).err = s.err := rfl
@[simp] theorem State.readInput_progress (s : State) : (s.readInput).progress = s.progress := rfl
@[simp] theorem State.readInput_cmd (s : State) : (s.readInput).cmd = s.cmd := rfl
@[simp] theorem State.readInput_inLen (s : State) : (s.readInput).inLen = s.inLen := rfl
@[simp] theorem State.readInput_outLen (s : State) : (s.readInput).outLen = s.outLen := rfl
@[simp] theorem State.readInput_keyLen (s : State) : (s.readInput).keyLen = s.keyLen := rfl
@[simp] theorem State.readInput_ivLen (s : State) : (s.readInput).ivLen = s.ivLen := rfl
@[simp] theorem State.readInput_mrRounds (s : State) : (s.readInput).mrRounds = s.mrRounds := rfl
@[simp] theorem State.readInput_pbits (s : State) : (s.readInput).pbits = s.pbits := rfl
@[simp] theorem State.readInput_nfact (s : State) : (s.readInput).nfact = s.nfact := rfl
@[simp] theorem State.readInput_key (s : State) : (s.readInput).key = s.key := rfl
@[simp] theorem State.readInput_iv (s : State) : (s.readInput).iv = s.iv := rfl
@[simp] theorem State.readInput_bnA (s : State) : (s.readInput).bnA = s.bnA := rfl
@[simp] theorem State.readInput_bnB (s : State) : (s.readInput).bnB = s.bnB := rfl
@[simp] theorem State.readInput_bnC (s : State) : (s.readInput).bnC = s.bnC := rfl
@[simp] theorem State.readInput_bnR (s : State) : (s.readInput).bnR = s.bnR := rfl
@[simp] theorem State.readInput_bnS (s : State) : (s.readInput).bnS = s.bnS := rfl
@[simp] theorem State.readInput_mem (s : State) : (s.readInput).mem = s.mem := rfl
@[simp] theorem State.readInput_inst (s : State) : (s.readInput).inst = s.inst := rfl
@[simp] theorem State.readInput_engine (s : State) : (s.readInput).engine = s.engine := rfl
@[simp] theorem State.readInput_agenda (s : State) : (s.readInput).agenda = s.agenda := rfl
@[simp] theorem State.readInput_reply (s : State) : (s.readInput).reply = s.reply := rfl
@[simp] theorem State.readInput_entropy (s : State) : (s.readInput).entropy = s.entropy := rfl
@[simp] theorem State.readInput_freeCount (s : State) :
    (s.readInput).freeCount = (resolve (s.inputCells s.inLen.toNat) s.freeCount).2 := rfl

/-! ## Moving the engine on: every field but the engine -/

@[simp] theorem State.setCtx_params (s : State) (c : Ctx) :
    (s.setCtx c).params = s.params := by unfold State.setCtx; split <;> rfl
@[simp] theorem State.setCtx_cancel (s : State) (c : Ctx) :
    (s.setCtx c).cancel = s.cancel := by unfold State.setCtx; split <;> rfl
@[simp] theorem State.setCtx_irqEn (s : State) (c : Ctx) :
    (s.setCtx c).irqEn = s.irqEn := by unfold State.setCtx; split <;> rfl
@[simp] theorem State.setCtx_done (s : State) (c : Ctx) :
    (s.setCtx c).done = s.done := by unfold State.setCtx; split <;> rfl
@[simp] theorem State.setCtx_drop (s : State) (c : Ctx) :
    (s.setCtx c).drop = s.drop := by unfold State.setCtx; split <;> rfl
@[simp] theorem State.setCtx_err (s : State) (c : Ctx) :
    (s.setCtx c).err = s.err := by unfold State.setCtx; split <;> rfl
@[simp] theorem State.setCtx_progress (s : State) (c : Ctx) :
    (s.setCtx c).progress = s.progress := by unfold State.setCtx; split <;> rfl
@[simp] theorem State.setCtx_cmd (s : State) (c : Ctx) :
    (s.setCtx c).cmd = s.cmd := by unfold State.setCtx; split <;> rfl
@[simp] theorem State.setCtx_inLen (s : State) (c : Ctx) :
    (s.setCtx c).inLen = s.inLen := by unfold State.setCtx; split <;> rfl
@[simp] theorem State.setCtx_outLen (s : State) (c : Ctx) :
    (s.setCtx c).outLen = s.outLen := by unfold State.setCtx; split <;> rfl
@[simp] theorem State.setCtx_keyLen (s : State) (c : Ctx) :
    (s.setCtx c).keyLen = s.keyLen := by unfold State.setCtx; split <;> rfl
@[simp] theorem State.setCtx_ivLen (s : State) (c : Ctx) :
    (s.setCtx c).ivLen = s.ivLen := by unfold State.setCtx; split <;> rfl
@[simp] theorem State.setCtx_mrRounds (s : State) (c : Ctx) :
    (s.setCtx c).mrRounds = s.mrRounds := by unfold State.setCtx; split <;> rfl
@[simp] theorem State.setCtx_pbits (s : State) (c : Ctx) :
    (s.setCtx c).pbits = s.pbits := by unfold State.setCtx; split <;> rfl
@[simp] theorem State.setCtx_nfact (s : State) (c : Ctx) :
    (s.setCtx c).nfact = s.nfact := by unfold State.setCtx; split <;> rfl
@[simp] theorem State.setCtx_key (s : State) (c : Ctx) :
    (s.setCtx c).key = s.key := by unfold State.setCtx; split <;> rfl
@[simp] theorem State.setCtx_iv (s : State) (c : Ctx) :
    (s.setCtx c).iv = s.iv := by unfold State.setCtx; split <;> rfl
@[simp] theorem State.setCtx_bnA (s : State) (c : Ctx) :
    (s.setCtx c).bnA = s.bnA := by unfold State.setCtx; split <;> rfl
@[simp] theorem State.setCtx_bnB (s : State) (c : Ctx) :
    (s.setCtx c).bnB = s.bnB := by unfold State.setCtx; split <;> rfl
@[simp] theorem State.setCtx_bnC (s : State) (c : Ctx) :
    (s.setCtx c).bnC = s.bnC := by unfold State.setCtx; split <;> rfl
@[simp] theorem State.setCtx_bnR (s : State) (c : Ctx) :
    (s.setCtx c).bnR = s.bnR := by unfold State.setCtx; split <;> rfl
@[simp] theorem State.setCtx_bnS (s : State) (c : Ctx) :
    (s.setCtx c).bnS = s.bnS := by unfold State.setCtx; split <;> rfl
@[simp] theorem State.setCtx_mem (s : State) (c : Ctx) :
    (s.setCtx c).mem = s.mem := by unfold State.setCtx; split <;> rfl
@[simp] theorem State.setCtx_inst (s : State) (c : Ctx) :
    (s.setCtx c).inst = s.inst := by unfold State.setCtx; split <;> rfl
@[simp] theorem State.setCtx_agenda (s : State) (c : Ctx) :
    (s.setCtx c).agenda = s.agenda := by unfold State.setCtx; split <;> rfl
@[simp] theorem State.setCtx_reply (s : State) (c : Ctx) :
    (s.setCtx c).reply = s.reply := by unfold State.setCtx; split <;> rfl
@[simp] theorem State.setCtx_entropy (s : State) (c : Ctx) :
    (s.setCtx c).entropy = s.entropy := by unfold State.setCtx; split <;> rfl
@[simp] theorem State.setCtx_freeCount (s : State) (c : Ctx) :
    (s.setCtx c).freeCount = s.freeCount := by unfold State.setCtx; split <;> rfl

/-! ## Result writes (R324): what no result changes -/

@[simp] theorem State.writeResult_params (s : State) (r : Result) :
    (s.writeResult r).params = s.params := by cases r <;> rfl
@[simp] theorem State.writeResult_cancel (s : State) (r : Result) :
    (s.writeResult r).cancel = s.cancel := by cases r <;> rfl
@[simp] theorem State.writeResult_irqEn (s : State) (r : Result) :
    (s.writeResult r).irqEn = s.irqEn := by cases r <;> rfl
@[simp] theorem State.writeResult_done (s : State) (r : Result) :
    (s.writeResult r).done = s.done := by cases r <;> rfl
@[simp] theorem State.writeResult_drop (s : State) (r : Result) :
    (s.writeResult r).drop = s.drop := by cases r <;> rfl
@[simp] theorem State.writeResult_err (s : State) (r : Result) :
    (s.writeResult r).err = s.err := by cases r <;> rfl
@[simp] theorem State.writeResult_progress (s : State) (r : Result) :
    (s.writeResult r).progress = s.progress := by cases r <;> rfl
@[simp] theorem State.writeResult_cmd (s : State) (r : Result) :
    (s.writeResult r).cmd = s.cmd := by cases r <;> rfl
@[simp] theorem State.writeResult_inLen (s : State) (r : Result) :
    (s.writeResult r).inLen = s.inLen := by cases r <;> rfl
@[simp] theorem State.writeResult_ivLen (s : State) (r : Result) :
    (s.writeResult r).ivLen = s.ivLen := by cases r <;> rfl
@[simp] theorem State.writeResult_mrRounds (s : State) (r : Result) :
    (s.writeResult r).mrRounds = s.mrRounds := by cases r <;> rfl
@[simp] theorem State.writeResult_pbits (s : State) (r : Result) :
    (s.writeResult r).pbits = s.pbits := by cases r <;> rfl
@[simp] theorem State.writeResult_iv (s : State) (r : Result) :
    (s.writeResult r).iv = s.iv := by cases r <;> rfl
@[simp] theorem State.writeResult_bnA (s : State) (r : Result) :
    (s.writeResult r).bnA = s.bnA := by cases r <;> rfl
@[simp] theorem State.writeResult_bnB (s : State) (r : Result) :
    (s.writeResult r).bnB = s.bnB := by cases r <;> rfl
@[simp] theorem State.writeResult_bnC (s : State) (r : Result) :
    (s.writeResult r).bnC = s.bnC := by cases r <;> rfl
@[simp] theorem State.writeResult_engine (s : State) (r : Result) :
    (s.writeResult r).engine = s.engine := by cases r <;> rfl
@[simp] theorem State.writeResult_agenda (s : State) (r : Result) :
    (s.writeResult r).agenda = s.agenda := by cases r <;> rfl
@[simp] theorem State.writeResult_reply (s : State) (r : Result) :
    (s.writeResult r).reply = s.reply := by cases r <;> rfl
@[simp] theorem State.writeResult_entropy (s : State) (r : Result) :
    (s.writeResult r).entropy = s.entropy := by cases r <;> rfl
@[simp] theorem State.writeResult_freeCount (s : State) (r : Result) :
    (s.writeResult r).freeCount = s.freeCount := by cases r <;> rfl

/-! ## Successful completion (R324) -/

@[simp] theorem State.succeed_params (s : State) (r : Result) :
    (s.succeed r).params = s.params := by cases r <;> rfl
@[simp] theorem State.succeed_cancel (s : State) (r : Result) :
    (s.succeed r).cancel = s.cancel := by cases r <;> rfl
@[simp] theorem State.succeed_irqEn (s : State) (r : Result) :
    (s.succeed r).irqEn = s.irqEn := by cases r <;> rfl
@[simp] theorem State.succeed_done (s : State) (r : Result) :
    (s.succeed r).done = true := by cases r <;> rfl
@[simp] theorem State.succeed_drop (s : State) (r : Result) :
    (s.succeed r).drop = s.drop := by cases r <;> rfl
@[simp] theorem State.succeed_err (s : State) (r : Result) :
    (s.succeed r).err = none := by cases r <;> rfl
@[simp] theorem State.succeed_progress (s : State) (r : Result) :
    (s.succeed r).progress = s.progress := by cases r <;> rfl
@[simp] theorem State.succeed_cmd (s : State) (r : Result) :
    (s.succeed r).cmd = s.cmd := by cases r <;> rfl
@[simp] theorem State.succeed_inLen (s : State) (r : Result) :
    (s.succeed r).inLen = s.inLen := by cases r <;> rfl
@[simp] theorem State.succeed_ivLen (s : State) (r : Result) :
    (s.succeed r).ivLen = s.ivLen := by cases r <;> rfl
@[simp] theorem State.succeed_mrRounds (s : State) (r : Result) :
    (s.succeed r).mrRounds = s.mrRounds := by cases r <;> rfl
@[simp] theorem State.succeed_pbits (s : State) (r : Result) :
    (s.succeed r).pbits = s.pbits := by cases r <;> rfl
@[simp] theorem State.succeed_iv (s : State) (r : Result) :
    (s.succeed r).iv = s.iv := by cases r <;> rfl
@[simp] theorem State.succeed_bnA (s : State) (r : Result) :
    (s.succeed r).bnA = s.bnA := by cases r <;> rfl
@[simp] theorem State.succeed_bnB (s : State) (r : Result) :
    (s.succeed r).bnB = s.bnB := by cases r <;> rfl
@[simp] theorem State.succeed_bnC (s : State) (r : Result) :
    (s.succeed r).bnC = s.bnC := by cases r <;> rfl
@[simp] theorem State.succeed_engine (s : State) (r : Result) :
    (s.succeed r).engine = .idle := by cases r <;> rfl
@[simp] theorem State.succeed_agenda (s : State) (r : Result) :
    (s.succeed r).agenda = s.agenda := by cases r <;> rfl
@[simp] theorem State.succeed_reply (s : State) (r : Result) :
    (s.succeed r).reply = s.reply := by cases r <;> rfl
@[simp] theorem State.succeed_entropy (s : State) (r : Result) :
    (s.succeed r).entropy = s.entropy := by cases r <;> rfl
@[simp] theorem State.succeed_freeCount (s : State) (r : Result) :
    (s.succeed r).freeCount = s.freeCount := by cases r <;> rfl

/-! ## The engine's views -/

theorem State.busy_iff (s : State) : s.busy = true ↔ s.engine ≠ .idle := by
  unfold State.busy; cases s.engine <;> simp

@[simp] theorem State.busy_of_running {s : State} {w : Word32} {c : Ctx}
    (h : s.engine = .running w c) : s.busy = true := by simp [State.busy, h]

@[simp] theorem State.ctx_of_running {s : State} {w : Word32} {c : Ctx}
    (h : s.engine = .running w c) : s.ctx = some c := by simp [State.ctx, h]

@[simp] theorem State.busy_of_idle {s : State} (h : s.engine = .idle) : s.busy = false := by
  simp [State.busy, h]

@[simp] theorem State.ctx_of_idle {s : State} (h : s.engine = .idle) : s.ctx = none := by
  simp [State.ctx, h]

theorem State.setCtx_engine {s : State} {w : Word32} {c d : Ctx} (h : s.engine = .running w c) :
    (s.setCtx d).engine = .running w d := by simp [State.setCtx, h]

theorem State.setCtx_of_running {s : State} {w : Word32} {c d : Ctx} (h : s.engine = .running w c) :
    s.setCtx d = { s with engine := .running w d } := by simp [State.setCtx, h]

theorem State.ctx_eq_some {s : State} {c : Ctx} (h : s.ctx = some c) :
    ∃ w, s.engine = .running w c := by
  unfold State.ctx at h
  cases he : s.engine with
  | idle => simp [he] at h
  | running w d => exact ⟨w, by simpa [he] using h⟩

/-! ## What each result writes (R324) -/

@[simp] theorem State.writeResult_keyed (s : State) (k : Schedule) :
    s.writeResult (.keyed k) = { (s.writeOutput []) with inst := some k } := rfl
@[simp] theorem State.writeResult_output (s : State) (b : Bytes) :
    s.writeResult (.output b) = s.writeOutput b := rfl
@[simp] theorem State.writeResult_number (s : State) (v : Nat) :
    s.writeResult (.number v) = { (s.writeOutput []) with bnR := s.bnValue v } := rfl
@[simp] theorem State.writeResult_dhParams (s : State) (p g : Nat) :
    s.writeResult (.dhParams p g) =
      { (s.writeOutput []) with bnR := s.bnValue p, bnS := s.bnValue g } := rfl
@[simp] theorem State.writeResult_factors (s : State) (fs : List Nat) :
    s.writeResult (.factors fs) =
      { (s.writeOutput (factorBytes s.params fs)) with nfact := BitVec.ofNat 32 fs.length } := rfl
@[simp] theorem State.writeResult_derivedKey (s : State) (k : Bytes) :
    s.writeResult (.derivedKey k) =
      { (s.writeOutput k) with key := keyWith s.key k, keyLen := 16 } := rfl

end Sys2Proof.Machine
end

