-- ==== Sys2Proof/Laws/Ops.lean ====
section
/-! SUPPORT. For each shared operation, one lemma that says once everything it can do. -/

namespace Sys2Proof.Machine

/-! ## Byte strings -/

@[simp] theorem toLE_length (x n : Nat) : (toLE x n).length = n := by simp [toLE]

@[simp] theorem toBE_length (x n : Nat) : (toBE x n).length = n := by simp [toBE]

@[simp] theorem xorBytes_length (b c : Bytes) :
    (xorBytes b c).length = min b.length c.length := by simp [xorBytes]

@[simp] theorem slice_length (b : Bytes) (i n : Nat) :
    (slice b i n).length = min n (b.length - i) := by simp [slice]

@[simp] theorem leNat_nil : leNat [] = 0 := rfl

@[simp] theorem leNat_cons (x : Byte) (b : Bytes) : leNat (x :: b) = x.toNat + 256 * leNat b := rfl

/-- A byte string's little-endian value is below `256` to its length. -/
theorem leNat_lt (b : Bytes) : leNat b < 256 ^ b.length := by
  induction b with
  | nil => simp
  | cons x b ih =>
    have hx : x.toNat < 256 := x.isLt
    rw [leNat_cons, List.length_cons, pow_succ]
    omega

/-- `toLE` peels off the low byte. -/
theorem toLE_succ (x n : Nat) : toLE x (n + 1) = BitVec.ofNat 8 x :: toLE (x / 256) n := by
  simp only [toLE, List.range_succ_eq_map, List.map_cons, List.map_map, Nat.mul_zero,
    Nat.shiftRight_zero]
  congr 1
  refine List.map_congr_left fun i _ => ?_
  simp only [Function.comp_apply, Nat.succ_eq_add_one]
  rw [show 8 * (i + 1) = 8 + 8 * i by ring, Nat.shiftRight_add, Nat.shiftRight_eq_div_pow x 8]

/-- Reading back a little-endian string (R14). -/
theorem leNat_toLE (x n : Nat) : leNat (toLE x n) = x % 256 ^ n := by
  induction n generalizing x with
  | zero => simp [toLE, Nat.mod_one]
  | succ n ih =>
    have h := Nat.mod_mul (x := x) (a := 256) (b := 256 ^ n)
    rw [toLE_succ, leNat_cons, ih, BitVec.toNat_ofNat, pow_succ' 256 n, h]

/-- Writing back a string's little-endian value gives the string (R14). -/
theorem toLE_leNat (b : Bytes) : toLE (leNat b) b.length = b := by
  induction b with
  | nil => rfl
  | cons x b ih =>
    have hx : x.toNat < 256 := x.isLt
    rw [List.length_cons, toLE_succ, leNat_cons]
    have h1 : (x.toNat + 256 * leNat b) / 256 = leNat b := by omega
    rw [h1, ih]
    congr 1
    apply BitVec.eq_of_toNat_eq
    rw [BitVec.toNat_ofNat]
    omega

/-- The big-endian value is the little-endian value of the reversed string (R14). -/
theorem beNat_eq (b : Bytes) : beNat b = leNat b.reverse := by
  unfold beNat leNat
  rw [List.foldr_reverse]
  congr 1
  funext acc x
  ring

theorem beNat_toBE (x n : Nat) : beNat (toBE x n) = x % 256 ^ n := by
  rw [beNat_eq, toBE, List.reverse_reverse, leNat_toLE]

/-! ## Free values -/

@[simp] theorem resolve_length (l : List (Option Byte)) (n : Nat) :
    (resolve l n).1.length = l.length := by
  induction l generalizing n with
  | nil => rfl
  | cons x l ih => cases x <;> simp [resolve, ih]

/-- Bytes that are all specified resolve to themselves and use no free value. -/
theorem resolve_some (b : Bytes) (n : Nat) : resolve (b.map some) n = (b, n) := by
  induction b with
  | nil => rfl
  | cons x b ih => simp [resolve, ih]

@[simp] theorem inputCells_length (s : State) (n : Nat) : (s.inputCells n).length = n := by
  simp [State.inputCells]

@[simp] theorem input_length (s : State) : s.input.length = s.inLen.toNat := by
  simp [State.input]

/-- A draw is in its range (R19). -/
theorem inRange_mem {lo hi : Nat} (h : lo ≤ hi) (v : Nat) :
    lo ≤ inRange lo hi v ∧ inRange lo hi v ≤ hi := by
  unfold inRange
  split
  · assumption
  · have := Nat.mod_lt v (show 0 < hi - lo + 1 by omega)
    omega

/-- Every value of the range can be drawn (R19). -/
theorem inRange_of_mem {lo hi v : Nat} (h : lo ≤ v ∧ v ≤ hi) : inRange lo hi v = v := by
  unfold inRange; rw [if_pos h]

theorem Entropy.draw_mem {lo hi : Nat} (h : lo ≤ hi) (e : Entropy) :
    lo ≤ (e.draw lo hi).1 ∧ (e.draw lo hi).1 ≤ hi := inRange_mem h _

@[simp] theorem Entropy.draw_drawn (lo hi : Nat) (e : Entropy) :
    (e.draw lo hi).2.drawn = e.drawn + 1 := rfl

@[simp] theorem Entropy.drawBytes_length (n : Nat) (e : Entropy) :
    (e.drawBytes n).1.length = n := by
  induction n generalizing e with
  | zero => rfl
  | succ n ih => simp [Entropy.drawBytes, ih]

/-! ## One-shot commands -/

theorem oneShot_start_ok {f : State → Computed} {s t : State} {w : Word32} {r : Result}
    (hs : s.engine = .running w .start) (hf : f s = (.ok r, t)) :
    oneShot f s = t.setCtx (.finish r) := by
  simp [oneShot, State.ctx_of_running hs, hf]

theorem oneShot_start_error {f : State → Computed} {s t : State} {w : Word32} {e : CmdError}
    (hs : s.engine = .running w .start) (hf : f s = (.error e, t)) :
    oneShot f s = t.fail e := by
  simp [oneShot, State.ctx_of_running hs, hf]

theorem oneShot_finish {f : State → Computed} {s : State} {w : Word32} {r : Result}
    (hs : s.engine = .running w (.finish r)) : oneShot f s = s.succeed r := by
  simp [oneShot, State.ctx_of_running hs]

/-- Everything a one-shot command's engine step can do. -/
theorem oneShot_cases (f : State → Computed) (s : State) :
    (∃ w r t, s.engine = .running w .start ∧ f s = (.ok r, t) ∧
      oneShot f s = t.setCtx (.finish r)) ∨
    (∃ w e t, s.engine = .running w .start ∧ f s = (.error e, t) ∧ oneShot f s = t.fail e) ∨
    (∃ w r, s.engine = .running w (.finish r) ∧ oneShot f s = s.succeed r) ∨
    oneShot f s = s := by
  cases he : s.engine with
  | idle => exact .inr (.inr (.inr (by simp [oneShot, State.ctx_of_idle he])))
  | running w c =>
    cases c with
    | start =>
      rcases hf : f s with ⟨e | r, t⟩
      · exact .inr (.inl ⟨w, e, t, rfl, rfl, oneShot_start_error he hf⟩)
      · exact .inl ⟨w, r, t, rfl, rfl, oneShot_start_ok he hf⟩
    | finish r => exact .inr (.inr (.inl ⟨w, r, rfl, oneShot_finish he⟩))
    | _ => exact .inr (.inr (.inr (by simp [oneShot, State.ctx_of_running he])))

/-! ## Mode commands -/

/-- Everything a progress point can do (R150). -/
theorem progressPoint_cases (job : ModeJob) (i : Nat) (s : State) :
    (job.last = some (percent i job.blocks.length) ∧
      s.progressPoint job i = s.setCtx (.blocks job)) ∨
    (job.last ≠ some (percent i job.blocks.length) ∧
      let t := { (s.setCtx (.blocks { job with last := some (percent i job.blocks.length) })) with
        progress := BitVec.ofNat 7 (percent i job.blocks.length) }
      (s.cancel = true ∧ s.progressPoint job i = t.fail .operationCancelled) ∨
      (s.cancel = false ∧ s.progressPoint job i = t)) := by
  unfold State.progressPoint
  by_cases h : job.last = some (percent i job.blocks.length)
  · exact .inl ⟨h, by simp [h]⟩
  · refine .inr ⟨h, ?_⟩
    cases hc : s.cancel <;> simp [h]

/-- Everything a mode command's engine step can do (R149). -/
theorem modeStep_cases (prep : State → Except CmdError ModeJob × State)
    (block : State → ModeJob → Bytes → Bytes × Bytes) (close : Bytes → Except CmdError Bytes)
    (s : State) :
    (∃ w e t, s.engine = .running w .start ∧ prep s = (.error e, t) ∧
      modeStep prep block close s = t.fail e) ∨
    (∃ w job t, s.engine = .running w .start ∧ prep s = (.ok job, t) ∧
      modeStep prep block close s = t.setCtx (.blocks job)) ∨
    (∃ w job x, s.engine = .running w (.blocks job) ∧ job.blocks[job.next]? = some x ∧
      modeStep prep block close s =
        s.progressPoint { job with
          next := job.next + 1, chain := (block s job x).2
          out := job.out ++ (block s job x).1 } job.next) ∨
    (∃ w job out, s.engine = .running w (.blocks job) ∧ job.blocks[job.next]? = none ∧
      close job.out = .ok out ∧ modeStep prep block close s = s.succeed (.output out)) ∨
    (∃ w job e, s.engine = .running w (.blocks job) ∧ job.blocks[job.next]? = none ∧
      close job.out = .error e ∧ modeStep prep block close s = s.fail e) ∨
    modeStep prep block close s = s := by
  cases he : s.engine with
  | idle => exact .inr (.inr (.inr (.inr (.inr (by simp [modeStep, State.ctx_of_idle he])))))
  | running w c =>
    have hc := State.ctx_of_running he
    cases c with
    | start =>
      rcases hp : prep s with ⟨e | job, t⟩
      · exact .inl ⟨w, e, t, rfl, rfl, by simp [modeStep, hc, hp]⟩
      · exact .inr (.inl ⟨w, job, t, rfl, rfl, by simp [modeStep, hc, hp]⟩)
    | blocks job =>
      cases hx : job.blocks[job.next]? with
      | some x => exact .inr (.inr (.inl ⟨w, job, x, rfl, hx, by simp only [modeStep, hc, hx]⟩))
      | none =>
        cases ho : close job.out with
        | ok out =>
          exact .inr (.inr (.inr (.inl ⟨w, job, out, rfl, hx, ho, by simp only [modeStep, hc, hx, ho]⟩)))
        | error e =>
          exact .inr (.inr (.inr (.inr (.inl
            ⟨w, job, e, rfl, hx, ho, by simp only [modeStep, hc, hx, ho]⟩))))
    | _ => exact .inr (.inr (.inr (.inr (.inr (by simp [modeStep, hc])))))

/-! ## Prime generation -/

/-- Everything a candidate's engine step can do (R264). -/
theorem candidateStep_cases (accepted : Nat → Ctx) (n : Nat) (s : State) :
    let r := tryCandidate s.params.smallPrimes s.pbits.toNat s.mrRounds.toNat s.entropy
    (∃ p, r.1 = some p ∧
      candidateStep accepted n s = State.setCtx (accepted p) { s with entropy := r.2 }) ∨
    (r.1 = none ∧
      candidateStep accepted n s = State.setCtx (.candidates (n + 1)) { s with entropy := r.2 }) := by
  intro r
  cases hr : r.1 with
  | some p => exact .inl ⟨p, rfl, by simp only [candidateStep]; simp only [r] at hr; rw [hr]⟩
  | none => exact .inr ⟨rfl, by simp only [candidateStep]; simp only [r] at hr; rw [hr]⟩

/-- Everything an engine step of `GENPRIME`, or of `GENPARAMS` before its root search, can do. -/
theorem generatePrime_cases (accepted : Nat → Ctx) (s : State) :
    (∃ w e, s.engine = .running w .start ∧ pbitsCheck s = some e ∧
      generatePrime accepted s = s.fail e) ∨
    (∃ w, s.engine = .running w .start ∧ pbitsCheck s = none ∧
      generatePrime accepted s = candidateStep accepted 0 s) ∨
    (∃ w n, s.engine = .running w (.candidates n) ∧
      generatePrime accepted s = candidateStep accepted n s) ∨
    (∃ w r, s.engine = .running w (.finish r) ∧ generatePrime accepted s = s.succeed r) ∨
    generatePrime accepted s = s := by
  cases he : s.engine with
  | idle => exact .inr (.inr (.inr (.inr (by simp [generatePrime, State.ctx_of_idle he]))))
  | running w c =>
    have hc := State.ctx_of_running he
    cases c with
    | start =>
      cases hp : pbitsCheck s with
      | some e => exact .inl ⟨w, e, rfl, rfl, by simp [generatePrime, hc, hp]⟩
      | none => exact .inr (.inl ⟨w, rfl, rfl, by simp [generatePrime, hc, hp]⟩)
    | candidates n => exact .inr (.inr (.inl ⟨w, n, rfl, by simp [generatePrime, hc]⟩))
    | finish r => exact .inr (.inr (.inr (.inl ⟨w, r, rfl, by simp [generatePrime, hc]⟩)))
    | _ => exact .inr (.inr (.inr (.inr (by simp [generatePrime, hc]))))

/-! ## The bus -/

/-- Everything a host write can do (R70). -/
theorem busWrite_cases (a : Nat) (size : AccessSize) (w : Word32) (s : State) :
    (s.busy = true ∧ s.touchesOperand a size = true ∧
      s.busWrite a size w = { s with drop := true }) ∨
    (¬(s.busy = true ∧ s.touchesOperand a size = true) ∧ a < 0x40 ∧
      s.busWrite a size w = s.writeControl (locate s.params a) w) ∨
    (¬(s.busy = true ∧ s.touchesOperand a size = true) ∧ ¬a < 0x40 ∧
      s.busWrite a size w = s.writeBytes a w 0 size.bytes) := by
  unfold State.busWrite
  by_cases h : s.busy = true ∧ s.touchesOperand a size = true
  · exact .inl ⟨h.1, h.2, by simp [h.1, h.2]⟩
  · have h' : (s.busy && s.touchesOperand a size) = false := by
      cases hb : s.busy <;> cases ht : s.touchesOperand a size <;> simp_all
    by_cases ha : a < 0x40
    · exact .inr (.inl ⟨h, ha, by simp [h', ha]⟩)
    · exact .inr (.inr ⟨h, ha, by simp [h', ha]⟩)

/-- Everything a host access can do (R60, R67). -/
theorem busAccess_cases (x : Access) (s : State) :
    (∃ addr size, x = .read addr size ∧ accessOk addr.toNat size = true ∧
      s.busAccess x = s.busRead addr.toNat size) ∨
    (∃ addr size w, x = .write addr size w ∧ accessOk addr.toNat size = true ∧
      s.busAccess x = { (s.busWrite addr.toNat size w) with reply := some .writeOk }) ∨
    s.busAccess x = { s with reply := some .busErr } := by
  cases x with
  | read addr size =>
    by_cases h : accessOk addr.toNat size = true
    · exact .inl ⟨addr, size, rfl, h, by simp [State.busAccess, h]⟩
    · exact .inr (.inr (by simp [State.busAccess, h]))
  | write addr size w =>
    by_cases h : accessOk addr.toNat size = true
    · exact .inr (.inl ⟨addr, size, w, rfl, h, by simp [State.busAccess, h]⟩)
    · exact .inr (.inr (by simp [State.busAccess, h]))

/-! ## Steps -/

/-- Everything an engine step can do. -/
theorem engineStep_cases (s : State) :
    (s.engine = .idle ∧ engineStep s = .next s) ∨
    (∃ w c i, s.engine = .running w c ∧ decode w = .ok i ∧ engineStep s = exec i s) ∨
    (∃ w c e, s.engine = .running w c ∧ decode w = .error e ∧
      engineStep s = .next (s.fail .illegalCommand)) := by
  cases he : s.engine with
  | idle => exact .inl ⟨rfl, by simp [engineStep, he]⟩
  | running w c =>
    cases hd : decode w with
    | ok i => exact .inr (.inl ⟨w, c, i, rfl, hd, by simp [engineStep, he, hd]⟩)
    | error e => exact .inr (.inr ⟨w, c, e, rfl, hd, by simp [engineStep, he, hd]⟩)

/-- Everything a step can do (R74). -/
theorem step_cases (s : State) :
    (s.agenda = [] ∧ step s = engineStep s) ∨
    (∃ rest, s.agenda = .engine :: rest ∧ step s = engineStep { s with agenda := rest }) ∨
    (∃ a rest, s.agenda = .access a :: rest ∧
      step s = .next (State.busAccess a { s with agenda := rest })) ∨
    (∃ rest, s.agenda = .rst :: rest ∧ step s = .next (State.doReset { s with agenda := rest })) := by
  cases ha : s.agenda with
  | nil => exact .inl ⟨rfl, by simp [step, ha]⟩
  | cons e rest =>
    cases e with
    | access a => exact .inr (.inr (.inl ⟨a, rest, rfl, by simp [step, ha]⟩))
    | engine => exact .inr (.inl ⟨rest, rfl, by simp [step, ha]⟩)
    | rst => exact .inr (.inr (.inr ⟨rest, rfl, by simp [step, ha]⟩))

end Sys2Proof.Machine
end

