-- ==== Sys2Proof/Laws/Commands.lean ====
section
/-! SUPPORT. Spec lemmas of the operations that commands share: lengths of padded, unpadded, chunked and
ciphered strings, the checks and preparations of the mode commands, the results of a completion, and
the places of the register map. -/

namespace Sys2Proof.Machine

/-! ## Lengths -/

theorem blockSize_pos (c : Cipher) : 0 < blockSize c := by cases c <;> decide

/-- `n` of R121 is at least 1 and makes whole blocks. -/
theorem padLength_spec (n bs : Nat) (h : 0 < bs) :
    0 < padLength n bs ∧ (n + padLength n bs) % bs = 0 := by
  unfold padLength
  have hlt := Nat.mod_lt n h
  refine ⟨by omega, ?_⟩
  have hm : n + (bs - n % bs) = bs * (n / bs + 1) := by
    have := Nat.div_add_mod n bs
    rw [Nat.mul_add]; omega
  rw [hm]; simp

theorem pad_length {d out : Bytes} {p : PadScheme} {bs : Nat} {e e' : Entropy} (h0 : 0 < bs)
    (h : pad d p bs e = .ok (out, e')) : out.length = d.length + padLength d.length bs := by
  have := (padLength_spec d.length bs h0).1
  cases p <;> simp only [pad, Except.ok.injEq, reduceCtorEq, Prod.mk.injEq] at h <;>
    obtain ⟨rfl, -⟩ := h <;> simp <;> omega

/-- Unpadding never lengthens (R129 to R132). -/
theorem unpad_length_le {d out : Bytes} {p : PadScheme} {bs : Nat} (h : unpad d p bs = .ok out) :
    out.length ≤ d.length := by
  cases p <;> simp only [unpad, Except.ok.injEq, reduceCtorEq] at h
  · subst h
    simp only [unpadZeros, List.length_reverse]
    exact (List.length_dropWhile_le _ _).trans (by simp)
  · subst h
    unfold unpadAnsi
    split
    · rfl
    · split <;> simp
  · unfold unpadPkcs7 at h
    split at h
    · cases h; rfl
    · split at h
      · cases h; simp
      · split at h <;> cases h; rfl
  · subst h
    unfold unpadIso
    split <;> simp

@[simp] theorem storeA_length (x : StateA) : (storeA x).length = 8 := by simp [storeA]

@[simp] theorem storeB_length (x : Quad) : (storeB x).length = 16 := by simp [storeB]

theorem encBlock_length (fe : FeTables) (sched : Schedule) (b : Bytes) :
    (sched.encBlock fe b).length = blockSize sched.cipher := by
  cases sched <;> simp [Schedule.encBlock, encA, encB, Schedule.cipher, blockSize]

theorem decBlock_length (fe : FeTables) (sched : Schedule) (b : Bytes) :
    (sched.decBlock fe b).length = blockSize sched.cipher := by
  cases sched <;> simp [Schedule.decBlock, decA, decB, Schedule.cipher, blockSize]

theorem chunks_length {bs : Nat} {b : Bytes} (h0 : 0 < bs) (h : b.length % bs = 0) :
    (chunks bs b).length = b.length / bs := by
  simp only [chunks, List.length_map, List.length_range]
  obtain ⟨k, hk⟩ := Nat.dvd_of_mod_eq_zero h
  rw [hk, Nat.mul_div_cancel_left _ h0, Nat.add_sub_assoc (by omega), Nat.mul_add_div h0,
    Nat.div_eq_of_lt (by omega)]
  simp

theorem chunks_whole {bs : Nat} {b : Bytes} (h0 : 0 < bs) (h : b.length % bs = 0) :
    ∀ x ∈ chunks bs b, x.length = bs := by
  intro x hx
  have hl := chunks_length h0 h
  simp only [chunks, List.length_map, List.length_range, List.mem_map, List.mem_range] at hx hl
  obtain ⟨i, hi, rfl⟩ := hx
  rw [hl] at hi
  have hq := Nat.div_mul_cancel (Nat.dvd_of_mod_eq_zero h)
  have hle : (i + 1) * bs ≤ b.length := by rw [← hq]; exact Nat.mul_le_mul_right _ hi
  rw [slice_length]
  rw [Nat.add_mul] at hle
  omega

theorem factorBytes_length (p : Params) (fs : List Nat) :
    (factorBytes p fs).length = fs.length * p.bnBytes := by
  unfold factorBytes
  induction fs with
  | nil => simp
  | cons f fs ih => simp only [List.map_cons, List.flatten_cons, List.length_append, toLE_length, ih,
      List.length_cons, Nat.add_mul]; omega

theorem percent_le {i n : Nat} (h : i < n) : percent i n ≤ 100 := by
  unfold percent
  apply Nat.div_le_of_le_mul
  rw [Nat.mul_comm]
  exact Nat.mul_le_mul_right _ h

/-! ## Mode commands -/

/-- What the checks of R141, R142 and R189 leave when they pass. -/
theorem modeChecks_ok {c : Cipher} {m : Mode} {p : PadScheme} {ivp : Bool} {s : State}
    {sched : Schedule} (h : modeChecks c m p ivp s = .ok sched) :
    s.keyedFor c = some sched ∧ m ≠ .unknown ∧ schemeUnknown p = false ∧
    ¬(m ≠ .ecb ∧ ivp = true ∧ s.ivLen.toNat ≠ blockSize c) ∧
    s.inLen.toNat ≤ s.params.bufBytes := by
  unfold modeChecks at h
  split at h
  · cases h
  · rename_i sc hk
    split at h
    · cases h
    · rename_i hm
      split at h
      · cases h
      · rename_i hp
        split at h
        · cases h
        · rename_i hiv
          split at h
          · cases h
          · rename_i hin
            cases h
            exact ⟨hk, hm, by simpa using hp, hiv, by simpa [State.inputTooLong] using hin⟩

/-- A fresh job over whole blocks fits (R148 to R150). -/
theorem newJob_fits {p : Params} {c : Cipher} {m : Mode} {iv data lead : Bytes} {pr : BitVec 7}
    (hpr : pr = 0) (hd : data.length % blockSize c = 0) (hd0 : 0 < data.length)
    (hiv : m ≠ .ecb → iv.length = blockSize c)
    (hroom : lead.length + data.length ≤ p.bufBytes) :
    jobFits p c m (newJob (blockSize c) iv data lead) pr := by
  have hb := blockSize_pos c
  have hl := chunks_length hb hd
  have hq := Nat.div_mul_cancel (Nat.dvd_of_mod_eq_zero hd)
  refine ⟨?_, chunks_whole hb hd, Nat.zero_le _, hiv, ?_, fun _ => ⟨rfl, hpr⟩, ?_⟩
  · simp only [newJob, hl]
    exact Nat.div_pos (Nat.le_of_dvd hd0 (Nat.dvd_of_mod_eq_zero hd)) hb
  · simp only [newJob, hl, Nat.sub_zero]
    omega
  · intro h
    simp [newJob] at h

/-- A preparation that raises an error has only drawn and read (R325). -/
theorem prepareEncrypt_error {c : Cipher} {m : Mode} {p : PadScheme} {ivp : Bool} {s t : State}
    {e : CmdError} (h : prepareEncrypt c m p ivp s = (.error e, t)) :
    ∃ en fc, t = { s with entropy := en, freeCount := fc } := by
  unfold prepareEncrypt at h
  simp only at h
  split at h
  · cases h; exact ⟨_, _, rfl⟩
  · split at h
    · cases h; exact ⟨_, _, rfl⟩
    · split at h
      · cases h; exact ⟨_, _, rfl⟩
      · split at h
        · cases h
        · split at h <;> cases h

/-- What the preparation of `ENCRYPT` leaves (R160): a job that fits, and draws and reads. -/
theorem prepareEncrypt_ok {c : Cipher} {m : Mode} {p : PadScheme} {ivp : Bool} {s t : State}
    {job : ModeJob} (h : prepareEncrypt c m p ivp s = (.ok job, t)) (hp : s.progress = 0) :
    m ≠ .unknown ∧ s.keyedFor c ≠ none ∧ jobFits s.params c m job s.progress ∧
    ∃ en fc, t = { s with entropy := en, freeCount := fc } := by
  unfold prepareEncrypt at h
  simp only at h
  split at h
  · cases h
  · rename_i sc hmc
    obtain ⟨hk, hm, -, -, -⟩ := modeChecks_ok hmc
    split at h
    · cases h
    · rename_i hcap
      split at h
      · cases h
      · rename_i padded e hpad
        have hlen := pad_length (blockSize_pos c) hpad
        have hpos := padLength_spec s.inLen.toNat _ (blockSize_pos c)
        rw [input_length] at hlen
        have hmod : padded.length % blockSize c = 0 := by rw [hlen]; exact hpos.2
        have hp0 : 0 < padded.length := by omega
        split at h
        · rename_i hecb
          cases h
          exact ⟨hm, by simp [hk], newJob_fits hp hmod hp0 (by simp [hecb]) (by simp; omega),
            _, _, rfl⟩
        · rename_i hecb
          split at h
          · cases h
            refine ⟨hm, by simp [hk], newJob_fits hp hmod hp0 (fun _ => ?_) (by simp; omega),
              _, _, rfl⟩
            cases c <;> simp [State.ivBytes, blockSize]
          · rename_i hivp
            cases h
            refine ⟨hm, by simp [hk], newJob_fits hp hmod hp0 (by simp) ?_, _, _, rfl⟩
            simp [ivPrefixLength, hecb, hivp] at hcap
            simp only [Entropy.drawBytes_length]
            omega

/-- A preparation that raises an error has only read. -/
theorem prepareDecrypt_error {c : Cipher} {m : Mode} {p : PadScheme} {ivp : Bool} {s t : State}
    {e : CmdError} (h : prepareDecrypt c m p ivp s = (.error e, t)) :
    ∃ fc, t = { s with freeCount := fc } := by
  unfold prepareDecrypt at h
  simp only at h
  split at h
  · cases h; exact ⟨_, rfl⟩
  · split at h
    · cases h; exact ⟨_, rfl⟩
    · split at h
      · cases h; exact ⟨_, rfl⟩
      · cases h

/-- What the IV split leaves (R142, R144). -/
theorem splitIv_ok {m : Mode} {ivp : Bool} {bs : Nat} {iv d v x : Bytes}
    (h : splitIv m ivp bs iv d = .ok (v, x)) (hiv : iv.length = bs) :
    (m ≠ .ecb → v.length = bs) ∧ x.length ≤ d.length := by
  unfold splitIv at h
  split at h
  · rename_i hm
    cases h
    exact ⟨fun h => absurd hm h, le_rfl⟩
  · split at h
    · cases h; exact ⟨fun _ => hiv, le_rfl⟩
    · split at h
      · cases h
      · cases h
        exact ⟨fun _ => by simp; omega, by simp⟩

/-- What the preparation of `DECRYPT` leaves (R161): a job that fits, and reads. -/
theorem prepareDecrypt_ok {c : Cipher} {m : Mode} {p : PadScheme} {ivp : Bool} {s t : State}
    {job : ModeJob} (h : prepareDecrypt c m p ivp s = (.ok job, t)) (hp : s.progress = 0) :
    m ≠ .unknown ∧ s.keyedFor c ≠ none ∧ jobFits s.params c m job s.progress ∧
    ∃ fc, t = { s with freeCount := fc } := by
  unfold prepareDecrypt at h
  simp only at h
  split at h
  · cases h
  · rename_i sc hmc
    obtain ⟨hk, hm, -, -, hin⟩ := modeChecks_ok hmc
    split at h
    · cases h
    · rename_i iv d hsp
      split at h
      · cases h
      · rename_i hd
        obtain ⟨hd0, hdm⟩ := not_or.mp hd
        cases h
        have hs := splitIv_ok hsp (by cases c <;> simp [State.ivBytes, blockSize])
        rw [input_length] at hs
        exact ⟨hm, by simp [hk], newJob_fits hp (by omega) (by omega) hs.1 (by simp; omega), _, rfl⟩

/-! ## Completions -/

/-- The bytes that a result stores, within `OUT_BUF`. -/
def Result.fitsBuffer (p : Params) : Result → Prop
  | .output b => b.length ≤ p.bufBytes
  | .factors fs => (factorBytes p fs).length ≤ p.bufBytes
  | .derivedKey k => k.length ≤ p.bufBytes
  | .keyed _ => True
  | .number _ => True
  | .dhParams _ _ => True

theorem resultFits_fitsBuffer {p : Params} {i : Instr} {r : Result} (h : resultFits p i r) :
    r.fitsBuffer p := by
  cases r <;> cases i <;> simp_all [resultFits, Result.fitsBuffer]

/-- The buffers after an output that fits keep to the two buffers. -/
theorem inBuffers_outputMem {s : State} {b : Bytes} (h : Memory.inBuffers s.params s.mem = true)
    (hb : b.length ≤ s.params.bufBytes) :
    Memory.inBuffers s.params (s.outputMem b) = true :=
  Memory.inBuffers_store (Memory.inBuffers_forget _ _ h) (.inr ⟨le_rfl, by omega⟩)

theorem bnValue_lt (s : State) (v : Nat) : s.bnValue v < 2 ^ s.params.bnBits :=
  Nat.mod_lt _ (by positivity)

theorem bnValue_of_lt {s : State} {v : Nat} (h : v < 2 ^ s.params.bnBits) : s.bnValue v = v :=
  Nat.mod_eq_of_lt h

/-! ## The register map -/

/-- `BN_BITS` bits are `BN_BYTES` bytes (R11). -/
theorem two_pow_bnBits {p : Params} (h : p.Legal) : 2 ^ p.bnBits = 256 ^ p.bnBytes := by
  rw [show (256 : Nat) = 2 ^ 8 by norm_num, ← pow_mul]
  congr 1
  have := h.1.2.2.1
  unfold Params.bnBytes
  omega

/-- Replacing a byte keeps a natural within its bytes. -/
theorem setByteOfNat_lt {x i n : Nat} {b : Byte} (hx : x < 256 ^ n) (hi : i < n) :
    setByteOfNat x i b < 256 ^ n := by
  unfold setByteOfNat
  have hb : b.toNat < 256 := b.isLt
  obtain ⟨k, rfl⟩ := Nat.exists_eq_add_of_lt hi
  have e1 : 256 ^ (i + k + 1) = 256 ^ (i + 1) * 256 ^ k := by rw [← pow_add]; congr 1; omega
  rw [e1] at hx ⊢
  have hq : x / 256 ^ (i + 1) < 256 ^ k := Nat.div_lt_of_lt_mul hx
  have hr : x % 256 ^ i < 256 ^ i := Nat.mod_lt _ (by positivity)
  have e2 : 256 ^ (i + 1) = 256 ^ i * 256 := pow_succ _ _
  have h1 : x % 256 ^ i + b.toNat * 256 ^ i < 256 ^ (i + 1) := by
    rw [e2]
    have := Nat.mul_le_mul_right (256 ^ i) (show b.toNat ≤ 255 by omega)
    omega
  have h2 : x / 256 ^ (i + 1) * 256 ^ (i + 1) + 256 ^ (i + 1) ≤ 256 ^ (i + 1) * 256 ^ k := by
    have := Nat.mul_le_mul_right (256 ^ (i + 1)) hq
    rw [Nat.mul_comm (256 ^ (i + 1)) (256 ^ k)]
    rw [Nat.succ_mul] at this
    exact this
  omega

theorem windowLoc_cases (size off : Nat) (byte : Nat → Loc) :
    (off < size ∧ windowLoc size off byte = byte off) ∨
    (¬off < size ∧ windowLoc size off byte = .reserved) := by
  unfold windowLoc
  split <;> simp_all

theorem locate_control (p : Params) {a : Nat} (h : a < 0x40) : locate p a = controlLoc (a / 4) := by
  unfold locate
  rw [if_pos h]

/-- `KEY` (R23). -/
theorem locate_key (p : Params) {a : Nat} (h : 0x40 ≤ a) (h' : a < 0x60) :
    locate p a = .key (a - 0x40) := by
  simp (disch := omega) only [locate, if_pos, if_neg]

/-- `IV` (R23). -/
theorem locate_iv (p : Params) {a : Nat} (h : 0x60 ≤ a) (h' : a < 0x70) :
    locate p a = .iv (a - 0x60) := by
  simp (disch := omega) only [locate, if_pos, if_neg]

/-- The window of `BN_A` (R23). -/
theorem locate_bnA (p : Params) {a : Nat} (h : 0x1000 ≤ a) (h' : a < 0x1200) :
    locate p a = windowLoc p.bnBytes (a - 0x1000) .bnA := by
  simp (disch := omega) only [locate, if_pos, if_neg]

/-- The window of `BN_B` (R23). -/
theorem locate_bnB (p : Params) {a : Nat} (h : 0x1200 ≤ a) (h' : a < 0x1400) :
    locate p a = windowLoc p.bnBytes (a - 0x1200) .bnB := by
  simp (disch := omega) only [locate, if_pos, if_neg]

/-- The window of `BN_C` (R23). -/
theorem locate_bnC (p : Params) {a : Nat} (h : 0x1400 ≤ a) (h' : a < 0x1600) :
    locate p a = windowLoc p.bnBytes (a - 0x1400) .bnC := by
  simp (disch := omega) only [locate, if_pos, if_neg]

/-- The window of `BN_R` (R23). -/
theorem locate_bnR (p : Params) {a : Nat} (h : 0x1600 ≤ a) (h' : a < 0x1800) :
    locate p a = windowLoc p.bnBytes (a - 0x1600) .bnR := by
  simp (disch := omega) only [locate, if_pos, if_neg]

/-- The window of `BN_S` (R23). -/
theorem locate_bnS (p : Params) {a : Nat} (h : 0x1800 ≤ a) (h' : a < 0x1A00) :
    locate p a = windowLoc p.bnBytes (a - 0x1800) .bnS := by
  simp (disch := omega) only [locate, if_pos, if_neg]

/-- The window of `IN_BUF` (R23). -/
theorem locate_inBuf (p : Params) {a : Nat} (h : inBase ≤ a) (h' : a < outBase) :
    locate p a = windowLoc p.bufBytes (a - inBase) .inBuf := by
  have hi : inBase = 0x10000 := rfl
  have ho : outBase = 0x20000 := rfl
  have he : outEnd = 0x30000 := rfl
  simp (disch := omega) only [locate, if_pos, if_neg]

/-- The window of `OUT_BUF` (R23). -/
theorem locate_outBuf (p : Params) {a : Nat} (h : outBase ≤ a) (h' : a < outEnd) :
    locate p a = windowLoc p.bufBytes (a - outBase) .outBuf := by
  have hi : inBase = 0x10000 := rfl
  have ho : outBase = 0x20000 := rfl
  have he : outEnd = 0x30000 := rfl
  simp (disch := omega) only [locate, if_pos, if_neg]

/-- The ranges between the windows are reserved (R23). -/
theorem locate_reserved (p : Params) {a : Nat}
    (h : (0x70 ≤ a ∧ a < 0x1000) ∨ (0x1A00 ≤ a ∧ a < inBase) ∨ outEnd ≤ a) :
    locate p a = .reserved := by
  have hi : inBase = 0x10000 := rfl
  have ho : outBase = 0x20000 := rfl
  have he : outEnd = 0x30000 := rfl
  rcases h with h | h | h <;> simp (disch := omega) only [locate, if_pos, if_neg]

end Sys2Proof.Machine
end

