-- ==== Sys2Proof/Laws/Config.lean ====
section
/-! SUPPORT. What is legal among the build parameters (spec/00_scope.md R11, spec/43_feistel.md R203). -/

namespace Sys2Proof

/-- The toy tables of R213 meet what R203 fixes. -/
theorem feToy_legal : feToy.Legal := by decide +kernel

/-- The open tables meet what R203 fixes, whatever they are. -/
theorem Config.feTables_legal : Config.feTables.Legal := by
  unfold Config.feTables
  split
  · assumption
  · exact feToy_legal

/-- Every legal choice of the open tables is a value that they can have. -/
theorem Config.feTables_of_legal (h : Config.openTables.Legal) :
    Config.feTables = Config.openTables := by
  unfold Config.feTables
  rw [if_pos h]

/-- The set of R262 is one the tester can work with. -/
theorem Config.smallPrimes_legal : LegalPrimes Config.smallPrimes :=
  ⟨by decide, by norm_num [Config.smallPrimes], by decide, by decide⟩

/-- The parts of a legal build. -/
theorem Params.legal_of {p : Params} (width : 256 ≤ p.bnBits ∧ p.bnBits ≤ 4096 ∧ p.bnBits % 32 = 0)
    (buffer : 256 ≤ p.bufBytes ∧ p.bufBytes ≤ 65536 ∧ p.bufBytes % 16 = 0)
    (primes : LegalPrimes p.smallPrimes) (tables : p.fe.Legal) : p.Legal :=
  ⟨⟨width.1, width.2.1, width.2.2, buffer⟩, primes, tables⟩

end Sys2Proof
end

