-- ==== Sys2Proof/Laws/PerInstr.lean ====
section
/-! SUPPORT. Statements made per instruction: every command's word satisfies its row of the opcode map
(spec/30_encoding.md R96). -/

namespace Sys2Proof.Laws.TableRow

/-- The `match` column of R96. -/
def rowMatch : Instr → Word32
  | .keyset _ => 0x00000001
  | .encb _ => 0x00000002
  | .decb _ => 0x00000003
  | .pad _ _ => 0x00000004
  | .unpad _ _ => 0x00000005
  | .encrypt _ _ _ _ => 0x00000006
  | .decrypt _ _ _ _ => 0x00000007
  | .isprime => 0x00000010
  | .genprime => 0x00000011
  | .pfactors => 0x00000012
  | .primroot => 0x00000013
  | .genparams => 0x00000014
  | .genpriv => 0x00000015
  | .genpub => 0x00000016
  | .shared => 0x00000017
  | .modexp => 0x00000018
  | .sha256 => 0x00000020
  | .kdf => 0x00000021

/-- The `mask` column of R96. -/
def rowMask : Instr → Word32
  | .keyset _ => 0xFFFFFCFF
  | .encb _ => 0xFFFFFCFF
  | .decb _ => 0xFFFFFCFF
  | .pad _ _ => 0xFFFF1CFF
  | .unpad _ _ => 0xFFFF1CFF
  | .encrypt _ _ _ _ => 0xFFFE00FF
  | .decrypt _ _ _ _ => 0xFFFE00FF
  | _ => 0xFFFFFFFF

/-- A command's word, masked as its row says, is its row's match. -/
def Statement (i : Instr) : Prop := encode i &&& rowMask i = rowMatch i

theorem keyset (c : Cipher) : Statement (.keyset c) := by cases c <;> rfl

theorem encb (c : Cipher) : Statement (.encb c) := by cases c <;> rfl

theorem decb (c : Cipher) : Statement (.decb c) := by cases c <;> rfl

/-- Masking away the fields `CIPHER` and `PAD` leaves the opcode of `PAD` or `UNPAD`. -/
theorem mask_pad : ∀ (c : BitVec 2) (p : BitVec 3),
    packWord 0x04 c 0 p false &&& 0xFFFF1CFF = 0x00000004 ∧
    packWord 0x05 c 0 p false &&& 0xFFFF1CFF = 0x00000005 := by decide +kernel

/-- Masking away every field leaves the opcode of `ENCRYPT` or `DECRYPT`. -/
theorem mask_mode : ∀ (c : BitVec 2) (m p : BitVec 3) (v : Bool),
    packWord 0x06 c m p v &&& 0xFFFE00FF = 0x00000006 ∧
    packWord 0x07 c m p v &&& 0xFFFE00FF = 0x00000007 := by decide +kernel

theorem pad (c : Cipher) (p : PadScheme) : Statement (.pad c p) := (mask_pad _ _).1

theorem unpad (c : Cipher) (p : PadScheme) : Statement (.unpad c p) := (mask_pad _ _).2

theorem encrypt (c : Cipher) (m : Mode) (p : PadScheme) (ivp : Bool) :
    Statement (.encrypt c m p ivp) := (mask_mode _ _ _ _).1

theorem decrypt (c : Cipher) (m : Mode) (p : PadScheme) (ivp : Bool) :
    Statement (.decrypt c m p ivp) := (mask_mode _ _ _ _).2

theorem isprime : Statement .isprime := rfl

theorem genprime : Statement .genprime := rfl

theorem pfactors : Statement .pfactors := rfl

theorem primroot : Statement .primroot := rfl

theorem genparams : Statement .genparams := rfl

theorem genpriv : Statement .genpriv := rfl

theorem genpub : Statement .genpub := rfl

theorem shared : Statement .shared := rfl

theorem modexp : Statement .modexp := rfl

theorem sha256 : Statement .sha256 := rfl

theorem kdf : Statement .kdf := rfl

end Sys2Proof.Laws.TableRow
end

