-- ==== Sys2Proof/Tests/Slice0.lean ====
section
/-! SUPPORT. Tests on fixed values, and for each obligation with hypotheses a witness that meets them.
Expected values come from spec/95_test_vectors.md (the section is named), from a rule's own example, or
from hand calculation where a comment says so. -/

namespace Sys2Proof.Tests

open Sys2Proof.Machine

-- One theorem after another: the kernel evaluations below are not run in parallel.
set_option Elab.async false

/-! ## Helpers -/

/-- The smallest legal build, with the test tables of R213. -/
def smallBuild : Params := ⟨256, 256, Config.smallPrimes, 40, feToy⟩

theorem smallBuild_legal : smallBuild.Legal :=
  Params.legal_of (by decide) (by decide) Config.smallPrimes_legal feToy_legal

/-- The reset state of the smallest build. -/
def s0 : State := { State.reset with params := smallBuild }

/-- A state in which `i` has just been accepted. -/
def start (i : Instr) (s : State) : State := { s with engine := .running (encode i) .start }

/-- A state between two engine steps of `i`. -/
def inside (i : Instr) (c : Ctx) (s : State) : State := { s with engine := .running (encode i) c }

/-- The state with `b` in `IN_BUF` and its length in `IN_LEN`. -/
def withInput (b : Bytes) (s : State) : State :=
  { s with mem := Memory.cells inBase b, inLen := BitVec.ofNat 32 b.length }

/-- The state with `b` at the front of `KEY` and its length in `KEYLEN`. -/
def withKey (b : Bytes) (s : State) : State :=
  { s with key := keyWith s.key b, keyLen := BitVec.ofNat 32 b.length }

/-- The answers that the entropy port will give. -/
def withDraws (l : List Nat) (s : State) : State := { s with entropy := ⟨l, 0⟩ }

/-- A schedule of cipher B that tests of the control flow use; no key gives it. -/
def schedB : Schedule := .b (Vector.replicate 33 ⟨0, 0, 0, 0⟩)

/-- A schedule of cipher A that tests of the control flow use. -/
def schedA : Schedule := .a (Vector.replicate 32 ⟨0, 0, 0⟩)

/-- An instance of cipher B. -/
def keyedB : State := { s0 with inst := some schedB }

/-- A part of the next state; `none` for a stop. -/
def field {α : Type} (o : Host.Outcome State Fault Refusal) (f : State → α) : Option α :=
  match o with
  | .next s => some (f s)
  | .fault _ => none
  | .refused _ => none

/-- What one step of `i` on `s` computes. -/
def computed (i : Instr) (s : State) : Option Ctx := (field (exec i s) State.ctx).join

/-- The error that one step of `i` on `s` completes with. -/
def errorOf (i : Instr) (s : State) : Option CmdError := (field (exec i s) State.err).join

/-- `n` bytes that rise from `a`. -/
def rising (a n : Nat) : Bytes := (List.range n).map fun k => BitVec.ofNat 8 (a + k)

/-! ## Well-formedness: each check refuses an ill-formed term -/

theorem test_wellFormed_refuses_pad : (Instr.pad .a (.unknown 3)).wellFormed = false := by decide
theorem test_wellFormed_refuses_unpad : (Instr.unpad .b (.unknown 0)).wellFormed = false := by decide
theorem test_wellFormed_refuses_encrypt :
    (Instr.encrypt .a .cbc (.unknown 1) true).wellFormed = false := by decide
theorem test_wellFormed_refuses_decrypt :
    (Instr.decrypt .b .unknown (.unknown 2) false).wellFormed = false := by decide
theorem test_wellFormed_accepts_reserved_codes :
    (Instr.pad .a (.unknown 4)).wellFormed = true ∧
    (Instr.encrypt .b .unknown (.unknown 7) true).wellFormed = true := by decide

/-! ## Decoding: words of 95 §2.1, of 95 §2.9, and words written out from the pattern of R91 -/

theorem test_decode_keyset : decode 0x00000101 = .ok (.keyset .b) := by decide
theorem test_decode_encb : decode 0x00000002 = .ok (.encb .a) := by decide
theorem test_decode_decb : decode 0x00000103 = .ok (.decb .b) := by decide
theorem test_decode_pad : decode 0x00006104 = .ok (.pad .b .iso10126) := by decide
theorem test_decode_unpad : decode 0x00002105 = .ok (.unpad .b .ansiX923) := by decide
theorem test_decode_encrypt :
    decode 0x00013906 = .ok (.encrypt .b .randomDelta .ansiX923 true) := by decide
theorem test_decode_encrypt_ctr :
    decode 0x00011406 = .ok (.encrypt .a .ctr .zeros true) := by decide
theorem test_decode_decrypt : decode 0x00004907 = .ok (.decrypt .b .pcbc .pkcs7 false) := by decide
theorem test_decode_isprime : decode 0x00000010 = .ok .isprime := by decide
theorem test_decode_genprime : decode 0x00000011 = .ok .genprime := by decide
theorem test_decode_pfactors : decode 0x00000012 = .ok .pfactors := by decide
theorem test_decode_primroot : decode 0x00000013 = .ok .primroot := by decide
theorem test_decode_genparams : decode 0x00000014 = .ok .genparams := by decide
theorem test_decode_genpriv : decode 0x00000015 = .ok .genpriv := by decide
theorem test_decode_genpub : decode 0x00000016 = .ok .genpub := by decide
theorem test_decode_shared : decode 0x00000017 = .ok .shared := by decide
theorem test_decode_modexp : decode 0x00000018 = .ok .modexp := by decide
theorem test_decode_sha256 : decode 0x00000020 = .ok .sha256 := by decide
theorem test_decode_kdf : decode 0x00000021 = .ok .kdf := by decide
theorem test_decode_reserved_codes :
    decode 0x00001D06 = .ok (.encrypt .b .unknown .zeros false) ∧
    decode 0x0000A104 = .ok (.pad .b (.unknown 5)) := by decide
theorem test_decode_bit_pattern :
    decode 0b000000000000000_1_011_100_01_00000111#32 =
      .ok (.decrypt .b .ofb .iso10126 true) := by decide
theorem test_decode_rejects_by_name :
    decode 0x00000000 = .error .unknownOpcode ∧ decode 0x00000019 = .error .unknownOpcode ∧
    decode 0x80000010 = .error .reservedBits ∧ decode 0x00020106 = .error .reservedBits ∧
    decode 0x00000410 = .error .unusedField ∧ decode 0x00014104 = .error .unusedField ∧
    decode 0x00000502 = .error .unusedField ∧ decode 0x00000206 = .error .reservedCipher ∧
    decode 0x00000301 = .error .reservedCipher := by decide
theorem test_decode_bytes :
    decodeBytes [0x06, 0x45, 0x01, 0x00, 0xFF] =
      some (.ok (.encrypt .b .cbc .pkcs7 true), [0xFF]) ∧
    decodeBytes [0x06, 0x45, 0x01] = none := by decide
theorem test_decodeTableWord :
    decodeTableWord 32 0x14506 = some (.encrypt .b .cbc .pkcs7 true) ∧
    decodeTableWord 32 0x206 = none := by decide
theorem test_encode_of_decode : encode (.encrypt .b .cfb .pkcs7 true) = 0x00014D06 := by decide
theorem test_spell :
    spell (.encrypt .b .randomDelta .ansiX923 true) = some "ENCRYPT.B.RD.X923.IV" ∧
    spell (.pad .a (.unknown 4)) = none := by decide

/-! ## Functions -/

/-- The toy mixing values of 43_feistel.md R214. -/
theorem test_mixA_toy : mixA feToy 0xFFFF 0xFFFF 0xFFFF = 0x5AAF ∧
    mixA feToy 0x1234 0x5678 0x9ABC = 0x2ACB := by decide +kernel
/-- The order of key and block bytes in cipher A's words, by hand from R201. -/
theorem test_loadA : loadA [1, 2, 3, 4, 5, 6, 7, 8] = ⟨0x0201, 0x0403, 0x0605, 0x0807⟩ := by decide
/-- Tables that R203 rules out: one table twice, a placement twice, nothing selected from word 2. -/
theorem test_illegal_tables :
    ¬({ feToy with sbox := feToy.sbox.set 0 (feToy.sbox.get 1) } : FeTables).Legal ∧
    ¬({ feToy with opos := feToy.opos.set 0 7 } : FeTables).Legal ∧
    ¬({ feToy with sel := feToy.sel.map fun g => g.map fun x => (x.1 % 2, x.2) } : FeTables).Legal := by
  decide +kernel
/-- Box 0 of R232 on the nibble `0b0001` of every bit position (8 = 0b1000), by hand. -/
theorem test_applyBox :
    applyBox (sboxB 0) ⟨0xFFFFFFFF, 0, 0, 0⟩ = ⟨0, 0, 0, 0xFFFFFFFF⟩ := by decide +kernel
/-- By hand from R236: the bit above a 16-byte key. -/
theorem test_extendKeyB : extendKeyB (List.replicate 16 7) =
    List.replicate 16 7 ++ [1] ++ List.replicate 15 0 := by decide
/-- Two one-byte blocks under `E(x) = x + 3` with IV 5, by hand from R151 to R157. -/
theorem test_chainEnc_modes :
    let e : Bytes → Bytes := fun b => b.map (· + 3)
    chainEnc .ecb e 1 [] [1, 2] = [4, 5] ∧ chainEnc .cbc e 1 [5] [1, 2] = [7, 8] ∧
    chainEnc .pcbc e 1 [5] [1, 2] = [7, 7] ∧ chainEnc .cfb e 1 [5] [1, 2] = [9, 14] ∧
    chainEnc .ofb e 1 [5] [1, 2] = [9, 9] ∧ chainEnc .ctr e 1 [5] [1, 2] = [9, 11] ∧
    chainEnc .randomDelta e 1 [5] [1, 2] = [7, 13] := by decide +kernel
/-- The counter wraps from `ff` to 0 (95 §2.3's wrap row at one byte), and a short last block is XORed
over its length (95 §1.4). -/
theorem test_chainEnc_ctr_edges :
    chainEnc .ctr (fun b => b.map (· + 3)) 1 [0xFF] [1, 2] = [3, 1] ∧
    chainEnc .ctr (fun b => b.map (· + 3)) 2 [0, 4] [1, 2, 3] = [2, 5, 0] := by decide +kernel
/-- 95 §2.2, ANSI_X923, ISO_10126 and ZEROS rows. -/
theorem test_unpad_rows :
    unpad [0x41, 0x42, 0x43, 0, 0, 1, 0, 5] .ansiX923 8 =
      .ok [0x41, 0x42, 0x43, 0, 0, 1, 0, 5] ∧
    unpad [0x41, 0x42, 0x43, 0xAA, 0xBB, 0xCC, 0xDD, 5] .iso10126 8 = .ok [0x41, 0x42, 0x43] ∧
    unpad [0x41, 0, 0x42, 0, 0, 0, 0, 0] .zeros 8 = .ok [0x41, 0, 0x42] ∧
    unpad [3, 3] .pkcs7 8 = .ok [3, 3] ∧ unpad [3, 3, 3] .pkcs7 8 = .ok [] := by decide +kernel
/-- 95 §2.3: the reports of 3 and of 7 blocks, and of the first of 150. -/
theorem test_percent :
    (List.range 3).map (percent · 3) = [33, 66, 100] ∧
    (List.range 7).map (percent · 7) = [14, 28, 42, 57, 71, 85, 100] ∧ percent 0 150 = 0 := by decide
/-- 95 §2.7: the strong liar 2 and the witness 3 of `2^64 + 1`. -/
theorem test_tester_draws :
    (isProbablyPrime Config.smallPrimes (2 ^ 64 + 1) 1 ⟨[2], 0⟩).1 = true ∧
    (isProbablyPrime Config.smallPrimes (2 ^ 64 + 1) 1 ⟨[3], 0⟩).1 = false := by decide +kernel
/-- The round constants of R303 are the first 32 bits of the fractional parts of the cube roots of the first
64 primes, which is how SHA-256 makes them (general knowledge). -/
theorem test_roundConstants :
    let primes := (List.range 312).filter fun p =>
      decide (2 ≤ p) && ((List.range p).drop 2).all fun d => p % d != 0
    roundConstants.length = 64 ∧ primes.length = 64 ∧
    (primes.zip roundConstants).all fun pk =>
      let whole := ((List.range 7).drop 1).countP fun f => decide (f ^ 3 ≤ pk.1)
      let x := whole * 2 ^ 32 + pk.2.toNat
      decide (x ^ 3 ≤ pk.1 * 2 ^ 96) && decide (pk.1 * 2 ^ 96 < (x + 1) ^ 3) := by decide +kernel
/-- 95 §2.8: `minBE`. -/
theorem test_minBE : minBE 0 = [] ∧ minBE 255 = [0xFF] ∧ minBE 256 = [1, 0] ∧
    minBE (2 ^ 64 + 1) = [1, 0, 0, 0, 0, 0, 0, 0, 1] := by decide +kernel
/-- 95 §2.8: 55 bytes take one chunk, 56 take two. -/
theorem test_sha256Pad : (sha256Pad (List.replicate 55 0x61)).length = 64 ∧
    (sha256Pad (List.replicate 56 0x61)).length = 128 := by decide +kernel

/-! ## One step of each command -/

/-- 95 §1.2: the length is checked before the key, and a failure clears the instance. -/
theorem test_keyset_length_first :
    field (exec (.keyset .b) (start (.keyset .b) (withKey (List.replicate 15 0) keyedB)))
      (fun t => (t.statusWord, t.inst)) = some (0x00000102, none) := by decide +kernel
/-- 95 §1.2: an all-zero key. -/
theorem test_keyset_weak :
    field (exec (.keyset .b) (start (.keyset .b) (withKey (List.replicate 32 0) keyedB)))
      State.statusWord = some 0x00000202 := by decide +kernel
/-- 95 §2.4: `KB`, `00..0f`, from the key bytes to the output of the computation step. -/
theorem test_encb :
    computed (.encb .b) (start (.encb .b) (withInput (rising 0 16)
      { s0 with inst := some (.b (keySchedB (rising 0 16))) })) =
    some (.finish (.output [0x4C, 0x7D, 0x8A, 0x32, 0x80, 0x72, 0xA2, 0x2C,
      0x82, 0x3E, 0x4A, 0x1F, 0x3A, 0xCD, 0xA1, 0x6D])) := by decide +kernel
/-- 95 §2.4: the other cipher's instance. -/
theorem test_encb_noKey : errorOf (.encb .a) (start (.encb .a) keyedB) = some .noKey := by
  decide +kernel
/-- 95 §2.4: `K80` decrypts to zeros. -/
theorem test_decb :
    computed (.decb .b) (start (.decb .b) (withInput
      [0x26, 0x4E, 0x54, 0x81, 0xEF, 0xF4, 0x2A, 0x46,
        0x06, 0xAB, 0xDA, 0x06, 0xC0, 0xBF, 0xDA, 0x3D]
      { s0 with inst := some (.b (keySchedB (0x80 :: List.replicate 15 0))) })) =
    some (.finish (.output (List.replicate 16 0))) := by decide +kernel
/-- 95 §2.4: an input of 15 bytes. -/
theorem test_decb_length :
    errorOf (.decb .b) (start (.decb .b) { keyedB with inLen := 15 }) =
      some .invalidBlockSize := by decide +kernel
/-- 95 §2.2: the draws of ISO_10126, in order. -/
theorem test_pad :
    computed (.pad .a .iso10126) (start (.pad .a .iso10126) (withDraws [0xAA, 0xBB, 0xCC, 0xDD]
      (withInput [0x41, 0x42, 0x43] s0))) =
    some (.finish (.output [0x41, 0x42, 0x43, 0xAA, 0xBB, 0xCC, 0xDD, 5])) := by decide +kernel
/-- 95 §2.9: an input of `BUF_BYTES` bytes, whose padding does not fit. -/
theorem test_pad_capacity :
    errorOf (.pad .b .pkcs7) (start (.pad .b .pkcs7) { s0 with inLen := 256 }) =
      some .capacity := by decide +kernel
/-- 95 §2.2: an inconsistent PKCS7 tail. -/
theorem test_unpad_error :
    errorOf (.unpad .a .pkcs7) (start (.unpad .a .pkcs7) (withInput
      [0x41, 0x42, 0x43, 4, 5, 4, 3, 4] s0)) = some .padding := by decide +kernel
/-- 95 §2.2: the fallback. -/
theorem test_unpad_fallback :
    computed (.unpad .a .pkcs7) (start (.unpad .a .pkcs7) (withInput
      [0x41, 0x42, 0x43, 0x44, 1, 2, 3, 4] s0)) =
    some (.finish (.output [0x41, 0x42, 0x43, 0x44, 1, 2, 3, 4])) := by decide +kernel
/-- 95 §2.3: twelve padding draws, then sixteen IV draws, which lead the output. -/
theorem test_encrypt_draw_order :
    computed (.encrypt .b .cbc .iso10126 false) (start (.encrypt .b .cbc .iso10126 false)
      (withDraws ((List.range 12).map (· + 1) ++ (List.range 16).map (· + 0xA0))
        (withInput [0x41, 0x42, 0x43] keyedB))) =
    some (.blocks ⟨[[0x41, 0x42, 0x43] ++ rising 1 12 ++ [13]], 0, rising 0xA0 16,
      beNat (rising 0xA0 16), rising 0xA0 16, none⟩) := by decide +kernel
/-- 95 §2.3 (cancellation): a request before the step of block 0 of 3. -/
theorem test_encrypt_cancel :
    field (exec (.encrypt .b .ecb .pkcs7 false) (inside (.encrypt .b .ecb .pkcs7 false)
      (.blocks ⟨List.replicate 3 (List.replicate 16 0), 0, [], 0, [], none⟩)
      { keyedB with cancel := true })) State.statusWord = some 0x00210A1A := by decide +kernel
/-- 95 §2.9: padding before the IV length, in `DECRYPT` too (41 R141). -/
theorem test_decrypt_check_order :
    errorOf (.decrypt .b .cbc (.unknown 4) true) (start (.decrypt .b .cbc (.unknown 4) true)
      { keyedB with ivLen := 3 }) = some .padding := by decide +kernel
/-- 95 §2.3: nothing left after the IV. -/
theorem test_decrypt_empty :
    errorOf (.decrypt .b .cbc .pkcs7 false) (start (.decrypt .b .cbc .pkcs7 false)
      (withInput (rising 0 16) keyedB)) = some .dataLength := by decide +kernel
/-- 95 §1.6: 91 is composite. -/
theorem test_isprime : computed .isprime (start .isprime { s0 with bnA := 91 }) =
    some (.finish (.number 0)) := by decide +kernel
/-- 95 §2.7: the draw 0x60 gives 225, which trial division rejects. -/
theorem test_genprime_reject :
    computed .genprime (start .genprime (withDraws [0x60] { s0 with pbits := 8 })) =
      some (.candidates 1) := by decide +kernel
/-- 95 §2.7: the draw 0x62 gives 227. -/
theorem test_genprime_accept :
    computed .genprime (inside .genprime (.candidates 1) (withDraws [0x62, 2, 3]
      { s0 with pbits := 8, mrRounds := 2 })) = some (.finish (.number 227)) := by decide +kernel
/-- 95 §2.7: the factors of 360. -/
theorem test_pfactors : computed .pfactors (start .pfactors { s0 with bnA := 360 }) =
    some (.finish (.factors [2, 3, 5])) := by decide +kernel
/-- 95 §2.7: 9409 = 97². -/
theorem test_pfactors_square : computed .pfactors (start .pfactors { s0 with bnA := 9409 }) =
    some (.finish (.factors [97])) := by decide +kernel
/-- 95 §1.9: the least primitive root of 7. -/
theorem test_primroot : computed .primroot (start .primroot { s0 with bnA := 7 }) =
    some (.finish (.number 3)) := by decide +kernel
/-- 95 §2.7: 4 is not prime. -/
theorem test_primroot_error : errorOf .primroot (start .primroot { s0 with bnA := 4 }) =
    some .invalidArgument := by decide +kernel
/-- 95 §2.7: the root search for 227. -/
theorem test_genparams :
    computed .genparams (inside .genparams (.rootSearch 227) (withDraws [2, 3]
      { s0 with mrRounds := 2 })) = some (.finish (.dhParams 227 2)) := by decide +kernel
/-- 95 §2.7: `PBITS` below 8. -/
theorem test_genparams_error : errorOf .genparams (start .genparams { s0 with pbits := 7 }) =
    some .invalidArgument := by decide +kernel
/-- 95 §2.7. -/
theorem test_genpriv : computed .genpriv (start .genpriv (withDraws [6] { s0 with bnA := 23 })) =
    some (.finish (.number 6)) := by decide +kernel
/-- 95 §2.7. -/
theorem test_genpriv_error : errorOf .genpriv (start .genpriv { s0 with bnA := 3 }) =
    some .invalidArgument := by decide +kernel
/-- 95 §2.7. -/
theorem test_genpub :
    computed .genpub (start .genpub { s0 with bnA := 23, bnB := 5, bnC := 6 }) =
      some (.finish (.number 8)) := by decide +kernel
/-- 95 §2.7. -/
theorem test_shared :
    computed .shared (start .shared { s0 with bnA := 23, bnB := 19, bnC := 6 }) =
      some (.finish (.number 2)) := by decide +kernel
/-- 95 §2.7: modulus 1, and `0^0`. -/
theorem test_modexp :
    computed .modexp (start .modexp { s0 with bnA := 1, bnB := 3, bnC := 0 }) =
      some (.finish (.number 0)) ∧
    computed .modexp (start .modexp { s0 with bnA := 7, bnB := 0, bnC := 0 }) =
      some (.finish (.number 1)) := by decide +kernel
/-- The completion step writes `BN_R` and `DONE` and leaves `OUT_LEN` 0. -/
theorem test_modexp_completion :
    field (exec .modexp (inside .modexp (.finish (.number 24)) s0))
      (fun t => (t.bnR, t.statusWord, t.outLen)) = some (24, 2, 0) := by decide +kernel
/-- 95 §2.8: `abc`. -/
theorem test_sha256 :
    computed .sha256 (start .sha256 (withInput [0x61, 0x62, 0x63] s0)) =
    some (.finish (.output [0xBA, 0x78, 0x16, 0xBF, 0x8F, 0x01, 0xCF, 0xEA,
      0x41, 0x41, 0x40, 0xDE, 0x5D, 0xAE, 0x22, 0x23, 0xB0, 0x03, 0x61, 0xA3, 0x96, 0x17, 0x7A, 0x9C,
      0xB4, 0x10, 0xFF, 0x61, 0xF2, 0x00, 0x15, 0xAD])) := by decide +kernel
/-- The completion of `KDF` writes 16 bytes of `KEY`, `KEYLEN` and `OUT_LEN`; `KEY[16]` stays. -/
theorem test_kdf_completion :
    field (exec .kdf (inside .kdf (.finish (.derivedKey (rising 1 16)))
      { s0 with key := Vector.replicate 32 0xEE }))
      (fun t => (t.key.toList.take 17, t.keyLen, t.outLen, Memory.read t.mem (outBase + 15))) =
    some (rising 1 16 ++ [0xEE], 16, 16, some 16) := by decide +kernel

/-! ## Steps and bus accesses -/

/-- 95 §2.9: an illegal word right after reset. -/
theorem test_step_illegal :
    field (step (State.reset.withFetchWord 32 0)) State.statusWord = some 0x00000B02 := by
  decide +kernel
/-- 95 §3, P3: `ENCB.B` right after reset. -/
theorem test_step_encb :
    field (step (State.reset.withFetchWord 32 0x102)) State.statusWord = some 0x00000C02 := by
  decide +kernel
/-- 95 §2.10: the reads after reset. -/
theorem test_reads_after_reset :
    (hostRead 0x00000 .four State.reset).reply = some (.readOk 0x43430007) ∧
    (hostRead 0x00020 .four State.reset).reply = some (.readOk 40) ∧
    (hostRead 0x0002C .four State.reset).reply = some (.readOk 2048) ∧
    (hostRead 0x00030 .four State.reset).reply = some (.readOk 65536) ∧
    (hostRead 0x00034 .four State.reset).reply = some (.readOk 0) ∧
    (hostRead 0x00040 .one State.reset).reply = some (.readOk 0) := by decide +kernel
/-- 95 §2.10: the accesses answered `BUSERR`. -/
theorem test_bus_errors :
    (hostRead 0x00002 .four State.reset).reply = some .busErr ∧
    (hostRead 0x00008 .one State.reset).reply = some .busErr ∧
    (hostWrite 0x10001 .two 0 State.reset).reply = some .busErr := by decide +kernel
/-- 95 §2.10: a big integer's bytes are little-endian in its window. -/
theorem test_bn_window :
    (hostWrite 0x01000 .two 0xABCD s0).bnA = 0xABCD ∧
    (hostWrite 0x0101F .one 0x80 s0).bnA = 0x80 * 2 ^ 248 ∧
    (hostWrite 0x01020 .one 0x80 s0).bnA = 0 ∧
    (hostRead 0x01001 .one { s0 with bnA := 0xABCD }).reply = some (.readOk 0xAB) := by
  decide +kernel
/-- 95 §2.10: writing 6 to `STATUS` clears both flags. -/
theorem test_acknowledge :
    (hostWrite 0x00008 .four 6 { s0 with done := true, drop := true }).statusWord = 0 := by
  decide +kernel
/-- 95 §2.10: a write to `ID` is ignored. -/
theorem test_write_ident : hostWrite 0x00000 .four 5 s0 = { s0 with reply := some .writeOk } := by
  decide +kernel

/-! ## Witnesses: a state and operands that meet an obligation's hypotheses, clause by clause -/

/-- A soft reset gives `MR_ROUNDS` the build's reset value (R362). -/
theorem test_reset_rounds :
    (hostWrite 0x00004 .four 4
      { s0 with params := { smallBuild with mrRoundsReset := 7 }, mrRounds := 9 }).mrRounds = 7 := by
  decide +kernel

/-- A running `MODEXP` at its start. -/
def busy0 : State := start .modexp { s0 with bnA := 7, bnB := 3, bnC := 2 }

theorem busy0_ok : busy0.Ok where
  legal := smallBuild_legal
  memWf := by decide
  memIn := by decide
  bnA := by decide +kernel
  bnB := by decide +kernel
  bnC := by decide +kernel
  bnR := by decide +kernel
  bnS := by decide +kernel
  percent := by decide
  flags := by decide
  engine := .inl ⟨rfl, rfl⟩

/-- An `ENCRYPT` job of two blocks, one of them done. -/
def halfJob : ModeJob := ⟨[List.replicate 16 1, List.replicate 16 2], 1, List.replicate 16 3, 0,
  List.replicate 16 4, some 50⟩

/-- A running `ENCRYPT.B.CBC.PKCS7.IV` after the first of two blocks. -/
def half0 : State :=
  inside (.encrypt .b .cbc .pkcs7 true) (.blocks halfJob) { keyedB with progress := 50 }

theorem half0_ok : half0.Ok where
  legal := smallBuild_legal
  memWf := by decide
  memIn := by decide
  bnA := by decide +kernel
  bnB := by decide +kernel
  bnC := by decide +kernel
  bnR := by decide +kernel
  bnS := by decide +kernel
  percent := by decide
  flags := by decide
  engine := .inr ⟨nofun, .encrypt .b .cbc .pkcs7 true, by decide, .b, .cbc, .pkcs7, true, .inl rfl,
    by decide, by decide, by decide, by decide, by decide, fun _ => by decide, by decide,
    by decide, by decide⟩

theorem witness_DecodeOfEncode : (Instr.pad .a (.unknown 4)).wellFormed = true ∧
    (Instr.decrypt .b .unknown (.unknown 7) true).wellFormed = true := by decide
theorem witness_EncodeOfDecode :
    decode 0x00010006 = .ok (.encrypt .a .ecb .zeros true) ∧ decode 0x21 = .ok .kdf := by decide
theorem witness_StepRunsTheDecodedCommand :
    busy0.engine = .running 0x18 .start ∧ decode 0x18 = .ok .modexp ∧ busy0.agenda = [] ∧
    ({ busy0 with agenda := [.engine, .rst] } : State).agenda.head? = some .engine ∧
    s0.engine = .idle ∧ s0.agenda = [] ∧
    ({ busy0 with agenda := [.access (.read 8 .four), .engine] } : State).agenda =
      .access (.read 8 .four) :: [.engine] := by decide +kernel
theorem witness_IllegalWordCompletes :
    ({ s0 with engine := .running 0x301 .start } : State).engine = .running 0x301 .start ∧
    decode 0x301 = .error .reservedCipher ∧ s0.agenda = [] ∧
    ({ s0 with agenda := [.engine] } : State).agenda.head? = some .engine := by decide +kernel
theorem witness_EveryStepKeepsOk :
    (busy0.Ok ∧ ∃ t, step busy0 = .next t) ∧ (half0.Ok ∧ ∃ t, step half0 = .next t) :=
  ⟨⟨busy0_ok, _, rfl⟩, half0_ok, _, rfl⟩
theorem witness_ResetValues :
    ({ half0 with agenda := [.rst] } : State).agenda = .rst :: [] ∧ half0.params.Legal ∧
    255 < half0.params.bufBytes ∧ locate half0.params 0x3FFFF = .reserved ∧
    locate half0.params 0x10100 = .reserved ∧ locate half0.params 0x34 = .reserved :=
  ⟨rfl, smallBuild_legal, by decide +kernel⟩
/-- Both clauses, at the edges between them. -/
theorem witness_BusErrorExactlyWhenMisalignedOrNarrow :
    ((0x3F : BitVec 18).toNat < 0x40 ∧ AccessSize.one ≠ .four) ∧
    (0x3FFFE : BitVec 18).toNat % AccessSize.four.bytes ≠ 0 ∧
    ¬((0x40 : BitVec 18).toNat % AccessSize.one.bytes ≠ 0 ∨
      ((0x40 : BitVec 18).toNat < 0x40 ∧ AccessSize.one ≠ .four)) ∧
    ¬((0x3C : BitVec 18).toNat % AccessSize.four.bytes ≠ 0 ∨
      ((0x3C : BitVec 18).toNat < 0x40 ∧ AccessSize.four ≠ .four)) := by decide +kernel
theorem witness_AcceptanceEffect : half0.engine ≠ .idle ∧ keyedB.engine = .idle := by decide
theorem witness_CmdWriteWhileBusyIsDropped : half0.busy = true ∧ busy0.busy = true := by decide
/-- The operand clause at the first and last byte of each range, in a busy state of a legal build. -/
theorem witness_HostWritesByLocation :
    half0.params.Legal ∧ half0.busy = true ∧ s0.busy = false ∧ (3 : Word32).getLsbD 2 = false ∧
    (∀ a ∈ ([0x0C, 0x10, 0x18, 0x1C, 0x20, 0x24] : List Nat),
      (hostWrite a .four 9 half0).drop = true) ∧
    (∀ a ∈ ([0x40, 0x6F, 0x1000, 0x101F, 0x1200, 0x121F, 0x1400, 0x141F, 0x10000, 0x100FF] :
      List Nat), (hostWrite a .one 9 half0).drop = true) := ⟨smallBuild_legal, by decide +kernel⟩
/-- The clauses that hold busy or idle, just outside those ranges and at `CTRL` and `STATUS`. -/
theorem witness_OtherWrites :
    (∀ s ∈ [half0, s0], ∀ a ∈ ([0x00, 0x14, 0x28, 0x2C, 0x3C] : List Nat),
      hostWrite a .four 9 s = { s with reply := some .writeOk }) ∧
    (∀ s ∈ [half0, s0], ∀ a ∈ ([0x70, 0xFFF, 0x1020, 0x1220, 0x1420, 0x1600, 0x10100, 0x20000,
      0x3FFFF] : List Nat), hostWrite a .one 9 s = { s with reply := some .writeOk }) ∧
    (∀ s ∈ [half0, s0], (hostWrite 0x04 .four 3 s).cancel = true) ∧
    (hostWrite 0x08 .four 4 { half0 with drop := true }).drop = false := by decide +kernel
/-- The last clause: each length and operand register of an idle CCC. -/
theorem witness_IdleRegisterWrites :
    (hostWrite 0x10 .four 9 s0).inLen = 9 ∧ (hostWrite 0x18 .four 9 s0).keyLen = 9 ∧
    (hostWrite 0x1C .four 9 s0).ivLen = 9 ∧ (hostWrite 0x20 .four 9 s0).mrRounds = 9 ∧
    (hostWrite 0x24 .four 9 s0).pbits = 9 := by decide +kernel
/-- The two clauses with a premise: no `KDF` and no `PFACTORS` runs. -/
theorem witness_ControlRegistersReadTheirFields :
    (∀ w ctx, busy0.engine = .running w ctx → decode w ≠ .ok .kdf) ∧
    (∀ w ctx, busy0.engine = .running w ctx → decode w ≠ .ok .pfactors) := by
  constructor <;> · rintro w ctx ⟨⟩; decide
theorem witness_SoftResetIsHardReset :
    (4 : Word32).getLsbD 2 = true ∧
    ({ half0 with agenda := [.rst] } : State).agenda = .rst :: [] ∧
    ∃ t, step { half0 with agenda := [.rst] } = .next t := ⟨by decide, rfl, _, rfl⟩
/-- The three clauses at the ends of `IN_BUF`, `KEY` and `IV`. -/
theorem witness_ArrayWritesReadBack :
    s0.params.Legal ∧ s0.engine = .idle ∧ 252 % AccessSize.four.bytes = 0 ∧
    252 + AccessSize.four.bytes ≤ s0.params.bufBytes ∧ 31 % AccessSize.one.bytes = 0 ∧
    31 + AccessSize.one.bytes ≤ 32 ∧ 14 % AccessSize.two.bytes = 0 ∧
    14 + AccessSize.two.bytes ≤ 16 := ⟨smallBuild_legal, by decide⟩
theorem witness_BigIntegerWrites :
    s0.params.Legal ∧ s0.engine = .idle ∧ 28 % AccessSize.four.bytes = 0 ∧
    28 + AccessSize.four.bytes ≤ s0.params.bnBytes ∧ s0.bnA < 2 ^ s0.params.bnBits ∧
    s0.bnB < 2 ^ s0.params.bnBits ∧ s0.bnC < 2 ^ s0.params.bnBits :=
  ⟨smallBuild_legal, by decide +kernel⟩
/-- The clauses on a running command: each end of the sets of `MODEXP` and `KDF`, inside and outside. -/
theorem witness_HostReadsByLocation :
    busy0.params.Legal ∧ busy0.engine = .running 0x18 .start ∧ decode 0x18 = .ok .modexp ∧
    (∀ a ∈ ([0x1600, 0x161F] : List Nat), busy0.peek a = none) ∧
    (∀ a ∈ ([0x15FF, 0x1620, 0x40, 0x18] : List Nat), busy0.peek a = some 0) ∧
    (∀ a ∈ ([0x18, 0x1B, 0x40, 0x4F, 0x20000, 0x200FF] : List Nat),
      (start .kdf s0).peek a = none) ∧
    (∀ a ∈ ([0x17, 0x1C, 0x3F, 0x50, 0x1FFFF, 0x20100, 0x1600] : List Nat),
      (start .kdf s0).peek a = some 0) := ⟨smallBuild_legal, by decide +kernel⟩
/-- The clauses on an idle CCC and on the data of a read. -/
theorem witness_IdleReads :
    s0.engine = .idle ∧ 31 < s0.params.bnBytes ∧ 255 < s0.params.bufBytes ∧
    s0.params.bnBytes ≤ 32 ∧ s0.params.bufBytes ≤ 256 ∧
    (hostRead 0x40 .four (withKey [1, 2, 3, 4] s0)).reply = some (.readOk 0x04030201) := by
  decide +kernel
theorem witness_CompletionSetsDone :
    (inside .modexp (.finish (.number 2)) s0).busy = true ∧
    (field (engineStep (inside .modexp (.finish (.number 2)) s0)) State.busy) = some false := by
  decide +kernel
theorem witness_EngineStepsKeepOperands :
    busy0.engine = .running 0x18 .start ∧ decode 0x18 = .ok .modexp ∧
    (∃ t, engineStep busy0 = .next t) ∧ busy0.params.Legal ∧ ctxFits busy0 .modexp .start ∧
    (∀ c, Instr.modexp ≠ .keyset c) ∧ 0x1FFFF < outBase :=
  ⟨rfl, by decide, ⟨_, rfl⟩, smallBuild_legal, trivial, nofun, by decide⟩
theorem witness_InstanceChangesOnlyByKeysetOrReset :
    half0.Ok ∧ ∃ t, step half0 = .next t := ⟨half0_ok, _, rfl⟩
/-- Both clauses: the step of the second block changes `PROGRESS` and is past the start. -/
theorem witness_ProgressRisesOnlyInModeCommands :
    half0.Ok ∧ half0.engine = .running 0x14506 (.blocks halfJob) ∧ Ctx.blocks halfJob ≠ .start ∧
    ∃ t, engineStep half0 = .next t ∧ t.progress ≠ half0.progress :=
  ⟨half0_ok, by decide, by decide, _, rfl, by decide +kernel⟩
theorem witness_CancelIsInvisibleOutsideModeCommands :
    ∀ c m p v, Instr.kdf ≠ .encrypt c m p v ∧ Instr.kdf ≠ .decrypt c m p v :=
  fun _ _ _ _ => ⟨nofun, nofun⟩
theorem witness_PadAppendsTheSchemesBytes :
    (blockSize .a = 8 ∨ blockSize .a = 16) ∧ (blockSize .b = 8 ∨ blockSize .b = 16) ∧
    ([0xFE, 0xFF] : Bytes).length = (8 - ([1, 2, 3, 4, 5] : Bytes).length % 8) - 1 ∧
    (⟨[0xFE, 0xFF, 7], 0⟩ : Entropy).pending =
      ([0xFE, 0xFF] : Bytes).map BitVec.toNat ++ [7] := by decide
theorem witness_UnpadUndoesPad :
    pad [1, 2, 3, 4, 5, 6, 7, 8] .iso10126 8 ⟨[1, 2, 3, 4, 5, 6, 7], 0⟩ =
      .ok ([1, 2, 3, 4, 5, 6, 7, 8, 1, 2, 3, 4, 5, 6, 7, 8], ⟨[], 7⟩) ∧
    pad [] .zeros 8 ⟨[], 0⟩ = .ok (List.replicate 8 0, ⟨[], 0⟩) := by decide +kernel
/-- The range of the claimed length at 1, at the block size, at the whole string and just outside, and
the outcomes inside it. -/
theorem witness_UnpadOutcomes :
    (∀ d ∈ ([[9, 1], List.replicate 8 8, [3, 3, 3]] : List Bytes),
      ∃ n < d.length, unpad d .pkcs7 8 = .ok (d.take n) ∧ unpad d .iso10126 8 = .ok (d.take n)) ∧
    (∀ d ∈ ([[9, 0], List.replicate 9 9, [3, 3], []] : List Bytes),
      unpad d .pkcs7 8 = .ok d ∧ unpad d .ansiX923 8 = .ok d ∧ unpad d .iso10126 8 = .ok d) ∧
    unpad [7, 6, 3] .pkcs7 8 = .ok [7, 6, 3] ∧ unpad [3, 7, 3] .pkcs7 8 = .error .padding ∧
    unpad [0, 0, 3] .ansiX923 8 = .ok [] ∧ unpad [0, 1, 3] .ansiX923 8 = .ok [0, 1, 3] ∧
    unpad [0, 0] .zeros 8 = .ok [] := by decide +kernel
/-- The four clauses at the edges of `IN_LEN`, in a buffer of 256 bytes. -/
theorem witness_PadCommand :
    s0.params.Legal ∧ (start (.pad .b .pkcs7) s0).engine = .running 0x4104 .start ∧
    (∃ code, PadScheme.unknown 4 = .unknown code) ∧ (∀ code, PadScheme.pkcs7 ≠ .unknown code) ∧
    s0.params.bufBytes < (257 : Word32).toNat ∧
    ((256 : Word32).toNat ≤ s0.params.bufBytes ∧
      s0.params.bufBytes < (256 : Word32).toNat + (16 - (256 : Word32).toNat % 16)) ∧
    (255 : Word32).toNat + (16 - (255 : Word32).toNat % 16) ≤ s0.params.bufBytes :=
  ⟨smallBuild_legal, by decide, ⟨4, rfl⟩, nofun, by decide, by decide, by decide⟩
/-- The four clauses, the last two on inputs of one block. -/
theorem witness_UnpadCommand :
    s0.params.Legal ∧ (start (.unpad .a .pkcs7) s0).engine = .running 0x4005 .start ∧
    (∃ code, PadScheme.unknown 7 = .unknown code) ∧ (∀ code, PadScheme.pkcs7 ≠ .unknown code) ∧
    s0.params.bufBytes < (257 : Word32).toNat ∧
    unpad (withInput [1, 2, 3, 4, 5, 3, 9, 3] s0).input .pkcs7 8 = .error .padding ∧
    unpad (withInput [1, 2, 3, 4, 5, 6, 9, 1] s0).input .pkcs7 8 =
      .ok [1, 2, 3, 4, 5, 6, 9] :=
  ⟨smallBuild_legal, by decide, ⟨7, rfl⟩, nofun, by decide, by decide +kernel, by decide +kernel⟩
/-- The clauses: a length that only the other cipher allows, a zero key, a key with one bit set in its last
byte, and a key of each length. -/
theorem witness_KeysetCommand :
    (start (.keyset .a) s0).engine = .running 0x1 .start ∧
    ¬((Cipher.a = .a ∧ 24 = 16) ∨ (Cipher.a = .b ∧ (24 = 16 ∨ 24 = 24 ∨ 24 = 32))) ∧
    (∀ x ∈ (withKey (List.replicate 16 0) s0).keyBytes, x = 0) ∧
    (∃ x ∈ (withKey (List.replicate 31 0 ++ [1]) s0).keyBytes, x ≠ 0) ∧
    (rising 0 16).length = 16 ∧ (rising 0 24).length = 24 ∧ (rising 0 32).length = 32 := by
  decide +kernel
/-- The three clauses: no instance, the other cipher's, a wrong length, and one block. -/
theorem witness_BlockCommands :
    (start (.encb .b) keyedB).engine = .running 0x102 .start ∧
    (∀ sched, s0.inst = some sched → sched.cipher ≠ .b) ∧
    (∀ sched, keyedB.inst = some sched → sched.cipher ≠ .a) ∧
    keyedB.inst = some schedB ∧ schedB.cipher = .b ∧
    (15 : Word32).toNat ≠ blockSize .b ∧ (16 : Word32).toNat = blockSize .b :=
  ⟨by decide, nofun, by rintro _ ⟨⟩; decide, rfl, rfl, by decide, by decide⟩
theorem witness_CipherABlockFunctionsInverse : (List.replicate 8 (0 : Byte)).length = 8 := by decide
theorem witness_CipherBBlockFunctionsInverse : (List.replicate 16 (0 : Byte)).length = 16 := by
  decide
theorem witness_CipherBLayersInvert : 0 < 8 ∧ 7 < 8 := by decide
/-- Block functions that invert each other, an IV, and strings of whole blocks and, for CTR, not. -/
theorem witness_ChainDecInvertsChainEnc :
    (∀ b : Bytes, b.length = 2 → (b.map (· + 3)).length = 2 ∧ (b.map (· - 3)).length = 2 ∧
      (b.map (· + 3)).map (· - 3) = b) ∧
    Mode.pcbc ≠ .unknown ∧ ([1, 2] : Bytes).length = 2 ∧ ([1, 2, 3, 4] : Bytes).length % 2 = 0 ∧
    Mode.ctr ≠ .unknown := by
  refine ⟨fun b h => ⟨by simpa using h, by simpa using h, ?_⟩, by decide, by decide, by decide,
    by decide⟩
  simp [Function.comp_def]
theorem witness_CtrBlocks :
    (∀ b : Bytes, b.length = 2 → (b.map (· + 3)).length = 2) ∧
    2 * 2 < ([1, 2, 3, 4, 5] : Bytes).length := ⟨fun b h => by simpa using h, by decide⟩
theorem witness_MessageRoundTrip :
    schedB.cipher = .b ∧ (List.replicate 16 (7 : Byte)).length = blockSize .b ∧
    pad [1] .zeros 16 ⟨[], 0⟩ = .ok (1 :: List.replicate 15 0, ⟨[], 0⟩) ∧
    ([1] : Bytes).getLast? ≠ some 0 ∧ Mode.randomDelta ≠ .unknown ∧ Mode.ecb ≠ .unknown := by
  decide +kernel
/-- Every premise of the run of `ENCRYPT`, at the largest input that fits with a generated IV. -/
theorem witness_EncryptRunsToCompletion :
    s0.params.Legal ∧ (start (.encrypt .b .cbc .pkcs7 false) keyedB).engine =
      .running 0x4506 .start ∧ keyedB.cancel = false ∧ keyedB.inst = some schedB ∧
    schedB.cipher = .b ∧ Mode.cbc ≠ .unknown ∧
    16 + (239 : Word32).toNat + (16 - (239 : Word32).toNat % 16) ≤ s0.params.bufBytes ∧
    (pad (withInput (List.replicate 239 9) keyedB).input .pkcs7 16 keyedB.entropy).isOk = true :=
  ⟨smallBuild_legal, by decide +kernel⟩
/-- The premises of the run of `DECRYPT` with the IV in front: two blocks, the second the message. -/
theorem witness_DecryptRunsToCompletion :
    s0.params.Legal ∧ (start (.decrypt .b .cbc .pkcs7 false) keyedB).engine =
      .running 0x4507 .start ∧ keyedB.cancel = false ∧ keyedB.inst = some schedB ∧
    (withInput (rising 0 32) keyedB).inLen.toNat ≤ s0.params.bufBytes ∧
    16 ≤ (withInput (rising 0 32) keyedB).input.length ∧
    rising 0 16 = (withInput (rising 0 32) keyedB).input.take 16 ∧
    rising 16 16 = (withInput (rising 0 32) keyedB).input.drop 16 ∧ rising 16 16 ≠ [] ∧
    (rising 16 16).length % 16 = 0 := ⟨smallBuild_legal, by decide +kernel⟩
/-- One state for each clause; the clauses exclude one another. -/
theorem witness_ModeCommandChecksInOrder :
    (start (.encrypt .b .unknown (.unknown 4) true) keyedB).engine = .running 0x19D06 .start ∧
    (¬∃ sched, s0.inst = some sched ∧ sched.cipher = .b) ∧
    (∃ sched, keyedB.inst = some sched ∧ sched.cipher = .b) ∧
    (∃ code, PadScheme.unknown 4 = .unknown code) ∧ (∀ code, PadScheme.zeros ≠ .unknown code) ∧
    (Mode.cbc ≠ .ecb ∧ (17 : Word32).toNat ≠ blockSize .b) ∧
    ¬(Mode.cbc ≠ .ecb ∧ true = true ∧ (16 : Word32).toNat ≠ blockSize .b) ∧
    keyedB.params.bufBytes < (257 : Word32).toNat :=
  ⟨by decide, by rintro ⟨_, ⟨⟩, _⟩, ⟨_, rfl, rfl⟩, ⟨4, rfl⟩, nofun, by decide, by decide, by decide⟩
/-- The three clauses at their edges: 240 bytes and a generated IV in 256, 31 bytes of IV and
ciphertext, 0 and 20 bytes of ciphertext. -/
theorem witness_ModeCommandLengthErrors :
    (start (.encrypt .b .cbc .pkcs7 false) keyedB).engine = .running 0x4506 .start ∧
    keyedB.inst = some schedB ∧ schedB.cipher = .b ∧
    keyedB.params.bufBytes <
      16 + (240 : Word32).toNat + (16 - (240 : Word32).toNat % 16) ∧
    (240 : Word32).toNat ≤ keyedB.params.bufBytes ∧ (31 : Word32).toNat < 2 * 16 ∧
    (0 : Word32).toNat = 0 ∧ (20 : Word32).toNat % 16 ≠ 0 := by decide +kernel
/-- The three clauses: block 1 of 2 after a report of 50, and block 1 of 150 after a report of 1. -/
theorem witness_ProgressPointReportsAndCancels :
    half0.engine = .running 0x14506 (.blocks halfJob) ∧ halfJob.next < halfJob.blocks.length ∧
    halfJob.last ≠ some (100 * (halfJob.next + 1) / halfJob.blocks.length) ∧
    half0.cancel = false ∧ ({ half0 with cancel := true } : State).cancel = true ∧
    100 * (2 + 1) / 150 = 2 ∧ 100 * (3 + 1) / 150 = 2 := by decide +kernel
theorem witness_ModExpIsPowerModulo : 1 ≤ 1 ∧ 1 ≤ 1000 := by decide
theorem witness_EveryPrimePassesTheTester :
    LegalPrimes Config.smallPrimes ∧ Nat.Prime 2 ∧ Nat.Prime 10007 :=
  ⟨Config.smallPrimes_legal, by norm_num⟩
theorem witness_TesterIsExactBelow9409 : 9408 < 9409 := by decide
theorem witness_PrimeFactorsAreTheDistinctPrimeFactors : 1 < 2 ∧ 2 ≤ 2 := by decide
/-- A refused number, 2, an accepted prime, an accepted composite (no round is run), and true primes. -/
theorem witness_PrimitiveRootSearchFindsTheLeast :
    (isProbablyPrime Config.smallPrimes 4 0 ⟨[], 0⟩).1 = false ∧
    (isProbablyPrime Config.smallPrimes 2 0 ⟨[], 0⟩).1 = true ∧
    (isProbablyPrime Config.smallPrimes 7 0 ⟨[], 0⟩).1 = true ∧
    (isProbablyPrime Config.smallPrimes (101 * 103) 0 ⟨[], 0⟩).1 = true ∧
    LegalPrimes Config.smallPrimes ∧ Nat.Prime 2 ∧ Nat.Prime 7 :=
  ⟨by decide +kernel, by decide +kernel, by decide +kernel, by decide +kernel,
    Config.smallPrimes_legal, by norm_num⟩
theorem witness_IsprimeCommand :
    s0.params.Legal ∧ (start .isprime s0).engine = .running 0x10 .start :=
  ⟨smallBuild_legal, by decide⟩
/-- The clauses at the edges of `PBITS`, from the start and after a rejected candidate, with a candidate
that is accepted and one that is not. -/
theorem witness_GenprimeCommand :
    s0.params.Legal ∧ (start .genprime s0).engine = .running 0x11 .start ∧
    (inside .genprime (.candidates 3) s0).engine = .running 0x11 (.candidates 3) ∧
    (7 : Word32).toNat < 8 ∧ 8 ≤ (8 : Word32).toNat ∧ (256 : Word32).toNat ≤ s0.params.bnBits ∧
    s0.params.bnBits < (257 : Word32).toNat ∧
    (isProbablyPrime Config.smallPrimes (0x62 ||| 2 ^ 7 ||| 1) 0 ⟨[], 1⟩).1 = true ∧
    (isProbablyPrime Config.smallPrimes (0x60 ||| 2 ^ 7 ||| 1) 0 ⟨[], 1⟩).1 = false :=
  ⟨smallBuild_legal, by decide +kernel⟩
/-- The clauses of `GENPARAMS` that go beyond `GENPRIME`'s: a rejected candidate, a root found, and an
accepted candidate that the second test refuses. -/
theorem witness_GenparamsCommand :
    (start .genparams s0).engine = .running 0x14 .start ∧
    tryCandidate Config.smallPrimes 8 0 ⟨[0x60], 0⟩ = (none, ⟨[], 1⟩) ∧
    tryCandidate Config.smallPrimes 8 0 ⟨[0x62], 0⟩ = (some 227, ⟨[], 1⟩) ∧
    findPrimitiveRoot Config.smallPrimes 227 0 ⟨[], 1⟩ = (.ok 2, ⟨[], 1⟩) ∧
    tryCandidate Config.smallPrimes 65 1 ⟨[1, 2], 0⟩ = (some (2 ^ 64 + 1), ⟨[], 2⟩) ∧
    findPrimitiveRoot Config.smallPrimes (2 ^ 64 + 1) 1 ⟨[3], 2⟩ = (.error .invalidArgument, ⟨[], 3⟩) := by
  decide +kernel
/-- The two clauses at the edge: 256 bytes hold eight 32-byte entries and not nine. -/
theorem witness_PfactorsCommand :
    s0.params.Legal ∧ (start .pfactors s0).engine = .running 0x12 .start ∧
    (primeFactors (2 * 3 * 5 * 7 * 11 * 13 * 17 * 19)).length * (s0.params.bnBits / 8) ≤
      s0.params.bufBytes ∧
    s0.params.bufBytes <
      (primeFactors (2 * 3 * 5 * 7 * 11 * 13 * 17 * 19 * 23)).length * (s0.params.bnBits / 8) :=
  ⟨smallBuild_legal, by decide +kernel⟩
theorem witness_PrimrootCommand :
    s0.params.Legal ∧ (start .primroot s0).engine = .running 0x13 .start ∧
    s0.bnA < 2 ^ s0.params.bnBits ∧
    findPrimitiveRoot Config.smallPrimes 2 40 ⟨[], 0⟩ = (.ok 1, ⟨[], 0⟩) ∧
    findPrimitiveRoot Config.smallPrimes 4 40 ⟨[], 0⟩ = (.error .invalidArgument, ⟨[], 0⟩) :=
  ⟨smallBuild_legal, by decide +kernel⟩
theorem witness_GenprivCommand :
    (start .genpriv s0).engine = .running 0x15 .start ∧ s0.bnA < 2 ^ s0.params.bnBits ∧
    ({ s0 with bnA := 3 } : State).bnA < 4 ∧ 4 ≤ ({ s0 with bnA := 4 } : State).bnA := by
  decide +kernel
theorem witness_ExponentiationCommands :
    (start .shared s0).engine = .running 0x17 .start ∧ busy0.engine = .running 0x18 .start ∧
    s0.bnA = 0 ∧ busy0.bnA ≠ 0 ∧ busy0.bnA < 2 ^ busy0.params.bnBits := by decide +kernel
theorem witness_SharedSecretsAgree :
    busy0.engine = .running 0x18 .start ∧ 2 ≤ 2 ∧ 2 < 2 ^ busy0.params.bnBits := by decide +kernel
theorem witness_MinBEIsMinimal : 256 ≠ 0 := by decide
/-- The two clauses at the edge of the buffer. -/
theorem witness_Sha256Command :
    (start .sha256 s0).engine = .running 0x20 .start ∧ s0.params.bufBytes < (257 : Word32).toNat ∧
    (256 : Word32).toNat ≤ s0.params.bufBytes := by decide
theorem witness_KdfCommand : (start .kdf s0).engine = .running 0x21 .start := by decide
/-- A failed completion keeps `IN_BUF` and leaves `OUT_BUF` unspecified (R325). -/
theorem test_failure_forgets_output :
    field (step { s0 with engine := .running 0 .start, mem := [(0x10000, 1), (0x20000, 2)] })
      (fun t => (Memory.read t.mem 0x10000, Memory.read t.mem 0x20000)) = some (some 1, none) := by
  decide +kernel

end Sys2Proof.Tests
end

section
/-! Host writes that a running command drops (spec/10_state.md R32, spec/20_memory.md R70). -/

namespace Sys2Proof.Machine

/-- The one equation of an answered host write; the address is one of the port's 18 bits (R60). -/
theorem hostWrite_of_accessOk {a : Nat} {size : AccessSize} (ha : a < 2 ^ 18)
    (hok : accessOk a size = true) (w : Word32) (s : State) :
    hostWrite a size w s = { (s.busWrite a size w) with reply := some .writeOk } := by
  have haddr : (BitVec.ofNat 18 a).toNat = a :=
    (BitVec.toNat_ofNat a 18).trans (Nat.mod_eq_of_lt ha)
  simp only [hostWrite, State.busAccess, haddr, if_pos hok]

theorem busWrite_of_busy_of_touchesOperand {a : Nat} {size : AccessSize} {s : State}
    (hbusy : s.busy = true) (hop : s.touchesOperand a size = true) (w : Word32) :
    s.busWrite a size w = { s with drop := true } := by
  obtain ⟨_, _, heq⟩ | ⟨hnot, _⟩ | ⟨hnot, _⟩ := busWrite_cases a size w s
  · exact heq
  · exact absurd ⟨hbusy, hop⟩ hnot
  · exact absurd ⟨hbusy, hop⟩ hnot

theorem hostWrite_of_busy_of_touchesOperand {a : Nat} {size : AccessSize} {s : State}
    (ha : a < 2 ^ 18) (hok : accessOk a size = true) (hbusy : s.busy = true)
    (hop : s.touchesOperand a size = true) (w : Word32) :
    hostWrite a size w s = { s with drop := true, reply := some .writeOk } := by
  rw [hostWrite_of_accessOk ha hok, busWrite_of_busy_of_touchesOperand hbusy hop]

/-- A write covers an operand as soon as the byte at its own address is one. -/
theorem touchesOperand_of_isOperand {a : Nat} {s : State} (size : AccessSize)
    (h : (locate s.params a).isOperand = true) : s.touchesOperand a size = true := by
  have hfirst : 0 ∈ List.range size.bytes := List.mem_range.mpr (by cases size <;> decide)
  exact List.any_eq_true.mpr ⟨0, hfirst, h⟩

theorem locate_cmd (p : Params) : locate p 0x0000C = .cmd := locate_control p (by decide)

/-- Settles O13: `CMD` is an operand location, so a busy CCC drops the write (R70). -/
theorem cmdWriteWhileBusyIsDropped : Obligations.CmdWriteWhileBusyIsDropped := by
  intro s w hbusy
  have hcmd : (locate s.params 0x0000C).isOperand = true := by rw [locate_cmd]; rfl
  exact hostWrite_of_busy_of_touchesOperand (by decide) (by decide) hbusy
    (touchesOperand_of_isOperand .four hcmd) w

end Sys2Proof.Machine
end

section
/-! Which host accesses the port answers `BUSERR` (spec/20_memory.md R64 to R67). -/

namespace Sys2Proof.Machine

theorem accessOk_iff (a : Nat) (size : AccessSize) :
    accessOk a size = true ↔ a % size.bytes = 0 ∧ (0x40 ≤ a ∨ size = .four) := by
  simp only [accessOk, Bool.and_eq_true, Bool.or_eq_true, decide_eq_true_eq, beq_iff_eq]

/-- The accesses answered `BUSERR` are the misaligned ones and the narrow ones of a control register. -/
theorem accessOk_eq_false_iff (a : Nat) (size : AccessSize) :
    accessOk a size = false ↔ a % size.bytes ≠ 0 ∨ (a < 0x40 ∧ size ≠ .four) := by
  rw [← Bool.not_eq_true, accessOk_iff, not_and_or, not_or, Nat.not_le]

@[simp] theorem busRead_reply (a : Nat) (size : AccessSize) (s : State) :
    (s.busRead a size).reply = some (.readOk (BitVec.ofNat 32 (leNat
      (resolve ((List.range size.bytes).map fun k => s.peek (a + k)) s.freeCount).1))) := rfl

theorem busAccess_read_of_accessOk {addr : BitVec 18} {size : AccessSize}
    (hok : accessOk addr.toNat size = true) (s : State) :
    s.busAccess (.read addr size) = s.busRead addr.toNat size := if_pos hok

theorem busAccess_write_of_accessOk {addr : BitVec 18} {size : AccessSize}
    (hok : accessOk addr.toNat size = true) (w : Word32) (s : State) :
    s.busAccess (.write addr size w) =
      { (s.busWrite addr.toNat size w) with reply := some .writeOk } := if_pos hok

theorem busAccess_read_of_not_accessOk {addr : BitVec 18} {size : AccessSize}
    (hbad : accessOk addr.toNat size = false) (s : State) :
    s.busAccess (.read addr size) = { s with reply := some .busErr } :=
  if_neg (Bool.eq_false_iff.mp hbad)

theorem busAccess_write_of_not_accessOk {addr : BitVec 18} {size : AccessSize}
    (hbad : accessOk addr.toNat size = false) (w : Word32) (s : State) :
    s.busAccess (.write addr size w) = { s with reply := some .busErr } :=
  if_neg (Bool.eq_false_iff.mp hbad)

/-- Settles O11, by whether the port accepts the access: a refused one leaves only the `BUSERR` reply,
an accepted read replies with data and an accepted write with `OK`. -/
theorem busErrorExactlyWhenMisalignedOrNarrow :
    Obligations.BusErrorExactlyWhenMisalignedOrNarrow := by
  intro s addr size w bad
  have hbad : accessOk addr.toNat size = false ↔ bad := accessOk_eq_false_iff addr.toNat size
  constructor
  · intro h
    have href := hbad.mpr h
    exact ⟨busAccess_read_of_not_accessOk href s, busAccess_write_of_not_accessOk href w s, rfl⟩
  · intro h
    have hok : accessOk addr.toNat size = true := Bool.of_not_eq_false (mt hbad.mp h)
    constructor
    · rw [busAccess_read_of_accessOk hok, busRead_reply]
      simp
    · rw [busAccess_write_of_accessOk hok]

end Sys2Proof.Machine
end

section
/-! The padded string of each scheme (spec/40_padding.md R120 to R125). -/

namespace Sys2Proof.Machine

/-- `n` of R121 is the block size exactly when the string is made of whole blocks. -/
theorem padLength_eq_iff {bs : Nat} (len : Nat) (h : 0 < bs) :
    padLength len bs = bs ↔ len % bs = 0 := by
  have hlt := Nat.mod_lt len h
  unfold padLength
  omega

theorem padLength_le (len bs : Nat) : padLength len bs ≤ bs := Nat.sub_le _ _

/-- `DrawByte` takes the port's next answer when that answer is a byte (R19). -/
theorem Entropy.draw_byte {e : Entropy} {b : Byte} {rest : List Nat}
    (h : e.pending = b.toNat :: rest) : e.draw 0 255 = (b.toNat, ⟨rest, e.drawn + 1⟩) := by
  have hb : 0 ≤ b.toNat ∧ b.toNat ≤ 255 := ⟨Nat.zero_le _, Nat.le_of_lt_succ b.isLt⟩
  simp [Entropy.draw, h, inRange_of_mem hb]

/-- The draws are the port's answers in order, when these are bytes (R19). -/
theorem Entropy.drawBytes_of_pending {e : Entropy} {r : Bytes} {rest : List Nat}
    (h : e.pending = r.map BitVec.toNat ++ rest) :
    e.drawBytes r.length = (r, ⟨rest, e.drawn + r.length⟩) := by
  induction r generalizing e with
  | nil =>
    obtain ⟨pending, drawn⟩ := e
    cases h
    rfl
  | cons b r ih =>
    have hdraw : e.draw 0 255 = (b.toNat, ⟨r.map BitVec.toNat ++ rest, e.drawn + 1⟩) :=
      Entropy.draw_byte h
    have hrest := @ih ⟨r.map BitVec.toNat ++ rest, e.drawn + 1⟩ rfl
    simp [Entropy.drawBytes, hdraw, hrest, Nat.add_assoc, Nat.add_comm 1]

theorem pad_zeros (d : Bytes) (bs : Nat) (e : Entropy) :
    pad d .zeros bs e = .ok (d ++ List.replicate (padLength d.length bs) 0, e) := rfl

theorem pad_ansiX923 (d : Bytes) (bs : Nat) (e : Entropy) :
    pad d .ansiX923 bs e = .ok (d ++ List.replicate (padLength d.length bs - 1) 0 ++
      [padByte (padLength d.length bs)], e) := rfl

theorem pad_pkcs7 (d : Bytes) (bs : Nat) (e : Entropy) :
    pad d .pkcs7 bs e = .ok (d ++ List.replicate (padLength d.length bs)
      (padByte (padLength d.length bs)), e) := rfl

theorem pad_iso10126 (d : Bytes) (bs : Nat) (e : Entropy) :
    pad d .iso10126 bs e = .ok (d ++ (e.drawBytes (padLength d.length bs - 1)).1 ++
      [padByte (padLength d.length bs)], (e.drawBytes (padLength d.length bs - 1)).2) := rfl

theorem pad_unknown (d : Bytes) (code : BitVec 3) (bs : Nat) (e : Entropy) :
    pad d (.unknown code) bs e = .error .padding := rfl

/-- Settles O26: the bounds of `n`, then the equation of each scheme; the ISO_10126 bytes are the port's
answers by `Entropy.drawBytes_of_pending`. -/
theorem padAppendsTheSchemesBytes : Obligations.PadAppendsTheSchemesBytes := by
  intro d bs e hbs n
  have hpos : 0 < bs := by omega
  obtain ⟨hn, hmod⟩ := padLength_spec d.length bs hpos
  refine ⟨⟨hn, padLength_le _ _, hmod, padLength_eq_iff _ hpos⟩, pad_zeros d bs e,
    pad_ansiX923 d bs e, pad_pkcs7 d bs e, pad_iso10126 d bs e, ?_, fun code => pad_unknown d code bs e⟩
  intro r rest hlen hpending
  have hdraw : e.drawBytes (n - 1) = (r, ⟨rest, e.drawn + (n - 1)⟩) :=
    hlen ▸ Entropy.drawBytes_of_pending hpending
  calc pad d .iso10126 bs e
      = .ok (d ++ (e.drawBytes (n - 1)).1 ++ [BitVec.ofNat 8 n], (e.drawBytes (n - 1)).2) :=
        pad_iso10126 d bs e
    _ = .ok (d ++ r ++ [BitVec.ofNat 8 n], ⟨rest, e.drawn + (n - 1)⟩) := by rw [hdraw]

end Sys2Proof.Machine
end

section
/-! What each scheme strips from a string (spec/40_padding.md R126, R129 to R132). -/

namespace Sys2Proof.Machine

/-! ## ZEROS -/

theorem unpadZeros_eq_rdropWhile (d : Bytes) : unpadZeros d = d.rdropWhile (· == 0) := rfl

/-- What ZEROS removes is a run of zero bytes (R129). -/
theorem unpadZeros_append_zeros (d : Bytes) : ∃ k, d = unpadZeros d ++ List.replicate k 0 := by
  have hzeros : d.rtakeWhile (· == 0) = List.replicate (d.rtakeWhile (· == 0)).length 0 :=
    List.eq_replicate_of_mem fun x hx =>
      eq_of_beq (List.mem_rtakeWhile_imp (p := (· == (0 : Byte))) hx)
  refine ⟨(d.rtakeWhile (· == 0)).length, ?_⟩
  rw [unpadZeros_eq_rdropWhile, ← hzeros]
  exact List.rdropWhile_append_rtakeWhile.symm

/-- ZEROS leaves no trailing zero byte (R129). -/
theorem unpadZeros_getLast?_ne_zero (d : Bytes) : (unpadZeros d).getLast? ≠ some 0 := by
  rw [unpadZeros_eq_rdropWhile]
  intro h
  obtain ⟨hne, hlast⟩ := List.mem_getLast?_eq_getLast h
  exact List.rdropWhile_last_not _ d hne (beq_iff_eq.mpr hlast.symm)

/-! ## The claimed pad length -/

theorem padByte_toNat (b : Byte) : padByte b.toNat = b := by simp [padByte]

theorem claimedPad_nil (bs : Nat) : claimedPad [] bs = none := rfl

/-- A string that ends in `b` claims the pad length `b`, when that is in range (R126). -/
theorem claimedPad_concat (q : Bytes) (b : Byte) (bs : Nat) :
    claimedPad (q ++ [b]) bs =
      if 1 ≤ b.toNat ∧ b.toNat ≤ bs ∧ b.toNat ≤ (q ++ [b]).length then some b.toNat else none := by
  simp only [claimedPad, List.getLast?_concat]

/-- Without a claimed length the three schemes that read one return the string (R126). -/
theorem unpad_of_claimedPad_none {d : Bytes} {bs : Nat} (h : claimedPad d bs = none) :
    unpad d .ansiX923 bs = .ok d ∧ unpad d .pkcs7 bs = .ok d ∧ unpad d .iso10126 bs = .ok d := by
  simp only [unpad, unpadAnsi, unpadPkcs7, unpadIso, h, and_self]

/-! ## A claimed length in range -/

section InRange
variable {q : Bytes} {b : Byte} {bs : Nat}
  (h : 1 ≤ b.toNat ∧ b.toNat ≤ bs ∧ b.toNat ≤ (q ++ [b]).length)
include h

theorem claimedPad_of_inRange : claimedPad (q ++ [b]) bs = some b.toNat := by
  rw [claimedPad_concat, if_pos h]

/-- The claimed bytes are those of `q` among them, and the last byte. -/
theorem drop_claimed_eq : (q ++ [b]).drop ((q ++ [b]).length - b.toNat) =
    q.drop ((q ++ [b]).length - b.toNat) ++ [b] := by
  refine List.drop_append_of_le_length ?_
  rw [List.length_append, List.length_singleton]
  omega

/-- The claimed bytes but the last, as ANSI_X923 and PKCS7 read them. -/
theorem slice_claimed_eq : slice (q ++ [b]) ((q ++ [b]).length - b.toNat) (b.toNat - 1) =
    q.drop ((q ++ [b]).length - b.toNat) := by
  have hlen : (q.drop ((q ++ [b]).length - b.toNat)).length = b.toNat - 1 := by
    simp only [List.length_drop, List.length_append, List.length_singleton] at h ⊢
    omega
  rw [slice, drop_claimed_eq h]
  exact List.take_left' hlen

/-- R130: ANSI_X923 strips the claimed bytes when all of them but the last are zero. -/
theorem unpad_ansiX923_of_inRange : unpad (q ++ [b]) .ansiX923 bs =
    .ok (if ∀ x ∈ q.drop ((q ++ [b]).length - b.toNat), x = 0
      then (q ++ [b]).take ((q ++ [b]).length - b.toNat) else q ++ [b]) := by
  simp only [unpad, unpadAnsi, claimedPad_of_inRange h, slice_claimed_eq h, List.all_eq_true,
    beq_iff_eq]

/-- R131: PKCS7 strips the claimed bytes when all of them are the claimed length, and raises when only
some of them before the last are. -/
theorem unpad_pkcs7_of_inRange : unpad (q ++ [b]) .pkcs7 bs =
    if ∀ x ∈ q.drop ((q ++ [b]).length - b.toNat), x = b
      then .ok ((q ++ [b]).take ((q ++ [b]).length - b.toNat))
    else if ∃ x ∈ q.drop ((q ++ [b]).length - b.toNat), x = b then .error .padding
    else .ok (q ++ [b]) := by
  simp only [unpad, unpadPkcs7, claimedPad_of_inRange h, drop_claimed_eq h, slice_claimed_eq h,
    padByte_toNat, List.all_append, List.all_cons, List.all_nil, BEq.rfl, Bool.and_true,
    List.all_eq_true, List.any_eq_true, beq_iff_eq]

/-- R132: ISO_10126 strips the claimed bytes, whatever they are. -/
theorem unpad_iso10126_of_inRange : unpad (q ++ [b]) .iso10126 bs =
    .ok ((q ++ [b]).take ((q ++ [b]).length - b.toNat)) := by
  simp only [unpad, unpadIso, claimedPad_of_inRange h]

end InRange

theorem unpad_unknown (d : Bytes) (code : BitVec 3) (bs : Nat) :
    unpad d (.unknown code) bs = .error .padding := rfl

/-- Settles O28, by the scheme and by whether the last byte claims a pad length in range. -/
theorem unpadOutcomes : Obligations.UnpadOutcomes := by
  intro d bs _
  refine ⟨?zeros, ?lastByte, ?empty, fun code => unpad_unknown d code bs⟩
  case zeros =>
    obtain ⟨k, hk⟩ := unpadZeros_append_zeros d
    exact ⟨unpadZeros d, k, rfl, hk, unpadZeros_getLast?_ne_zero d⟩
  case empty =>
    rintro rfl
    exact unpad_of_claimedPad_none (claimedPad_nil bs)
  case lastByte =>
    rintro q b rfl
    constructor
    · intro h
      have hansi := unpad_ansiX923_of_inRange h
      have hpkcs := unpad_pkcs7_of_inRange h
      refine ⟨fun hzero => ?_, fun ⟨x, hx, hne⟩ => ?_, fun hall => ?_, fun ⟨x, hx, hne⟩ hnone => ?_,
        fun ⟨x, hx, hne⟩ hsome => ?_, unpad_iso10126_of_inRange h⟩
      · rw [hansi, if_pos hzero]
      · rw [hansi, if_neg fun hzero => hne (hzero x hx)]
      · rw [hpkcs, if_pos hall]
      · rw [hpkcs, if_neg fun hall => hne (hall x hx), if_neg fun ⟨y, hy, heq⟩ => hnone y hy heq]
      · rw [hpkcs, if_neg fun hall => hne (hall x hx), if_pos hsome]
    · intro h
      exact unpad_of_claimedPad_none ((claimedPad_concat q b bs).trans (if_neg h))

end Sys2Proof.Machine
end

section
/-! The key stream of CTR mode, block by block (spec/41_modes.md R156, R158, R159). -/

namespace Sys2Proof.Machine

/-! ## Slices -/

@[simp] theorem slice_zero (b : Bytes) (n : Nat) : slice b 0 n = b.take n := rfl

theorem slice_drop (b : Bytes) (k i n : Nat) : slice (b.drop k) i n = slice b (k + i) n := by
  rw [slice, slice, List.drop_drop]

theorem slice_append_add {a : Bytes} {k : Nat} (h : a.length = k) (b : Bytes) (i n : Nat) :
    slice (a ++ b) (k + i) n = slice b i n := by
  rw [slice, slice, ← h, List.drop_length_add_append]

/-! ## Blocks of a string -/

theorem chunks_nil {bs : Nat} (h : 0 < bs) : chunks bs [] = [] := by
  simp only [chunks, List.length_nil, Nat.zero_add, Nat.div_eq_of_lt (Nat.sub_one_lt h.ne'),
    List.range_zero, List.map_nil]

/-- A nonempty string has one block more than the string without its first `bs` bytes. -/
theorem blockCount_of_ne_nil {bs : Nat} {b : Bytes} (h : 0 < bs) (hb : b ≠ []) :
    (b.length + bs - 1) / bs = ((b.drop bs).length + bs - 1) / bs + 1 := by
  have hlen : 0 < b.length := List.length_pos_iff.mpr hb
  have hcount : (b.length + bs - 1) / bs = (b.length - 1) / bs + 1 := by
    rw [Nat.sub_add_comm hlen, Nat.add_div_right _ h]
  rw [hcount, List.length_drop]
  rcases Nat.le_total bs b.length with hle | hle
  · rw [Nat.sub_add_cancel hle]
  · rw [Nat.div_eq_of_lt (by omega), Nat.div_eq_of_lt (by omega)]

/-- The blocks of a nonempty string: its first `bs` bytes, then the blocks of the rest (R140). -/
theorem chunks_of_ne_nil {bs : Nat} {b : Bytes} (h : 0 < bs) (hb : b ≠ []) :
    chunks bs b = b.take bs :: chunks bs (b.drop bs) := by
  have hshift (i : Nat) : slice b ((i + 1) * bs) bs = slice (b.drop bs) (i * bs) bs := by
    rw [slice_drop, Nat.succ_mul, Nat.add_comm]
  simp only [chunks, blockCount_of_ne_nil h hb, List.range_succ_eq_map, List.map_cons, List.map_map,
    Function.comp_def, Nat.succ_eq_add_one, hshift, Nat.zero_mul, slice_zero]

/-! ## A CTR run from block `i` on -/

@[simp] theorem chainRun_nil (f : Nat → Bytes → Bytes → Bytes × Bytes) (i : Nat) (chain : Bytes) :
    chainRun f i chain [] = [] := rfl

theorem chainRun_cons (f : Nat → Bytes → Bytes → Bytes × Bytes) (i : Nat) (chain x : Bytes)
    (rest : List Bytes) :
    chainRun f i chain (x :: rest) = (f i chain x).1 ++ chainRun f (i + 1) (f i chain x).2 rest := rfl

/-- What CTR encryption makes of the string `p` when the first block of `p` has index `i`. -/
def ctrRun (enc : BlockFn) (bs ctr0 i : Nat) (chain p : Bytes) : Bytes :=
  chainRun (chainEncBlock .ctr enc bs ctr0) i chain (chunks bs p)

theorem chainEnc_ctr (enc : BlockFn) (bs : Nat) (iv p : Bytes) :
    chainEnc .ctr enc bs iv p = ctrRun enc bs (beNat iv) 0 iv p := rfl

theorem ctrBlock_length (bs ctr0 i : Nat) : (ctrBlock bs ctr0 i).length = bs := toBE_length _ _

theorem ctrRun_nil {bs : Nat} (h : 0 < bs) (enc : BlockFn) (ctr0 i : Nat) (chain : Bytes) :
    ctrRun enc bs ctr0 i chain [] = [] := by
  rw [ctrRun, chunks_nil h, chainRun_nil]

/-- One block of the run: CTR keeps the chaining variable and raises the index (R156, R158). -/
theorem ctrRun_of_ne_nil {bs : Nat} {p : Bytes} (h : 0 < bs) (hp : p ≠ []) (enc : BlockFn)
    (ctr0 i : Nat) (chain : Bytes) :
    ctrRun enc bs ctr0 i chain p =
      xorBytes (p.take bs) (enc (ctrBlock bs ctr0 i)) ++
        ctrRun enc bs ctr0 (i + 1) chain (p.drop bs) := by
  rw [ctrRun, chunks_of_ne_nil h hp, chainRun_cons]
  rfl

section Run
variable {enc : BlockFn} {bs : Nat} (hbs : 0 < bs)
  (henc : ∀ b : Bytes, b.length = bs → (enc b).length = bs)

include henc in
/-- A block of output is as long as its input, short or whole (R159). -/
theorem xorBytes_keyStream_length (ctr0 i : Nat) (p : Bytes) :
    (xorBytes (p.take bs) (enc (ctrBlock bs ctr0 i))).length = (p.take bs).length := by
  rw [xorBytes_length, henc _ (ctrBlock_length bs ctr0 i), List.length_take]
  omega

include hbs henc

theorem ctrRun_length (ctr0 i : Nat) (chain p : Bytes) :
    (ctrRun enc bs ctr0 i chain p).length = p.length := by
  by_cases hp : p = []
  · rw [hp, ctrRun_nil hbs]
  · have hpos : 0 < p.length := List.length_pos_iff.mpr hp
    rw [ctrRun_of_ne_nil hbs hp, List.length_append, xorBytes_keyStream_length henc,
      ctrRun_length ctr0 (i + 1) chain (p.drop bs), ← List.length_append, List.take_append_drop]
termination_by p.length
decreasing_by rw [List.length_drop]; omega

/-- The first `bs` bytes of a run are its first block, which ends the run when it is short. -/
theorem ctrRun_take (ctr0 i : Nat) (chain : Bytes) {p : Bytes} (hp : p ≠ []) :
    (ctrRun enc bs ctr0 i chain p).take bs =
      xorBytes (p.take bs) (enc (ctrBlock bs ctr0 i)) := by
  have hfirst := xorBytes_keyStream_length henc ctr0 i p
  rw [ctrRun_of_ne_nil hbs hp]
  rcases Nat.le_total bs p.length with hle | hle
  · exact List.take_left' (by rw [hfirst, List.length_take_of_le hle])
  · rw [List.drop_eq_nil_of_le hle, ctrRun_nil hbs, List.append_nil]
    exact List.take_of_length_le (by rw [hfirst]; exact List.length_take_le _ _)

/-- Block `j` of a run that starts at index `i` is XORed with the key stream's block `i + j`. -/
theorem ctrRun_slice (ctr0 i j : Nat) (chain : Bytes) {p : Bytes} (hj : j * bs < p.length) :
    slice (ctrRun enc bs ctr0 i chain p) (j * bs) bs =
      xorBytes (slice p (j * bs) bs) (enc (ctrBlock bs ctr0 (i + j))) := by
  have hp : p ≠ [] := List.ne_nil_of_length_pos (Nat.zero_lt_of_lt hj)
  induction j generalizing i p with
  | zero => rw [Nat.zero_mul, slice_zero, slice_zero, ctrRun_take hbs henc _ _ _ hp, Nat.add_zero]
  | succ j ih =>
    have hoff : (j + 1) * bs = bs + j * bs := by rw [Nat.succ_mul, Nat.add_comm]
    have hrest : j * bs < (p.drop bs).length := by rw [List.length_drop]; omega
    have hfirst : (xorBytes (p.take bs) (enc (ctrBlock bs ctr0 i))).length = bs := by
      rw [xorBytes_keyStream_length henc, List.length_take_of_le (by omega)]
    calc slice (ctrRun enc bs ctr0 i chain p) ((j + 1) * bs) bs
        = slice (ctrRun enc bs ctr0 (i + 1) chain (p.drop bs)) (j * bs) bs := by
          rw [ctrRun_of_ne_nil hbs hp, hoff, slice_append_add hfirst]
      _ = xorBytes (slice (p.drop bs) (j * bs) bs) (enc (ctrBlock bs ctr0 (i + 1 + j))) :=
          ih (i + 1) hrest (List.ne_nil_of_length_pos (Nat.zero_lt_of_lt hrest))
      _ = xorBytes (slice p ((j + 1) * bs) bs) (enc (ctrBlock bs ctr0 (i + (j + 1)))) := by
          rw [slice_drop, hoff, Nat.add_assoc, Nat.add_comm 1 j]

end Run

/-- Settles O37: `ctrRun_length` and `ctrRun_slice` for the run that starts at block 0. -/
theorem ctrBlocks : Obligations.CtrBlocks := by
  intro enc bs iv p hbs henc
  rw [chainEnc_ctr]
  refine ⟨ctrRun_length hbs henc (beNat iv) 0 iv p, fun i hi => ?_⟩
  have hblock := ctrRun_slice hbs henc (beNat iv) 0 i iv hi
  rwa [Nat.zero_add] at hblock

end Sys2Proof.Machine
end

section
/-! The big-endian string without a leading zero byte (spec/46_kdf.md R301). -/

namespace Sys2Proof.Machine

theorem bitLen_le_iff (x k : Nat) : bitLen x ≤ k ↔ x < 2 ^ k := by
  unfold bitLen
  split
  next hzero => simp only [hzero, Nat.zero_le, Nat.two_pow_pos]
  next hpos => exact Nat.log2_lt hpos

@[simp] theorem minBE_length (x : Nat) : (minBE x).length = (bitLen x + 7) / 8 := toBE_length _ _

/-- `minBE` is of least length: it fits in `n` bytes exactly when the number does. -/
theorem minBE_length_le_iff (x n : Nat) : (minBE x).length ≤ n ↔ x < 256 ^ n := by
  have hbits : (bitLen x + 7) / 8 ≤ n ↔ bitLen x ≤ 8 * n := by omega
  rw [minBE_length, hbits, bitLen_le_iff, pow_mul]
  rfl

theorem beNat_minBE (x : Nat) : beNat (minBE x) = x := by
  have hfits : x < 256 ^ ((bitLen x + 7) / 8) :=
    (minBE_length_le_iff x _).mp (minBE_length x).le
  rw [minBE, beNat_toBE, Nat.mod_eq_of_lt hfits]

theorem beNat_lt (b : Bytes) : beNat b < 256 ^ b.length := by
  rw [beNat_eq, ← List.length_reverse]
  exact leNat_lt b.reverse

@[simp] theorem beNat_zero_cons (b : Bytes) : beNat (0 :: b) = beNat b := rfl

/-- Behind a leading zero byte the rest would be a shorter string of the same value. -/
theorem minBE_head?_ne_zero (x : Nat) : (minBE x).head? ≠ some 0 := by
  intro hhead
  obtain ⟨rest, hrest⟩ := List.head?_eq_some_iff.mp hhead
  have hvalue : beNat rest = x := by rw [← beNat_zero_cons, ← hrest, beNat_minBE]
  have hshorter : (minBE x).length ≤ rest.length :=
    (minBE_length_le_iff x _).mpr (hvalue ▸ beNat_lt rest)
  rw [hrest, List.length_cons] at hshorter
  exact Nat.not_succ_le_self _ hshorter

/-- Settles O57: `beNat_minBE`, `minBE_head?_ne_zero` and `minBE_length`. -/
theorem minBEIsMinimal : Obligations.MinBEIsMinimal := by
  intro x
  refine ⟨beNat_minBE x, minBE_head?_ne_zero x, rfl, fun hx => ?_⟩
  rw [minBE_length, bitLen, if_neg hx]

end Sys2Proof.Machine
end

section
/-! What the host sees after a reset (spec/70_reset_and_hazards.md R362), through the bytes and
control words of the bus port (spec/10_state.md R23 to R48). -/

namespace Sys2Proof.Machine

/-! ## Bytes seen on the port -/

@[simp] theorem byteOfWord_zero (k : Nat) : byteOfWord 0 k = 0 := BitVec.extractLsb'_zero

/-- An idle CCC hides no location (R71). -/
theorem hidden_of_idle {s : State} (hidle : s.engine = .idle) (l : Loc) : s.hidden l = false := by
  simp only [State.hidden, hidle]

theorem peek_control {s : State} {a : Nat} (ha : a < 0x40)
    (hvis : s.hidden (controlLoc (a / 4)) = false) :
    s.peek a = some (byteOfWord (s.controlWord (controlLoc (a / 4))) (a % 4)) := by
  rw [State.peek, locate_control _ ha, hvis, if_neg Bool.false_ne_true]
  fun_cases controlLoc (a / 4) <;> rfl

/-- Reserved locations read 0 (R68). -/
theorem peek_reserved {s : State} {a : Nat} (hloc : locate s.params a = .reserved)
    (hvis : s.hidden .reserved = false) : s.peek a = some 0 := by
  rw [State.peek, hloc, hvis, if_neg Bool.false_ne_true]
  exact congrArg some (byteOfWord_zero _)

/-- Each byte of `IN_BUF` shows what the buffers hold at its address (R47). -/
theorem peek_inBuf {s : State} {i : Nat} (hlegal : s.params.Legal) (hi : i < s.params.bufBytes)
    (hvis : s.hidden (.inBuf i) = false) :
    s.peek (inBase + i) = Memory.read s.mem (inBase + i) := by
  obtain ⟨⟨_, _, _, _, hmax, _⟩, _⟩ := hlegal
  have hin : inBase + i < outBase := Nat.add_lt_add_left (hi.trans_le hmax) inBase
  have hloc : locate s.params (inBase + i) = .inBuf i := by
    rw [locate_inBuf _ (Nat.le_add_right _ _) hin, Nat.add_sub_cancel_left, windowLoc, if_pos hi]
  rw [State.peek, hloc, hvis, if_neg Bool.false_ne_true]

/-- Each byte of `OUT_BUF` shows what the buffers hold at its address (R48). -/
theorem peek_outBuf {s : State} {i : Nat} (hlegal : s.params.Legal) (hi : i < s.params.bufBytes)
    (hvis : s.hidden (.outBuf i) = false) :
    s.peek (outBase + i) = Memory.read s.mem (outBase + i) := by
  obtain ⟨⟨_, _, _, _, hmax, _⟩, _⟩ := hlegal
  have hout : outBase + i < outEnd := Nat.add_lt_add_left (hi.trans_le hmax) outBase
  have hloc : locate s.params (outBase + i) = .outBuf i := by
    rw [locate_outBuf _ (Nat.le_add_right _ _) hout, Nat.add_sub_cancel_left, windowLoc, if_pos hi]
  rw [State.peek, hloc, hvis, if_neg Bool.false_ne_true]

/-! ## Control words seen on the port -/

/-- The four bytes of a word, put together again (R62). -/
theorem ofNat_leNat_byteOfWord (w : Word32) :
    BitVec.ofNat 32 (leNat ((List.range 4).map (byteOfWord w))) = w := by
  have hbytes : (List.range 4).map (byteOfWord w) = toLE w.toNat 4 := rfl
  have hfits : w.toNat < 256 ^ 4 := w.isLt
  rw [hbytes, leNat_toLE, Nat.mod_eq_of_lt hfits, BitVec.ofNat_toNat, BitVec.setWidth_eq]

theorem hostRead_control {s : State} {i : Nat} (hi : i < 16)
    (hvis : s.hidden (controlLoc i) = false) :
    (hostRead (4 * i) .four s).reply = some (.readOk (s.controlWord (controlLoc i))) := by
  have haddr : (BitVec.ofNat 18 (4 * i)).toNat = 4 * i := Nat.mod_eq_of_lt (by omega)
  have hok : accessOk (BitVec.ofNat 18 (4 * i)).toNat .four = true := by
    rw [haddr]
    exact (accessOk_iff _ _).mpr ⟨Nat.mul_mod_right 4 i, .inr rfl⟩
  have hpeek : ∀ k ∈ List.range 4,
      s.peek (4 * i + k) = some (byteOfWord (s.controlWord (controlLoc i)) k) := by
    intro k hk
    have hk4 : k < 4 := List.mem_range.mp hk
    have hdiv : (4 * i + k) / 4 = i := by omega
    have hmod : (4 * i + k) % 4 = k := by omega
    have hbyte := @peek_control s (4 * i + k) (by omega)
    rw [hdiv, hmod] at hbyte
    exact hbyte hvis
  have hcells : (List.range 4).map (fun k => s.peek (4 * i + k)) =
      ((List.range 4).map (byteOfWord (s.controlWord (controlLoc i)))).map some := by
    rw [List.map_congr_left hpeek, List.map_map]
    rfl
  rw [hostRead, busAccess_read_of_accessOk hok, busRead_reply, haddr, AccessSize.bytes, hcells,
    resolve_some, ofNat_leNat_byteOfWord]

/-! ## After a reset -/

@[simp] theorem State.doReset_ctrlWord (s : State) : s.doReset.ctrlWord = 0 := by
  rw [State.ctrlWord, doReset_irqEn, doReset_cancel]
  decide

@[simp] theorem State.doReset_statusWord (s : State) : s.doReset.statusWord = 0 := by
  have hbusy : s.doReset.busy = false := State.busy_of_idle s.doReset_engine
  rw [State.statusWord, State.errCode, State.instC, State.keyValid, doReset_progress, doReset_err,
    doReset_inst, doReset_drop, doReset_done, hbusy]
  decide

@[simp] theorem State.doReset_irq (s : State) : s.doReset.irq = false := rfl
@[simp] theorem State.doReset_hidden (s : State) (l : Loc) : s.doReset.hidden l = false :=
  hidden_of_idle s.doReset_engine l

theorem State.doReset_key_get (s : State) (i : Fin 32) : s.doReset.key.get i = 0 :=
  Vector.getElem_replicate i.isLt

theorem State.doReset_iv_get (s : State) (i : Fin 16) : s.doReset.iv.get i = 0 :=
  Vector.getElem_replicate i.isLt

/-- Every byte of both buffers is unspecified after a reset (R362). -/
theorem State.doReset_peek_buffers {s : State} {i : Nat} (hlegal : s.params.Legal)
    (hi : i < s.params.bufBytes) :
    s.doReset.peek (inBase + i) = none ∧ s.doReset.peek (outBase + i) = none :=
  ⟨peek_inBuf (s := s.doReset) hlegal hi (s.doReset_hidden _),
    peek_outBuf (s := s.doReset) hlegal hi (s.doReset_hidden _)⟩

theorem State.doReset_hostRead {i : Nat} (hi : i < 16) (s : State) :
    (hostRead (4 * i) .four s.doReset).reply =
      some (.readOk (s.doReset.controlWord (controlLoc i))) :=
  hostRead_control hi (s.doReset_hidden _)

theorem State.doReset_peek_reserved {s : State} {a : Nat}
    (hloc : locate s.params a = .reserved) : s.doReset.peek a = some 0 :=
  peek_reserved (s := s.doReset) hloc (s.doReset_hidden _)

theorem reset_mrRounds : State.reset.mrRounds = 40 := rfl

theorem step_of_rst {s : State} {rest : List Event} (h : s.agenda = .rst :: rest) :
    step s = .next (State.doReset { s with agenda := rest }) := by
  simp only [step, h]

/-- Settles O10: the step is `State.doReset` (`step_of_rst`); the registers are its fields, and what
the port shows is `doReset_peek_buffers`, `doReset_hostRead` and `doReset_peek_reserved`. -/
theorem resetValues : Obligations.ResetValues := by
  refine ⟨reset_mrRounds, fun s rest hrst hlegal => ⟨_, step_of_rst hrst, ?_⟩⟩
  exact ⟨State.doReset_ctrlWord _, State.doReset_statusWord _, State.doReset_cmd _,
    State.doReset_inLen _, State.doReset_outLen _, State.doReset_keyLen _, State.doReset_ivLen _,
    State.doReset_pbits _, State.doReset_nfact _, State.doReset_mrRounds _,
    State.doReset_key_get _, State.doReset_iv_get _,
    State.doReset_bnA _, State.doReset_bnB _, State.doReset_bnC _, State.doReset_bnR _,
    State.doReset_bnS _, fun _ hi => State.doReset_peek_buffers hlegal hi,
    State.doReset_inst _, State.doReset_engine _, State.doReset_irq _,
    State.doReset_hostRead (i := 0) (by decide) _, State.doReset_hostRead (i := 11) (by decide) _,
    State.doReset_hostRead (i := 12) (by decide) _,
    fun _ _ hloc => State.doReset_peek_reserved hloc⟩

end Sys2Proof.Machine
end

section
/-! The fields of a command word (spec/30_encoding.md R91): taking a word apart and putting it together,
and what the decoder accepts (R95 to R97). -/

namespace Sys2Proof

/-! ## The fields of a word -/

/-- Two words with the same six fields are the same word (R91). -/
theorem word_ext {w v : Word32} (hop : fieldOp w = fieldOp v) (hcipher : fieldCipher w = fieldCipher v)
    (hmode : fieldMode w = fieldMode v) (hpad : fieldPad w = fieldPad v)
    (hivp : fieldIvp w = fieldIvp v) (hrsv : fieldRsv w = fieldRsv v) : w = v := by
  simp only [fieldOp, fieldCipher, fieldMode, fieldPad, fieldIvp, fieldRsv, ← BitVec.toNat_inj,
    BitVec.extractLsb'_toNat, Nat.shiftRight_eq_div_pow] at hop hcipher hmode hpad hivp hrsv ⊢
  omega

theorem toNat_append {n k : Nat} (x : BitVec n) (y : BitVec k) :
    (x ++ y).toNat = x.toNat * 2 ^ k + y.toNat := by
  rw [BitVec.toNat_append, ← Nat.shiftLeft_add_eq_or_of_lt y.isLt, Nat.shiftLeft_eq]

section Pack
variable (op : BitVec 8) (c : BitVec 2) (m p : BitVec 3) (v : Bool)

theorem toNat_packWord : (packWord op c m p v).toNat =
    ((((BitVec.ofBool v).toNat * 2 ^ 3 + p.toNat) * 2 ^ 3 + m.toNat) * 2 ^ 2 + c.toNat) * 2 ^ 8 +
      op.toNat := by
  have happend : ((0 : BitVec 15) ++ BitVec.ofBool v ++ p ++ m ++ c ++ op).toNat =
      ((((BitVec.ofBool v).toNat * 2 ^ 3 + p.toNat) * 2 ^ 3 + m.toNat) * 2 ^ 2 + c.toNat) * 2 ^ 8 +
        op.toNat := by
    simp only [toNat_append, BitVec.ofNat_eq_ofNat, BitVec.toNat_zero, Nat.zero_mul, Nat.zero_add]
  exact happend

/-- What stands at each field of a packed word. -/
theorem fields_packWord : fieldOp (packWord op c m p v) = op ∧ fieldCipher (packWord op c m p v) = c ∧
    fieldMode (packWord op c m p v) = m ∧ fieldPad (packWord op c m p v) = p ∧
    fieldIvp (packWord op c m p v) = BitVec.ofBool v ∧ fieldRsv (packWord op c m p v) = 0 := by
  have hw := toNat_packWord op c m p v
  have hop := op.isLt
  have hc := c.isLt
  have hm := m.isLt
  have hp := p.isLt
  have hv := (BitVec.ofBool v).isLt
  simp only [fieldOp, fieldCipher, fieldMode, fieldPad, fieldIvp, fieldRsv, ← BitVec.toNat_inj,
    BitVec.extractLsb'_toNat, Nat.shiftRight_eq_div_pow, BitVec.ofNat_eq_ofNat, BitVec.toNat_zero]
  omega

@[simp] theorem fieldOp_packWord : fieldOp (packWord op c m p v) = op := (fields_packWord op c m p v).1
@[simp] theorem fieldCipher_packWord : fieldCipher (packWord op c m p v) = c :=
  (fields_packWord op c m p v).2.1
@[simp] theorem fieldMode_packWord : fieldMode (packWord op c m p v) = m :=
  (fields_packWord op c m p v).2.2.1
@[simp] theorem fieldPad_packWord : fieldPad (packWord op c m p v) = p :=
  (fields_packWord op c m p v).2.2.2.1
@[simp] theorem fieldIvp_packWord : fieldIvp (packWord op c m p v) = BitVec.ofBool v :=
  (fields_packWord op c m p v).2.2.2.2.1
@[simp] theorem fieldRsv_packWord : fieldRsv (packWord op c m p v) = 0 :=
  (fields_packWord op c m p v).2.2.2.2.2

end Pack

@[simp] theorem ofBool_beq_one (v : Bool) : (BitVec.ofBool v == 1#1) = v := by cases v <;> decide

@[simp] theorem ofBool_of_beq_one (b : BitVec 1) : BitVec.ofBool (b == 1#1) = b := by
  revert b
  decide

@[simp] theorem ofBool_eq_zero_iff (v : Bool) : BitVec.ofBool v = 0#1 ↔ v = false := by
  cases v <;> decide

/-- A word whose reserved bits are 0 is its fields packed (R91). -/
theorem packWord_fields {w : Word32} (hrsv : fieldRsv w = 0) :
    packWord (fieldOp w) (fieldCipher w) (fieldMode w) (fieldPad w) (fieldIvp w == 1) = w := by
  apply word_ext <;> simp [hrsv]

/-! ## The codes of the fields -/

@[simp] theorem decodeCipher_encodeCipher (c : Cipher) : decodeCipher (encodeCipher c) = some c := by
  cases c <;> rfl

@[simp] theorem decodeMode_encodeMode (m : Mode) : decodeMode (encodeMode m) = m := by
  cases m <;> rfl

/-- The codes 4 to 7, which name no scheme, are kept (R94). -/
theorem decodePad_of_four_le {code : BitVec 3} (h : 4 ≤ code.toNat) : decodePad code = .unknown code := by
  revert code
  decide

theorem decodePad_encodePad {p : PadScheme} (h : p.wellFormed = true) :
    decodePad (encodePad p) = p := by
  cases p with
  | unknown code => exact decodePad_of_four_le (of_decide_eq_true h)
  | _ => rfl

theorem encodeCipher_of_decodeCipher {b : BitVec 2} {c : Cipher} (h : decodeCipher b = some c) :
    encodeCipher c = b := by
  revert b c
  decide

theorem encodeMode_decodeMode (b : BitVec 3) : encodeMode (decodeMode b) = b := by
  revert b
  decide

theorem encodePad_decodePad (b : BitVec 3) : encodePad (decodePad b) = b := by
  revert b
  decide

theorem wellFormed_decodePad (b : BitVec 3) : (decodePad b).wellFormed = true := by
  revert b
  decide

theorem decodeCipher_isSome_iff (b : BitVec 2) : (decodeCipher b).isSome ↔ b.toNat < 2 := by
  revert b
  decide

/-! ## What the decoder accepts -/

theorem unusedFieldSet_eq_false_iff (u : FieldUse) (w : Word32) : unusedFieldSet u w = false ↔
    (u.cipher = false → fieldCipher w = 0) ∧ (u.mode = false → fieldMode w = 0) ∧
    (u.pad = false → fieldPad w = 0) ∧ (u.ivp = false → fieldIvp w = 0) := by
  simp [unusedFieldSet, and_assoc, imp_iff_or_not, or_comm]

/-- The word decodes exactly when its opcode is mapped, nothing is set that must not be, and the cipher
code is legal (R95). -/
theorem decode_eq_ok_iff (w : Word32) (i : Instr) : decode w = .ok i ↔
    ∃ row c, opcodeRow (fieldOp w) = some row ∧ fieldRsv w = 0 ∧ unusedFieldSet row.use w = false ∧
      decodeCipher (fieldCipher w) = some c ∧
      row.make c (decodeMode (fieldMode w)) (decodePad (fieldPad w)) (fieldIvp w == 1) = i := by
  unfold decode
  cases hrow : opcodeRow (fieldOp w) with
  | none => simp
  | some row =>
    by_cases hrsv : fieldRsv w = 0#15
    · cases hun : unusedFieldSet row.use w <;> cases hc : decodeCipher (fieldCipher w) <;>
        simp [hrsv, hun]
    · simp [hrsv]

theorem decode_packWord {op : BitVec 8} {row : OpcodeRow} {c : Cipher} {m p : BitVec 3} {v : Bool}
    (hrow : opcodeRow op = some row)
    (hunused : unusedFieldSet row.use (packWord op (encodeCipher c) m p v) = false) :
    decode (packWord op (encodeCipher c) m p v) =
      .ok (row.make c (decodeMode m) (decodePad p) v) := by
  refine (decode_eq_ok_iff _ _).mpr ⟨row, c, ?_, ?_, hunused, ?_, ?_⟩ <;> simp [hrow]

/-! ## Encoding what was decoded -/

/-- Encoding the command of a row packs its fields again, when the fields the row does not use are 0
(R96). -/
theorem encode_make {op : BitVec 8} {row : OpcodeRow} {cc : BitVec 2} {c : Cipher} {m p : BitVec 3}
    {v : Bool} (hrow : opcodeRow op = some row) (hc : decodeCipher cc = some c)
    (hunused : unusedFieldSet row.use (packWord op cc m p v) = false) :
    (row.make c (decodeMode m) (decodePad p) v).wellFormed = true ∧
      encode (row.make c (decodeMode m) (decodePad p) v) = packWord op cc m p v := by
  obtain rfl := encodeCipher_of_decodeCipher hc
  obtain ⟨hcipher, hmode, hpad, hivp⟩ := (unusedFieldSet_eq_false_iff _ _).mp hunused
  simp only [fieldCipher_packWord, fieldMode_packWord, fieldPad_packWord, fieldIvp_packWord,
    BitVec.ofNat_eq_ofNat, ofBool_eq_zero_iff]
    at hcipher hmode hpad hivp
  unfold opcodeRow at hrow
  split at hrow
  case h_19 => cases hrow
  all_goals
    rename_i hop
    obtain rfl := Option.some.inj hrow
    have hlit : BitVec.ofNat 8 op.toNat = op := by simp
    rw [hop] at hlit
    subst hlit
    simp_all [encode, Instr.wellFormed, encodeMode_decodeMode, encodePad_decodePad, wellFormed_decodePad]

/-- Settles O1, by the command: its word is a packed word of its row (`decode_packWord`), and each field
code is decoded back. -/
theorem decodeOfEncode : Obligations.DecodeOfEncode := by
  intro i hwf
  cases i with
  | pad c p =>
    rw [encode, decode_packWord rfl (by simp [unusedFieldSet]), decodePad_encodePad hwf]
  | unpad c p =>
    rw [encode, decode_packWord rfl (by simp [unusedFieldSet]), decodePad_encodePad hwf]
  | encrypt c m p v =>
    rw [encode, decode_packWord rfl (by simp [unusedFieldSet]), decodePad_encodePad hwf,
      decodeMode_encodeMode]
  | decrypt c m p v =>
    rw [encode, decode_packWord rfl (by simp [unusedFieldSet]), decodePad_encodePad hwf,
      decodeMode_encodeMode]
  | keyset c => rw [encode, decode_packWord rfl (by simp [unusedFieldSet])]
  | encb c => rw [encode, decode_packWord rfl (by simp [unusedFieldSet])]
  | decb c => rw [encode, decode_packWord rfl (by simp [unusedFieldSet])]
  | _ =>
    rw [encode, show (0 : BitVec 2) = encodeCipher .a from rfl, decode_packWord rfl (by decide)]

/-- Settles O2: a word that decodes has no reserved bit set, so it is its fields packed, and
`encode_make` packs them again. -/
theorem encodeOfDecode : Obligations.EncodeOfDecode := by
  intro w i h
  obtain ⟨row, c, hrow, hrsv, hunused, hc, rfl⟩ := (decode_eq_ok_iff w i).mp h
  have hw := packWord_fields hrsv
  have hmake := encode_make (v := fieldIvp w == 1) hrow hc (hw.symm ▸ hunused)
  exact ⟨hmake.1, hmake.2.trans hw⟩

/-- Settles O3: each word is the encoding of its command. -/
theorem listedWordsDecode : Obligations.ListedWordsDecode :=
  ⟨decodeOfEncode (.keyset .b) rfl, decodeOfEncode (.unpad .b .ansiX923) rfl,
    decodeOfEncode (.encrypt .b .randomDelta .ansiX923 true) rfl,
    decodeOfEncode (.decrypt .b .pcbc .pkcs7 false) rfl, decodeOfEncode .modexp rfl,
    decodeOfEncode .kdf rfl⟩

/-! ## The opcode map -/

/-- The `mask` column of R96: every bit of `OP` and `RSV`, and of the fields that the opcode does not
use. -/
def useMask (u : FieldUse) : Word32 :=
  BitVec.allOnes 32 ^^^ packWord 0 (if u.cipher then 3 else 0) (if u.mode then 7 else 0)
    (if u.pad then 7 else 0) u.ivp

/-- The rows of R96 as `opcodeRow` has them: match, mask, and whether the opcode uses `CIPHER`. -/
def opcodeMap : List (Word32 × Word32 × Bool) :=
  (List.range 256).filterMap fun n => (opcodeRow (BitVec.ofNat 8 n)).map fun row =>
    (packWord (BitVec.ofNat 8 n) 0 0 0 false, useMask row.use, row.use.cipher)

theorem fields_useMask (u : FieldUse) : fieldOp (useMask u) = BitVec.allOnes 8 ∧
    fieldCipher (useMask u) = (if u.cipher then 0 else BitVec.allOnes 2) ∧
    fieldMode (useMask u) = (if u.mode then 0 else BitVec.allOnes 3) ∧
    fieldPad (useMask u) = (if u.pad then 0 else BitVec.allOnes 3) ∧
    fieldIvp (useMask u) = (if u.ivp then 0 else BitVec.allOnes 1) ∧
    fieldRsv (useMask u) = BitVec.allOnes 15 := by
  obtain ⟨cipher, mode, pad, ivp⟩ := u
  revert cipher mode pad ivp
  decide

theorem and_mask_eq_zero_iff {n : Nat} (x : BitVec n) (used : Bool) :
    x &&& (if used then 0 else BitVec.allOnes n) = 0 ↔ (used = false → x = 0) := by
  cases used <;> simp

/-- A masked word is a row's match when the opcode is the row's and nothing is set that must not be. -/
theorem and_useMask_eq_iff (w : Word32) (u : FieldUse) (op : BitVec 8) :
    w &&& useMask u = packWord op 0 0 0 false ↔
      fieldOp w = op ∧ fieldRsv w = 0 ∧ unusedFieldSet u w = false := by
  obtain ⟨hop, hcipher, hmode, hpad, hivp, hrsv⟩ := fields_useMask u
  have hop' : fieldOp (w &&& useMask u) = fieldOp w := by
    rw [fieldOp, BitVec.extractLsb'_and, ← fieldOp, ← fieldOp, hop, BitVec.and_allOnes]
  have hrsv' : fieldRsv (w &&& useMask u) = fieldRsv w := by
    rw [fieldRsv, BitVec.extractLsb'_and, ← fieldRsv, ← fieldRsv, hrsv, BitVec.and_allOnes]
  have hcipher' : fieldCipher (w &&& useMask u) = 0 ↔ (u.cipher = false → fieldCipher w = 0) := by
    rw [← and_mask_eq_zero_iff, ← hcipher]
    exact Eq.congr_left BitVec.extractLsb'_and
  have hmode' : fieldMode (w &&& useMask u) = 0 ↔ (u.mode = false → fieldMode w = 0) := by
    rw [← and_mask_eq_zero_iff, ← hmode]
    exact Eq.congr_left BitVec.extractLsb'_and
  have hpad' : fieldPad (w &&& useMask u) = 0 ↔ (u.pad = false → fieldPad w = 0) := by
    rw [← and_mask_eq_zero_iff, ← hpad]
    exact Eq.congr_left BitVec.extractLsb'_and
  have hivp' : fieldIvp (w &&& useMask u) = 0 ↔ (u.ivp = false → fieldIvp w = 0) := by
    rw [← and_mask_eq_zero_iff, ← hivp]
    exact Eq.congr_left BitVec.extractLsb'_and
  rw [unusedFieldSet_eq_false_iff, ← hcipher', ← hmode', ← hpad', ← hivp', ← hop', ← hrsv']
  constructor
  · intro h
    rw [h]
    simp
  · rintro ⟨hop, hrsv, hcipher, hmode, hpad, hivp⟩
    apply word_ext <;> simp [hop, hrsv, hcipher, hmode, hpad, hivp]

/-- A word decodes exactly when it matches a row of `opcodeMap` and its cipher code is legal. -/
theorem decodes_iff_opcodeMap (w : Word32) : (∃ i, decode w = .ok i) ↔
    ∃ row ∈ opcodeMap, w &&& row.2.1 = row.1 ∧ (row.2.2 = true → (fieldCipher w).toNat < 2) := by
  simp only [decode_eq_ok_iff, opcodeMap, List.mem_filterMap, List.mem_range, Option.map_eq_some_iff]
  constructor
  · rintro ⟨_, row, c, hrow, hrsv, hunused, hc, _⟩
    refine ⟨_, ⟨(fieldOp w).toNat, (fieldOp w).isLt, row, by simpa using hrow, rfl⟩, ?_, fun _ => ?_⟩
    · exact (and_useMask_eq_iff _ _ _).mpr ⟨by simp, hrsv, hunused⟩
    · exact (decodeCipher_isSome_iff _).mp (Option.isSome_of_eq_some hc)
  · rintro ⟨_, ⟨n, _, row, hrow, rfl⟩, hmask, hlegal⟩
    obtain ⟨hop, hrsv, hunused⟩ := (and_useMask_eq_iff _ _ _).mp hmask
    have hcode : (fieldCipher w).toNat < 2 := by
      cases huse : row.use.cipher with
      | true => exact hlegal huse
      | false => simp [((unusedFieldSet_eq_false_iff _ _).mp hunused).1 huse]
    obtain ⟨c, hc⟩ := Option.isSome_iff_exists.mp ((decodeCipher_isSome_iff _).mpr hcode)
    exact ⟨_, row, c, hop ▸ hrow, hrsv, hunused, hc, rfl⟩

/-- The rows of R96, written out. -/
theorem opcodeMap_eq : opcodeMap =
    [(0x00000001, 0xFFFFFCFF, true), (0x00000002, 0xFFFFFCFF, true), (0x00000003, 0xFFFFFCFF, true),
      (0x00000004, 0xFFFF1CFF, true), (0x00000005, 0xFFFF1CFF, true),
      (0x00000006, 0xFFFE00FF, true), (0x00000007, 0xFFFE00FF, true),
      (0x00000010, 0xFFFFFFFF, false), (0x00000011, 0xFFFFFFFF, false),
      (0x00000012, 0xFFFFFFFF, false), (0x00000013, 0xFFFFFFFF, false),
      (0x00000014, 0xFFFFFFFF, false), (0x00000015, 0xFFFFFFFF, false),
      (0x00000016, 0xFFFFFFFF, false), (0x00000017, 0xFFFFFFFF, false),
      (0x00000018, 0xFFFFFFFF, false), (0x00000020, 0xFFFFFFFF, false),
      (0x00000021, 0xFFFFFFFF, false)] := by decide +kernel

/-- Settles O4: the listed rows are `opcodeMap`. -/
theorem decodableWordsAreTheOpcodeMap : Obligations.DecodableWordsAreTheOpcodeMap := by
  intro w
  rw [decodes_iff_opcodeMap, opcodeMap_eq]

end Sys2Proof
end

section
/-! What one engine step of a command can do (spec/41_modes.md R149, spec/60_exceptions.md R324 and R325,
spec/70_reset_and_hazards.md R372), said once for all commands. -/

namespace Sys2Proof.Machine

/-! ## The moves of the engine -/

/-- The results that write more than `OUT_BUF`, `OUT_LEN` and `BN_R` belong to one command each (R50). -/
def Result.producedBy (i : Instr) : Result → Prop
  | .keyed _ => ∃ c, i = .keyset c
  | .dhParams _ _ => i = .genparams
  | .factors _ => i = .pfactors
  | .derivedKey _ => i = .kdf
  | .output _ => True
  | .number _ => True

theorem resultFits_producedBy {p : Params} {i : Instr} {r : Result} (h : resultFits p i r) :
    r.producedBy i := by
  cases r <;> cases i <;> simp_all [resultFits, Result.producedBy]

/-- A command that reports progress (R36). -/
def isModeCommand (i : Instr) : Prop :=
  ∃ c m p v, i = .encrypt c m p v ∨ i = .decrypt c m p v

/-- What an engine step may leave in `STATUS.PROGRESS` (R36, R150): what was there, or, after a block of a
mode command, a percentage not below it. -/
def progressMoves (i : Instr) (s : State) (ctx : Ctx) (pr : BitVec 7) : Prop :=
  pr = s.progress ∨
    (isModeCommand i ∧ pr.toNat ≤ 100 ∧ (ctxFits s i ctx → s.progress.toNat ≤ pr.toNat))

/-- Everything an engine step of command `i` can do. Each move says what it writes; what it leaves, the
states of the constructors say. -/
inductive EngineMove (i : Instr) (s : State) : State → Prop where
  /-- The context is another command's, or the engine is idle (log entry 13). -/
  | stay : EngineMove i s s
  /-- A `raise` (R325). Only `KEYSET` clears the instance (R186). -/
  | raise {w : Word32} {ctx : Ctx} (running : s.engine = .running w ctx) (e : CmdError)
      (inst : Option Schedule) (en : Entropy) (fc : Nat) (pr : BitVec 7)
      (keeps : inst = s.inst ∨ ∃ c, i = .keyset c) (rises : progressMoves i s ctx pr) :
      EngineMove i s
        (State.fail e { s with inst := inst, entropy := en, freeCount := fc, progress := pr })
  /-- The command goes on, in a context of its own (R44). -/
  | advance {w : Word32} {ctx : Ctx} (running : s.engine = .running w ctx) (next : Ctx)
      (en : Entropy) (fc : Nat) (pr : BitVec 7) (moved : next ≠ .start)
      (rises : progressMoves i s ctx pr)
      (fits : s.params.Legal → (ctx = .start → s.progress = 0) → ctxFits s i ctx →
        ctxFits { s with progress := pr } i next) :
      EngineMove i s
        { s with engine := .running w next, entropy := en, freeCount := fc, progress := pr }
  /-- The command completes (R324). -/
  | complete {w : Word32} {ctx : Ctx} (running : s.engine = .running w ctx) (r : Result)
      (fits : ctxFits s i ctx → r.fitsBuffer s.params ∧ r.producedBy i) :
      EngineMove i s (s.succeed r)

/-! ## One-shot commands -/

/-- What a computation of command `i` does: it draws and reads, and only a failing `KEYSET`
touches the instance; its result is one of the command's. -/
def ComputesFor (i : Instr) (f : State → Computed) : Prop :=
  ∀ s, ∃ inst en fc, (f s).2 = { s with inst := inst, entropy := en, freeCount := fc } ∧
    (inst = s.inst ∨ ∃ c, i = .keyset c) ∧
    ∀ r, (f s).1 = .ok r → inst = s.inst ∧ (s.params.Legal → resultFits s.params i r)

theorem ComputesFor.move {i : Instr} {f : State → Computed} (hf : ComputesFor i f) (s : State) :
    EngineMove i s (oneShot f s) := by
  obtain ⟨inst, en, fc, hframe, hkeeps, hok⟩ := hf s
  obtain ⟨w, r, t, hrun, hfs, heq⟩ | ⟨w, e, t, hrun, hfs, heq⟩ | ⟨w, r, hrun, heq⟩ | heq :=
    oneShot_cases f s
  · obtain ⟨rfl, hfits⟩ := hok r (by rw [hfs])
    obtain rfl : t = { s with entropy := en, freeCount := fc } := by rw [hfs] at hframe; exact hframe
    rw [heq, State.setCtx_of_running (s := { s with entropy := en, freeCount := fc }) hrun]
    exact .advance hrun _ en fc s.progress (by simp) (.inl rfl) fun hlegal _ _ => hfits hlegal
  · obtain rfl : t = { s with inst := inst, entropy := en, freeCount := fc } := by
      rw [hfs] at hframe; exact hframe
    rw [heq]
    exact .raise hrun e inst en fc s.progress hkeeps (.inl rfl)
  · rw [heq]
    exact .complete hrun r fun h => ⟨resultFits_fitsBuffer h, resultFits_producedBy h⟩
  · rw [heq]
    exact .stay

/-- A computation that only draws and reads, and whose results all fit. -/
theorem ComputesFor.of_frame {i : Instr} {f : State → Computed}
    (hframe : ∀ s, ∃ en fc, (f s).2 = { s with entropy := en, freeCount := fc })
    (hfits : ∀ s r, (f s).1 = .ok r → s.params.Legal → resultFits s.params i r) :
    ComputesFor i f := by
  intro s
  obtain ⟨en, fc, h⟩ := hframe s
  exact ⟨s.inst, en, fc, h, .inl rfl, fun r hr => ⟨rfl, hfits s r hr⟩⟩

theorem keySchedule_cipher (fe : FeTables) (c : Cipher) (key : Bytes) :
    (keySchedule fe c key).cipher = c := by cases c <;> rfl

theorem keyedFor_eq_some {s : State} {c : Cipher} {sched : Schedule}
    (h : s.keyedFor c = some sched) : s.inst = some sched ∧ sched.cipher = c := by
  unfold State.keyedFor at h
  split at h
  next inst hinst =>
    split at h
    next hc =>
      cases h
      exact ⟨hinst, hc⟩
    next => cases h
  next => cases h

theorem computesFor_keyset (c : Cipher) : ComputesFor (.keyset c) (computeKeyset c) := by
  intro s
  unfold computeKeyset
  split
  next => exact ⟨none, s.entropy, s.freeCount, rfl, .inr ⟨c, rfl⟩, nofun⟩
  next =>
    split
    next => exact ⟨none, s.entropy, s.freeCount, rfl, .inr ⟨c, rfl⟩, nofun⟩
    next =>
      refine ⟨s.inst, s.entropy, s.freeCount, rfl, .inl rfl, fun r hr => ⟨rfl, fun _ => ?_⟩⟩
      cases hr
      exact keySchedule_cipher _ _ _

/-- A block of either cipher fits the smallest buffer (R11). -/
theorem blockSize_le_bufBytes {p : Params} (h : p.Legal) (c : Cipher) : blockSize c ≤ p.bufBytes := by
  have hbuf : 256 ≤ p.bufBytes := h.1.2.2.2.1
  cases c <;> simp only [blockSize] <;> omega

/-- What `ENCB` and `DECB` compute (R187, R188). -/
theorem computeBlock_cases (f : FeTables → Schedule → Bytes → Bytes) (c : Cipher) (s : State) :
    (s.keyedFor c = none ∧ computeBlock f c s = (.error .noKey, s)) ∨
    ∃ sched, s.keyedFor c = some sched ∧
      ((s.inLen.toNat ≠ blockSize c ∧ computeBlock f c s = (.error .invalidBlockSize, s)) ∨
        (s.inLen.toNat = blockSize c ∧
          computeBlock f c s = (.ok (.output (f s.params.fe sched s.input)), s.readInput))) := by
  cases hk : s.keyedFor c with
  | none => exact .inl ⟨rfl, by simp [computeBlock, hk]⟩
  | some sched =>
    by_cases hlen : s.inLen.toNat = blockSize c
    · exact .inr ⟨sched, rfl, .inr ⟨hlen, by simp [computeBlock, hk, hlen]⟩⟩
    · exact .inr ⟨sched, rfl, .inl ⟨hlen, by simp [computeBlock, hk, hlen]⟩⟩

/-- Both block commands, by the length of the block function's output. -/
theorem computesFor_block {i : Instr} {f : FeTables → Schedule → Bytes → Bytes} (c : Cipher)
    (hf : ∀ fe sched b, (f fe sched b).length = blockSize sched.cipher)
    (hi : ∀ (p : Params) (b : Bytes), b.length ≤ p.bufBytes → resultFits p i (.output b)) :
    ComputesFor i (computeBlock f c) := by
  apply ComputesFor.of_frame
  · intro s
    obtain ⟨-, h⟩ | ⟨sched, -, ⟨-, h⟩ | ⟨-, h⟩⟩ := computeBlock_cases f c s <;>
      exact ⟨s.entropy, _, congrArg Prod.snd h⟩
  · intro s r hr hlegal
    obtain ⟨-, h⟩ | ⟨sched, -, ⟨-, h⟩ | ⟨-, h⟩⟩ := computeBlock_cases f c s <;> rw [h] at hr <;>
      cases hr
    exact hi _ _ (by rw [hf]; exact blockSize_le_bufBytes hlegal _)

/-- What `PAD` computes (R127), in check order. -/
theorem computePad_cases (c : Cipher) (p : PadScheme) (s : State) :
    (schemeUnknown p = true ∧ computePad c p s = (.error .padding, s)) ∨
    (schemeUnknown p = false ∧ s.params.bufBytes < s.inLen.toNat ∧
      computePad c p s = (.error .capacity, s)) ∨
    (schemeUnknown p = false ∧ s.inLen.toNat ≤ s.params.bufBytes ∧
      s.params.bufBytes < s.inLen.toNat + padLength s.inLen.toNat (blockSize c) ∧
      computePad c p s = (.error .capacity, s.readInput)) ∨
    (s.inLen.toNat + padLength s.inLen.toNat (blockSize c) ≤ s.params.bufBytes ∧
      ∃ out e, pad s.input p (blockSize c) s.entropy = .ok (out, e) ∧
        computePad c p s = (.ok (.output out), { s.readInput with entropy := e })) := by
  cases hp : schemeUnknown p with
  | true => exact .inl ⟨rfl, by simp [computePad, hp]⟩
  | false =>
    by_cases hlong : s.params.bufBytes < s.inLen.toNat
    · exact .inr (.inl ⟨rfl, hlong, by simp [computePad, hp, State.inputTooLong, hlong]⟩)
    · by_cases hcap : s.params.bufBytes < s.inLen.toNat + padLength s.inLen.toNat (blockSize c)
      · exact .inr (.inr (.inl ⟨rfl, by omega, hcap,
          by simp [computePad, hp, State.inputTooLong, hlong, hcap]⟩))
      · have hpad : ∃ out e, pad s.input p (blockSize c) s.entropy = .ok (out, e) := by
          cases p with
          | unknown code => cases hp
          | _ => exact ⟨_, _, rfl⟩
        obtain ⟨out, e, hpad⟩ := hpad
        exact .inr (.inr (.inr ⟨by omega, out, e, hpad,
          by simp [computePad, hp, State.inputTooLong, hlong, hcap, hpad]⟩))

theorem computesFor_pad (c : Cipher) (p : PadScheme) : ComputesFor (.pad c p) (computePad c p) := by
  apply ComputesFor.of_frame
  · intro s
    obtain ⟨-, h⟩ | ⟨-, -, h⟩ | ⟨-, -, -, h⟩ | ⟨-, _, _, -, h⟩ := computePad_cases c p s <;>
      exact ⟨_, _, congrArg Prod.snd h⟩
  · intro s r hr _
    obtain ⟨-, h⟩ | ⟨-, -, h⟩ | ⟨-, -, -, h⟩ | ⟨hcap, out, e, hpad, h⟩ := computePad_cases c p s <;>
      rw [h] at hr <;> cases hr
    have hlen := pad_length (blockSize_pos c) hpad
    rw [input_length] at hlen
    exact hlen.trans_le hcap

/-- What `UNPAD` computes (R128), in check order. -/
theorem computeUnpad_cases (c : Cipher) (p : PadScheme) (s : State) :
    (schemeUnknown p = true ∧ computeUnpad c p s = (.error .padding, s)) ∨
    (schemeUnknown p = false ∧ s.params.bufBytes < s.inLen.toNat ∧
      computeUnpad c p s = (.error .capacity, s)) ∨
    (schemeUnknown p = false ∧ s.inLen.toNat ≤ s.params.bufBytes ∧
      ∃ err, unpad s.input p (blockSize c) = .error err ∧
        computeUnpad c p s = (.error err, s.readInput)) ∨
    (schemeUnknown p = false ∧ s.inLen.toNat ≤ s.params.bufBytes ∧
      ∃ out, unpad s.input p (blockSize c) = .ok out ∧
        computeUnpad c p s = (.ok (.output out), s.readInput)) := by
  cases hp : schemeUnknown p with
  | true => exact .inl ⟨rfl, by simp [computeUnpad, hp]⟩
  | false =>
    by_cases hlong : s.params.bufBytes < s.inLen.toNat
    · exact .inr (.inl ⟨rfl, hlong, by simp [computeUnpad, hp, State.inputTooLong, hlong]⟩)
    · cases hun : unpad s.input p (blockSize c) with
      | error err =>
        exact .inr (.inr (.inl ⟨rfl, by omega, err, rfl,
          by simp [computeUnpad, hp, State.inputTooLong, hlong, hun]⟩))
      | ok out =>
        exact .inr (.inr (.inr ⟨rfl, by omega, out, rfl,
          by simp [computeUnpad, hp, State.inputTooLong, hlong, hun]⟩))

theorem computesFor_unpad (c : Cipher) (p : PadScheme) :
    ComputesFor (.unpad c p) (computeUnpad c p) := by
  apply ComputesFor.of_frame
  · intro s
    obtain ⟨-, h⟩ | ⟨-, -, h⟩ | ⟨-, -, _, -, h⟩ | ⟨-, -, _, -, h⟩ := computeUnpad_cases c p s <;>
      exact ⟨s.entropy, _, congrArg Prod.snd h⟩
  · intro s r hr _
    obtain ⟨-, h⟩ | ⟨-, -, h⟩ | ⟨-, -, _, -, h⟩ | ⟨-, hin, out, hun, h⟩ := computeUnpad_cases c p s <;>
      rw [h] at hr <;> cases hr
    have hlen := unpad_length_le hun
    rw [input_length] at hlen
    exact hlen.trans hin

theorem computesFor_isprime : ComputesFor .isprime computeIsprime := by
  refine .of_frame (fun s => ⟨_, s.freeCount, rfl⟩) fun s r hr _ => ?_
  cases hr
  trivial

theorem computesFor_pfactors : ComputesFor .pfactors computePfactors := by
  refine .of_frame (fun s => ⟨s.entropy, s.freeCount, ?_⟩) fun s r hr _ => ?_
  · simp only [computePfactors]
    split <;> rfl
  · simp only [computePfactors] at hr
    split at hr
    next => cases hr
    next hfit =>
      cases hr
      exact (factorBytes_length _ _).trans_le (not_lt.mp hfit)

theorem computesFor_primroot : ComputesFor .primroot computePrimroot := by
  refine .of_frame (fun s => ?_) fun s r hr _ => ?_
  · unfold computePrimroot
    split <;> exact ⟨_, s.freeCount, rfl⟩
  · unfold computePrimroot at hr
    split at hr <;> cases hr
    trivial

theorem computesFor_genpriv : ComputesFor .genpriv computeGenpriv := by
  refine .of_frame (fun s => ?_) fun s r hr _ => ?_
  · unfold computeGenpriv
    split <;> exact ⟨_, s.freeCount, rfl⟩
  · unfold computeGenpriv at hr
    split at hr <;> cases hr
    trivial

/-- `GENPUB`, `SHARED` and `MODEXP` share their computation (R276 to R278). -/
theorem computesFor_modExp {i : Instr} (hi : ∀ (p : Params) (v : Nat), resultFits p i (.number v)) :
    ComputesFor i computeModExp := by
  refine .of_frame (fun s => ⟨s.entropy, s.freeCount, ?_⟩) fun s r hr _ => ?_
  · unfold computeModExp
    split <;> rfl
  · unfold computeModExp at hr
    split at hr <;> cases hr
    exact hi _ _

theorem toBytes_length (x : Hash) : x.toBytes.length = 32 := by simp [Hash.toBytes]

theorem sha256_length (m : Bytes) : (sha256 m).length = 32 := toBytes_length _

theorem deriveKey_length (n : Nat) : (deriveKey n).length = 16 := by
  simp [deriveKey, sha256_length]

theorem computesFor_sha256 : ComputesFor .sha256 computeSha256 := by
  refine .of_frame (fun s => ⟨s.entropy, ?_⟩) fun s r hr hlegal => ?_
  · unfold computeSha256
    split
    next => exact ⟨s.freeCount, rfl⟩
    next => exact ⟨_, rfl⟩
  · unfold computeSha256 at hr
    have hbuf : 256 ≤ s.params.bufBytes := hlegal.1.2.2.2.1
    split at hr <;> cases hr
    exact (sha256_length _).trans_le (by omega)

theorem computesFor_kdf : ComputesFor .kdf computeKdf := by
  refine .of_frame (fun s => ⟨s.entropy, s.freeCount, rfl⟩) fun s r hr hlegal => ?_
  have hbuf : 256 ≤ s.params.bufBytes := hlegal.1.2.2.2.1
  cases hr
  exact (deriveKey_length _).trans_le (by omega)

/-! ## Prime generation -/

theorem candidateStep_move {i : Instr} {accepted : Nat → Ctx} {s : State} {w : Word32} {ctx : Ctx}
    (hrun : s.engine = .running w ctx) (n : Nat) (hmoved : ∀ p, accepted p ≠ .start)
    (hfits : ∀ p, ctxFits s i (accepted p)) (hi : i = .genprime ∨ i = .genparams) :
    EngineMove i s (candidateStep accepted n s) := by
  obtain ⟨p, -, heq⟩ | ⟨-, heq⟩ := candidateStep_cases accepted n s
  · rw [heq, State.setCtx_of_running (by exact hrun)]
    exact .advance hrun _ _ s.freeCount s.progress (hmoved p) (.inl rfl) fun _ _ _ => hfits p
  · rw [heq, State.setCtx_of_running (by exact hrun)]
    exact .advance hrun _ _ s.freeCount s.progress (by simp) (.inl rfl) fun _ _ _ => hi

theorem generatePrime_move {i : Instr} {accepted : Nat → Ctx} (s : State)
    (hmoved : ∀ p, accepted p ≠ .start) (hfits : ∀ p, ctxFits s i (accepted p))
    (hi : i = .genprime ∨ i = .genparams) : EngineMove i s (generatePrime accepted s) := by
  obtain ⟨w, e, hrun, -, heq⟩ | ⟨w, hrun, -, heq⟩ | ⟨w, n, hrun, heq⟩ | ⟨w, r, hrun, heq⟩ | heq :=
    generatePrime_cases accepted s <;> rw [heq]
  · exact .raise hrun e s.inst s.entropy s.freeCount s.progress (.inl rfl) (.inl rfl)
  · exact candidateStep_move hrun 0 hmoved hfits hi
  · exact candidateStep_move hrun n hmoved hfits hi
  · exact .complete hrun r fun h => ⟨resultFits_fitsBuffer h, resultFits_producedBy h⟩
  · exact .stay

/-- The root-search step of `GENPARAMS` (R274). -/
theorem paramsRootStep_move {s : State} {w : Word32} {ctx : Ctx} (hrun : s.engine = .running w ctx)
    (p : Nat) : EngineMove .genparams s (paramsRootStep p s) := by
  unfold paramsRootStep
  split
  next g e _ =>
    rw [State.setCtx_of_running (by exact hrun)]
    exact .advance hrun _ e s.freeCount s.progress (by simp) (.inl rfl) fun _ _ _ => trivial
  next err e _ =>
    exact .raise hrun err s.inst e s.freeCount s.progress (.inl rfl) (.inl rfl)

/-! ## Mode commands -/

theorem chainEncBlock_lengths {m : Mode} {enc : BlockFn} {bs ctr0 i : Nat} {chain p : Bytes}
    (hm : m ≠ .unknown) (henc : ∀ b, (enc b).length = bs) (hp : p.length = bs)
    (hchain : m ≠ .ecb → chain.length = bs) :
    (chainEncBlock m enc bs ctr0 i chain p).1.length = bs ∧
      (m ≠ .ecb → (chainEncBlock m enc bs ctr0 i chain p).2.length = bs) := by
  cases m <;> simp_all [chainEncBlock]

theorem chainDecBlock_lengths {m : Mode} {enc dec : BlockFn} {bs ctr0 i : Nat} {chain c : Bytes}
    (hm : m ≠ .unknown) (henc : ∀ b, (enc b).length = bs) (hdec : ∀ b, (dec b).length = bs)
    (hc : c.length = bs) (hchain : m ≠ .ecb → chain.length = bs) :
    (chainDecBlock m enc dec bs ctr0 i chain c).1.length = bs ∧
      (m ≠ .ecb → (chainDecBlock m enc dec bs ctr0 i chain c).2.length = bs) := by
  cases m <;> simp_all [chainDecBlock]

theorem encFn_length {s : State} {c : Cipher} (h : s.keyedFor c ≠ none) (b : Bytes) :
    (s.encFn b).length = blockSize c := by
  obtain ⟨sched, hs⟩ := Option.ne_none_iff_exists'.mp h
  obtain ⟨hinst, rfl⟩ := keyedFor_eq_some hs
  simp only [State.encFn, hinst, encBlock_length]

theorem decFn_length {s : State} {c : Cipher} (h : s.keyedFor c ≠ none) (b : Bytes) :
    (s.decFn b).length = blockSize c := by
  obtain ⟨sched, hs⟩ := Option.ne_none_iff_exists'.mp h
  obtain ⟨hinst, rfl⟩ := keyedFor_eq_some hs
  simp only [State.decFn, hinst, decBlock_length]

theorem percent_mono {i j : Nat} (h : i ≤ j) (n : Nat) : percent i n ≤ percent j n :=
  Nat.div_le_div_right (by omega)

/-- A percentage is its own 7-bit code (R36). -/
theorem toNat_percent {i n : Nat} (h : i < n) : (BitVec.ofNat 7 (percent i n)).toNat = percent i n := by
  have hle := percent_le h
  rw [BitVec.toNat_ofNat]
  omega

/-- What a job has reported is not above the percentage of the block being done (R150). -/
theorem jobFits.progress_le {p : Params} {c : Cipher} {m : Mode} {job : ModeJob} {pr : BitVec 7}
    (h : jobFits p c m job pr) (hnext : job.next < job.blocks.length) :
    pr.toNat ≤ percent job.next job.blocks.length := by
  rcases Nat.eq_zero_or_pos job.next with hz | hpos
  · simp [(h.fresh hz).2]
  · rw [(h.reported hpos).2, toNat_percent (by omega)]
    exact percent_mono (by omega) _

/-- A job that has counted a block and reported its percentage fits again. -/
theorem jobFits.next {p : Params} {c : Cipher} {m : Mode} {job : ModeJob} {pr : BitVec 7}
    (h : jobFits p c m job pr) (hnext : job.next < job.blocks.length) {chain y : Bytes}
    (hy : y.length = blockSize c) (hchain : m ≠ .ecb → chain.length = blockSize c) :
    jobFits p c m
      { job with
        next := job.next + 1, chain := chain, out := job.out ++ y
        last := some (percent job.next job.blocks.length) }
      (BitVec.ofNat 7 (percent job.next job.blocks.length)) where
  nonempty := h.nonempty
  whole := h.whole
  index := hnext
  chain := hchain
  room := by
    have hroom := h.room
    obtain ⟨k, hk⟩ := Nat.exists_eq_add_of_lt hnext
    simp only [List.length_append, hy, hk] at hroom ⊢
    rw [show job.next + k + 1 - job.next = k + 1 by omega, Nat.succ_mul] at hroom
    rw [show job.next + k + 1 - (job.next + 1) = k by omega]
    omega
  fresh := by simp
  reported := fun _ => ⟨rfl, rfl⟩

theorem ctxFits_congr {s t : State} (hp : t.params = s.params) (hinst : t.inst = s.inst)
    (hpr : t.progress = s.progress) (i : Instr) (ctx : Ctx) : ctxFits t i ctx ↔ ctxFits s i ctx := by
  have hkeyed (c : Cipher) : t.keyedFor c = s.keyedFor c := by simp only [State.keyedFor, hinst]
  cases ctx <;> simp only [ctxFits, hp, hpr, hkeyed]

/-- A block step whose block function keeps lengths is a move (R150). -/
theorem block_move {i : Instr} {s : State} {w : Word32} {job : ModeJob} {y : Bytes × Bytes}
    (hrun : s.engine = .running w (.blocks job)) (hnext : job.next < job.blocks.length)
    (hi : isModeCommand i)
    (hy : ∀ c m q v, (i = .encrypt c m q v ∨ i = .decrypt c m q v) → m ≠ .unknown →
      s.keyedFor c ≠ none → jobFits s.params c m job s.progress →
      y.1.length = blockSize c ∧ (m ≠ .ecb → y.2.length = blockSize c)) :
    EngineMove i s (s.progressPoint
      { job with next := job.next + 1, chain := y.2, out := job.out ++ y.1 } job.next) := by
  have hfits (h : ctxFits s i (.blocks job)) :
      ctxFits { s with progress := BitVec.ofNat 7 (percent job.next job.blocks.length) } i
        (.blocks { job with
          next := job.next + 1, chain := y.2, out := job.out ++ y.1
          last := some (percent job.next job.blocks.length) }) := by
    obtain ⟨c, m, q, v, hcm, hm, hk, hjob⟩ := h
    obtain ⟨hout, hchain⟩ := hy c m q v hcm hm hk hjob
    exact ⟨c, m, q, v, hcm, hm, hk, hjob.next hnext hout hchain⟩
  have hrises : progressMoves i s (.blocks job)
      (BitVec.ofNat 7 (percent job.next job.blocks.length)) := by
    refine .inr ⟨hi, ?_, ?_⟩ <;> rw [toNat_percent hnext]
    · exact percent_le hnext
    · rintro ⟨c, m, q, v, -, -, -, hjob⟩
      exact hjob.progress_le hnext
  obtain ⟨hlast, heq⟩ | ⟨-, ⟨-, heq⟩ | ⟨-, heq⟩⟩ := progressPoint_cases
    { job with next := job.next + 1, chain := y.2, out := job.out ++ y.1 } job.next s <;> rw [heq]
  · rw [State.setCtx_of_running hrun]
    refine .advance hrun _ s.entropy s.freeCount s.progress (by simp) (.inl rfl) fun _ _ h => ?_
    have hsame : s.progress = BitVec.ofNat 7 (percent job.next job.blocks.length) := by
      obtain ⟨c, m, q, v, -, -, -, hjob⟩ := h
      rcases Nat.eq_zero_or_pos job.next with hz | hpos
      · simp [(hjob.fresh hz).1] at hlast
      · have hsome : some (percent (job.next - 1) job.blocks.length) =
            some (percent job.next job.blocks.length) := (hjob.reported hpos).1.symm.trans hlast
        rw [(hjob.reported hpos).2, Option.some.inj hsome]
    have hnew := hfits h
    rw [← hsame, ← hlast] at hnew
    exact hnew
  · rw [State.setCtx_of_running hrun]
    exact .raise hrun .operationCancelled s.inst s.entropy s.freeCount _ (.inl rfl) hrises
  · rw [State.setCtx_of_running hrun]
    exact .advance hrun _ s.entropy s.freeCount _ (by simp) hrises fun _ _ h => hfits h

/-- Every engine step of a mode command is a move (R149), when its preparation leaves a job that fits, its
blocks keep lengths and its final step does not lengthen the output. -/
theorem modeStep_move {i : Instr} {prep : State → Except CmdError ModeJob × State}
    {block : State → ModeJob → Bytes → Bytes × Bytes} {close : Bytes → Except CmdError Bytes}
    (s : State) (hi : isModeCommand i)
    (hframe : ∃ en fc, (prep s).2 = { s with entropy := en, freeCount := fc })
    (hok : ∀ t job, prep s = (.ok job, t) → s.progress = 0 → ctxFits s i (.blocks job))
    (hblock : ∀ job x c m q v, (i = .encrypt c m q v ∨ i = .decrypt c m q v) → m ≠ .unknown →
      s.keyedFor c ≠ none → jobFits s.params c m job s.progress → x.length = blockSize c →
      (block s job x).1.length = blockSize c ∧
        (m ≠ .ecb → (block s job x).2.length = blockSize c))
    (hclose : ∀ b out, close b = .ok out → out.length ≤ b.length) :
    EngineMove i s (modeStep prep block close s) := by
  obtain ⟨w, e, t, hrun, hp, heq⟩ | ⟨w, job, t, hrun, hp, heq⟩ | ⟨w, job, x, hrun, hx, heq⟩ |
    ⟨w, job, out, hrun, hx, hc, heq⟩ | ⟨w, job, e, hrun, hx, hc, heq⟩ | heq :=
    modeStep_cases prep block close s <;> rw [heq]
  · obtain ⟨en, fc, hframe⟩ := hframe
    obtain rfl : t = { s with entropy := en, freeCount := fc } := by rw [hp] at hframe; exact hframe
    exact .raise hrun e s.inst en fc s.progress (.inl rfl) (.inl rfl)
  · obtain ⟨en, fc, hframe⟩ := hframe
    obtain rfl : t = { s with entropy := en, freeCount := fc } := by rw [hp] at hframe; exact hframe
    rw [State.setCtx_of_running (by exact hrun)]
    exact .advance hrun _ en fc s.progress (by simp) (.inl rfl) fun _ h0 _ => hok _ _ hp (h0 rfl)
  · have hnext : job.next < job.blocks.length := List.getElem?_eq_some_iff.mp hx |>.1
    have hmem : x ∈ job.blocks := List.mem_of_getElem? hx
    exact block_move hrun hnext hi fun c m q v hcm hm hk hjob =>
      hblock job x c m q v hcm hm hk hjob (hjob.whole x hmem)
  · refine .complete hrun (.output out) fun h => ⟨?_, trivial⟩
    obtain ⟨c, m, q, v, -, -, -, hjob⟩ := h
    exact (hclose _ _ hc).trans (le_of_add_le_left hjob.room)
  · exact .raise hrun e s.inst s.entropy s.freeCount s.progress (.inl rfl) (.inl rfl)
  · exact .stay

/-- The preparation of `ENCRYPT` only draws and reads. -/
theorem prepareEncrypt_frame (c : Cipher) (m : Mode) (p : PadScheme) (ivp : Bool) (s : State) :
    ∃ en fc, (prepareEncrypt c m p ivp s).2 = { s with entropy := en, freeCount := fc } := by
  simp only [prepareEncrypt]
  split
  next => exact ⟨_, _, rfl⟩
  next =>
    split
    next => exact ⟨_, _, rfl⟩
    next =>
      split
      next => exact ⟨_, _, rfl⟩
      next =>
        split
        next => exact ⟨_, _, rfl⟩
        next => split <;> exact ⟨_, _, rfl⟩

/-- The preparation of `DECRYPT` only reads. -/
theorem prepareDecrypt_frame (c : Cipher) (m : Mode) (p : PadScheme) (ivp : Bool) (s : State) :
    ∃ en fc, (prepareDecrypt c m p ivp s).2 = { s with entropy := en, freeCount := fc } := by
  simp only [prepareDecrypt]
  split
  next => exact ⟨_, _, rfl⟩
  next =>
    split
    next => exact ⟨s.entropy, _, rfl⟩
    next => split <;> exact ⟨s.entropy, _, rfl⟩

theorem encrypt_move (c : Cipher) (m : Mode) (p : PadScheme) (ivp : Bool) (s : State) :
    EngineMove (.encrypt c m p ivp) s (modeStep (prepareEncrypt c m p ivp)
      (fun s job x => chainEncBlock m s.encFn (blockSize c) job.ctr0 job.next job.chain x)
      (fun out => .ok out) s) := by
  refine modeStep_move s ⟨c, m, p, ivp, .inl rfl⟩ ?frame (fun t job h h0 => ?fits) ?block
    fun b out h => by cases h; exact le_rfl
  case frame => exact prepareEncrypt_frame c m p ivp s
  case fits =>
    obtain ⟨hm, hk, hjob, -⟩ := prepareEncrypt_ok h h0
    exact ⟨c, m, p, ivp, .inl rfl, hm, hk, hjob⟩
  case block =>
    intro job x c' m' q v hcm hm hk hjob hx
    obtain ⟨rfl, rfl, -, -⟩ : c = c' ∧ m = m' ∧ p = q ∧ ivp = v := by simpa using hcm
    exact chainEncBlock_lengths hm (encFn_length hk) hx hjob.chain

theorem decrypt_move (c : Cipher) (m : Mode) (p : PadScheme) (ivp : Bool) (s : State) :
    EngineMove (.decrypt c m p ivp) s (modeStep (prepareDecrypt c m p ivp)
      (fun s job x => chainDecBlock m s.encFn s.decFn (blockSize c) job.ctr0 job.next job.chain x)
      (fun out => unpad out p (blockSize c)) s) := by
  refine modeStep_move s ⟨c, m, p, ivp, .inr rfl⟩ ?frame (fun t job h h0 => ?fits) ?block
    fun b out h => unpad_length_le h
  case frame => exact prepareDecrypt_frame c m p ivp s
  case fits =>
    obtain ⟨hm, hk, hjob, -⟩ := prepareDecrypt_ok h h0
    exact ⟨c, m, p, ivp, .inr rfl, hm, hk, hjob⟩
  case block =>
    intro job x c' m' q v hcm hm hk hjob hx
    obtain ⟨rfl, rfl, -, -⟩ : c = c' ∧ m = m' ∧ p = q ∧ ivp = v := by simpa using hcm
    exact chainDecBlock_lengths hm (encFn_length hk) (decFn_length hk) hx hjob.chain

/-! ## Every command -/

/-- Every engine step of every command is one of the moves. -/
theorem exec_move (i : Instr) (s : State) : ∃ t, exec i s = .next t ∧ EngineMove i s t := by
  cases i with
  | keyset c => exact ⟨_, rfl, (computesFor_keyset c).move s⟩
  | encb c =>
    exact ⟨_, rfl, (computesFor_block (i := .encb c) c encBlock_length fun _ _ h => h).move s⟩
  | decb c =>
    exact ⟨_, rfl, (computesFor_block (i := .decb c) c decBlock_length fun _ _ h => h).move s⟩
  | pad c p => exact ⟨_, rfl, (computesFor_pad c p).move s⟩
  | unpad c p => exact ⟨_, rfl, (computesFor_unpad c p).move s⟩
  | encrypt c m p v => exact ⟨_, rfl, encrypt_move c m p v s⟩
  | decrypt c m p v => exact ⟨_, rfl, decrypt_move c m p v s⟩
  | isprime => exact ⟨_, rfl, computesFor_isprime.move s⟩
  | genprime =>
    exact ⟨_, rfl, generatePrime_move s (fun _ => nofun) (fun _ => trivial) (.inl rfl)⟩
  | pfactors => exact ⟨_, rfl, computesFor_pfactors.move s⟩
  | primroot => exact ⟨_, rfl, computesFor_primroot.move s⟩
  | genparams =>
    have hgen := generatePrime_move (i := .genparams) (accepted := .rootSearch) s (fun _ => nofun)
      (fun _ => rfl) (.inr rfl)
    cases hctx : s.ctx with
    | none => exact ⟨_, by simp only [exec, execGenparams, hctx], hgen⟩
    | some ctx =>
      cases ctx with
      | rootSearch p =>
        obtain ⟨w, hrun⟩ := State.ctx_eq_some hctx
        exact ⟨_, by simp only [exec, execGenparams, hctx], paramsRootStep_move hrun p⟩
      | _ => exact ⟨_, by simp only [exec, execGenparams, hctx], hgen⟩
  | genpriv => exact ⟨_, rfl, computesFor_genpriv.move s⟩
  | genpub => exact ⟨_, rfl, (computesFor_modExp (i := .genpub) fun _ _ => trivial).move s⟩
  | shared => exact ⟨_, rfl, (computesFor_modExp (i := .shared) fun _ _ => trivial).move s⟩
  | modexp => exact ⟨_, rfl, (computesFor_modExp (i := .modexp) fun _ _ => trivial).move s⟩
  | sha256 => exact ⟨_, rfl, computesFor_sha256.move s⟩
  | kdf => exact ⟨_, rfl, computesFor_kdf.move s⟩

theorem engineMove_of_exec {i : Instr} {s t : State} (h : exec i s = .next t) : EngineMove i s t := by
  obtain ⟨u, hu, hmove⟩ := exec_move i s
  cases hu.symm.trans h
  exact hmove

end Sys2Proof.Machine
end

section
/-! The invariant `State.Ok` (spec/10_state.md), kept by host accesses, resets and every move of the
engine. -/

namespace Sys2Proof.Machine

/-! ## What keeps the invariant -/

/-- The engine's context does not depend on what is drawn, read, answered or still to come. -/
theorem engineFits_congr {s t : State} (hp : t.params = s.params) (hinst : t.inst = s.inst)
    (hpr : t.progress = s.progress) (heng : t.engine = s.engine) (h : engineFits s) :
    engineFits t := by
  unfold engineFits at h ⊢
  simp only [heng, hpr, ctxFits_congr hp hinst hpr]
  exact h

/-- An idle CCC's invariant says nothing of the engine. -/
theorem State.Ok.of_idle {s : State} (legal : s.params.Legal) (memWf : Memory.wf s.mem = true)
    (memIn : Memory.inBuffers s.params s.mem = true) (bnA : s.bnA < 2 ^ s.params.bnBits)
    (bnB : s.bnB < 2 ^ s.params.bnBits) (bnC : s.bnC < 2 ^ s.params.bnBits)
    (bnR : s.bnR < 2 ^ s.params.bnBits) (bnS : s.bnS < 2 ^ s.params.bnBits)
    (percent : s.progress.toNat ≤ 100) (hidle : s.engine = .idle) : s.Ok where
  legal := legal
  memWf := memWf
  memIn := memIn
  bnA := bnA
  bnB := bnB
  bnC := bnC
  bnR := bnR
  bnS := bnS
  percent := percent
  flags := fun hbusy => absurd hbusy (by rw [State.busy_of_idle hidle]; decide)
  engine := by simp only [engineFits, hidle]

theorem State.Ok.doReset {s : State} (legal : s.params.Legal) : s.doReset.Ok :=
  .of_idle legal rfl rfl (Nat.two_pow_pos _) (Nat.two_pow_pos _) (Nat.two_pow_pos _)
    (Nat.two_pow_pos _) (Nat.two_pow_pos _) (Nat.zero_le _) rfl

theorem defaultParams_legal : Config.defaultParams.Legal :=
  Params.legal_of (by decide) (by decide) Config.smallPrimes_legal Config.feTables_legal

/-- Settles O8: the reset state is a state after a reset, of the build of R11. -/
theorem resetStateIsOk : Obligations.ResetStateIsOk :=
  State.Ok.doReset (s := State.reset) defaultParams_legal

/-- A failed completion keeps the invariant, whatever else it leaves of the instance and of what was
drawn and read. -/
theorem State.Ok.fail {s : State} (h : s.Ok) (e : CmdError) (inst : Option Schedule) (en : Entropy)
    (fc : Nat) {pr : BitVec 7} (hpr : pr.toNat ≤ 100) :
    (State.fail e { s with inst := inst, entropy := en, freeCount := fc, progress := pr }).Ok :=
  .of_idle h.legal (Memory.wf_forget _ _ h.memWf) (Memory.inBuffers_forget _ _ h.memIn) h.bnA h.bnB
    h.bnC h.bnR h.bnS hpr rfl

theorem writeResult_bnR_lt {s : State} (h : s.bnR < 2 ^ s.params.bnBits) (r : Result) :
    (s.writeResult r).bnR < 2 ^ s.params.bnBits := by
  cases r with
  | number v => exact bnValue_lt s v
  | dhParams p g => exact bnValue_lt s p
  | _ => exact h

theorem writeResult_bnS_lt {s : State} (h : s.bnS < 2 ^ s.params.bnBits) (r : Result) :
    (s.writeResult r).bnS < 2 ^ s.params.bnBits := by
  cases r with
  | dhParams p g => exact bnValue_lt s g
  | _ => exact h

/-- The byte string that a result writes to `OUT_BUF` (R48, R324). -/
def Result.bytes (p : Params) : Result → Bytes
  | .output b => b
  | .factors fs => factorBytes p fs
  | .derivedKey k => k
  | .keyed _ => []
  | .number _ => []
  | .dhParams _ _ => []

@[simp] theorem writeResult_mem (s : State) (r : Result) :
    (s.writeResult r).mem = s.outputMem (r.bytes s.params) := by cases r <;> rfl

@[simp] theorem succeed_mem (s : State) (r : Result) :
    (s.succeed r).mem = s.outputMem (r.bytes s.params) := writeResult_mem s r

theorem Result.bytes_length_le {p : Params} {r : Result} (h : r.fitsBuffer p) :
    (r.bytes p).length ≤ p.bufBytes := by
  cases r with
  | output b => exact h
  | factors fs => exact h
  | derivedKey k => exact h
  | _ => exact Nat.zero_le _

/-- A successful completion keeps the invariant when its output fits. -/
theorem State.Ok.succeed {s : State} (h : s.Ok) {r : Result} (hr : r.fitsBuffer s.params) :
    (s.succeed r).Ok := by
  refine .of_idle ?_ ?_ ?_ ?_ ?_ ?_ ?_ ?_ ?_ (State.succeed_engine s r) <;>
    simp only [State.succeed_params, succeed_mem, State.succeed_bnA, State.succeed_bnB,
      State.succeed_bnC, State.succeed_progress]
  · exact h.legal
  · exact Memory.wf_store _ _ (Memory.wf_forget _ _ h.memWf)
  · exact inBuffers_outputMem h.memIn (Result.bytes_length_le hr)
  · exact h.bnA
  · exact h.bnB
  · exact h.bnC
  · exact writeResult_bnR_lt h.bnR r
  · exact writeResult_bnS_lt h.bnS r
  · exact h.percent

/-- Under the invariant a running command's context is its own, and at its start nothing is reported. -/
theorem State.Ok.ctxFits {s : State} {w : Word32} {ctx : Ctx} {i : Instr} (h : s.Ok)
    (hrun : s.engine = .running w ctx) (hd : decode w = .ok i) :
    ctxFits s i ctx ∧ (ctx = .start → s.progress = 0) := by
  have hfits := h.engine
  simp only [engineFits, hrun] at hfits
  obtain ⟨rfl, h0⟩ | ⟨hne, j, hj, hctx⟩ := hfits
  · exact ⟨trivial, fun _ => h0⟩
  · cases hj.symm.trans hd
    exact ⟨hctx, fun h => absurd h hne⟩

/-- Every move of the engine keeps the invariant. -/
theorem EngineMove.keeps_ok {i : Instr} {s t : State} {w : Word32} {ctx : Ctx} (h : s.Ok)
    (hrun : s.engine = .running w ctx) (hd : decode w = .ok i) (hmove : EngineMove i s t) : t.Ok := by
  have hown := h.ctxFits hrun hd
  have hpercent {pr : BitVec 7} : progressMoves i s ctx pr → pr.toNat ≤ 100
    | .inl heq => heq ▸ h.percent
    | .inr ⟨_, hle, _⟩ => hle
  cases hmove with
  | stay => exact h
  | raise hrun' e inst en fc pr _ rises =>
    cases hrun.symm.trans hrun'
    exact h.fail e inst en fc (hpercent rises)
  | advance hrun' next en fc pr moved rises fits =>
    cases hrun.symm.trans hrun'
    have hfits := fits h.legal hown.2 hown.1
    exact {
      legal := h.legal, memWf := h.memWf, memIn := h.memIn, bnA := h.bnA, bnB := h.bnB, bnC := h.bnC
      bnR := h.bnR, bnS := h.bnS
      percent := hpercent rises
      flags := fun _ => h.flags (State.busy_of_running hrun)
      engine := .inr ⟨moved, i, hd, (ctxFits_congr (by rfl) (by rfl) (by rfl) i next).mp hfits⟩ }
  | complete hrun' r fits =>
    cases hrun.symm.trans hrun'
    exact h.succeed (fits hown.1).1

/-! ## Host accesses -/

theorem State.Ok.accept {s : State} (h : s.Ok) (w : Word32) : (s.accept w).Ok where
  legal := h.legal
  memWf := h.memWf
  memIn := h.memIn
  bnA := h.bnA
  bnB := h.bnB
  bnC := h.bnC
  bnR := h.bnR
  bnS := h.bnS
  percent := Nat.zero_le _
  flags := fun _ => ⟨rfl, rfl, rfl⟩
  engine := .inl ⟨rfl, rfl⟩

/-- A write that leaves the build, the buffers, the naturals, the percentage, the instance and the engine
alone, and sets none of a running command's flags, keeps the invariant. -/
theorem State.Ok.of_registers {s t : State} (h : s.Ok) (hp : t.params = s.params) (hm : t.mem = s.mem)
    (ha : t.bnA = s.bnA) (hb : t.bnB = s.bnB) (hc : t.bnC = s.bnC) (hr : t.bnR = s.bnR)
    (hs : t.bnS = s.bnS) (hpr : t.progress = s.progress) (hinst : t.inst = s.inst)
    (heng : t.engine = s.engine) (hdone : t.done = true → s.done = true) (herr : t.err = s.err)
    (hout : t.outLen = s.outLen) : t.Ok where
  legal := by rw [hp]; exact h.legal
  memWf := by rw [hm]; exact h.memWf
  memIn := by rw [hp, hm]; exact h.memIn
  bnA := by rw [hp, ha]; exact h.bnA
  bnB := by rw [hp, hb]; exact h.bnB
  bnC := by rw [hp, hc]; exact h.bnC
  bnR := by rw [hp, hr]; exact h.bnR
  bnS := by rw [hp, hs]; exact h.bnS
  percent := by rw [hpr]; exact h.percent
  flags := fun hbusy => by
    have hbusy' : s.busy = true := by rwa [State.busy_iff, ← heng, ← State.busy_iff]
    obtain ⟨h1, h2, h3⟩ := h.flags hbusy'
    refine ⟨Bool.eq_false_iff.mpr fun hd => ?_, herr.trans h2, hout.trans h3⟩
    exact absurd (hdone hd) (by rw [h1]; decide)
  engine := engineFits_congr hp hinst hpr heng h.engine

theorem State.Ok.writeCtrl {s : State} (h : s.Ok) (w : Word32) : (s.writeCtrl w).Ok := by
  unfold State.writeCtrl
  split
  · exact .doReset h.legal
  · exact h.of_registers rfl rfl rfl rfl rfl rfl rfl rfl rfl rfl id rfl rfl

theorem State.Ok.acknowledge {s : State} (h : s.Ok) (w : Word32) : (s.acknowledge w).Ok :=
  h.of_registers rfl rfl rfl rfl rfl rfl rfl rfl rfl rfl
    (fun hd => (Bool.and_eq_true _ _ ▸ hd : s.done = true ∧ _).1) rfl rfl

theorem State.Ok.writeControl {s : State} (h : s.Ok) (l : Loc) (w : Word32) :
    (s.writeControl l w).Ok := by
  cases l with
  | ctrl => exact h.writeCtrl w
  | status => exact h.acknowledge w
  | cmd => exact h.accept w
  | inLen => exact h.of_registers rfl rfl rfl rfl rfl rfl rfl rfl rfl rfl id rfl rfl
  | keyLen => exact h.of_registers rfl rfl rfl rfl rfl rfl rfl rfl rfl rfl id rfl rfl
  | ivLen => exact h.of_registers rfl rfl rfl rfl rfl rfl rfl rfl rfl rfl id rfl rfl
  | mrRounds => exact h.of_registers rfl rfl rfl rfl rfl rfl rfl rfl rfl rfl id rfl rfl
  | pbits => exact h.of_registers rfl rfl rfl rfl rfl rfl rfl rfl rfl rfl id rfl rfl
  | _ => exact h

/-- The location at an address (R23): which range the address lies in, and whether it is within its
window's register. -/
inductive Located (p : Params) (a : Nat) : Loc → Prop where
  | control (below : a < 0x40) : Located p a (controlLoc (a / 4))
  | key (low : 0x40 ≤ a) (high : a < 0x60) : Located p a (.key (a - 0x40))
  | iv (low : 0x60 ≤ a) (high : a < 0x70) : Located p a (.iv (a - 0x60))
  | bnA (low : 0x1000 ≤ a) (high : a < 0x1200) (inside : a - 0x1000 < p.bnBytes) :
      Located p a (.bnA (a - 0x1000))
  | bnB (low : 0x1200 ≤ a) (high : a < 0x1400) (inside : a - 0x1200 < p.bnBytes) :
      Located p a (.bnB (a - 0x1200))
  | bnC (low : 0x1400 ≤ a) (high : a < 0x1600) (inside : a - 0x1400 < p.bnBytes) :
      Located p a (.bnC (a - 0x1400))
  | bnR (low : 0x1600 ≤ a) (high : a < 0x1800) (inside : a - 0x1600 < p.bnBytes) :
      Located p a (.bnR (a - 0x1600))
  | bnS (low : 0x1800 ≤ a) (high : a < 0x1A00) (inside : a - 0x1800 < p.bnBytes) :
      Located p a (.bnS (a - 0x1800))
  | inBuf (low : 0x10000 ≤ a) (high : a < 0x20000) (inside : a - 0x10000 < p.bufBytes) :
      Located p a (.inBuf (a - 0x10000))
  | outBuf (low : 0x20000 ≤ a) (high : a < 0x30000) (inside : a - 0x20000 < p.bufBytes) :
      Located p a (.outBuf (a - 0x20000))
  | gap (between : (0x70 ≤ a ∧ a < 0x1000) ∨ (0x1A00 ≤ a ∧ a < inBase) ∨ outEnd ≤ a) :
      Located p a .reserved
  /-- Past a window's register (R46 to R48). -/
  | past (size base : Nat)
      (window : (size = p.bnBytes ∧ (base = 0x1000 ∨ base = 0x1200 ∨ base = 0x1400 ∨ base = 0x1600 ∨
        base = 0x1800) ∧ a < base + 0x200) ∨
        (size = p.bufBytes ∧ (base = 0x10000 ∨ base = 0x20000) ∧ a < base + 0x10000))
      (low : base ≤ a) (outside : size ≤ a - base) : Located p a .reserved

theorem located_window {p : Params} {a size base : Nat} {byte : Nat → Loc}
    (hinside : a - base < size → Located p a (byte (a - base)))
    (hpast : size ≤ a - base → Located p a .reserved) :
    Located p a (windowLoc size (a - base) byte) := by
  unfold windowLoc
  split
  next h => exact hinside h
  next h => exact hpast (not_lt.mp h)

/-- Every address has its location, by the ranges of `locate`. -/
theorem located (p : Params) (a : Nat) : Located p a (locate p a) := by
  have hin : inBase = 0x10000 := rfl
  have hout : outBase = 0x20000 := rfl
  have hend : outEnd = 0x30000 := rfl
  by_cases hgap : (0x70 ≤ a ∧ a < 0x1000) ∨ (0x1A00 ≤ a ∧ a < inBase) ∨ outEnd ≤ a
  · rw [locate_reserved p hgap]
    exact .gap hgap
  rcases Nat.lt_or_ge a 0x40 with h | h
  · rw [locate_control p h]
    exact .control h
  rcases Nat.lt_or_ge a 0x60 with h' | h'
  · rw [locate_key p h h']
    exact .key h h'
  rcases Nat.lt_or_ge a 0x70 with h | h
  · rw [locate_iv p h' h]
    exact .iv h' h
  rcases Nat.lt_or_ge a 0x1200 with h' | h'
  · rw [locate_bnA p (by omega) h']
    exact located_window (.bnA (by omega) h') fun hp => .past _ 0x1000 (by simp; omega) (by omega) hp
  rcases Nat.lt_or_ge a 0x1400 with h | h
  · rw [locate_bnB p h' h]
    exact located_window (.bnB h' h) fun hp => .past _ 0x1200 (by simp; omega) (by omega) hp
  rcases Nat.lt_or_ge a 0x1600 with h' | h'
  · rw [locate_bnC p h h']
    exact located_window (.bnC h h') fun hp => .past _ 0x1400 (by simp; omega) (by omega) hp
  rcases Nat.lt_or_ge a 0x1800 with h | h
  · rw [locate_bnR p h' h]
    exact located_window (.bnR h' h) fun hp => .past _ 0x1600 (by simp; omega) (by omega) hp
  rcases Nat.lt_or_ge a 0x1A00 with h' | h'
  · rw [locate_bnS p h h']
    exact located_window (.bnS h h') fun hp => .past _ 0x1800 (by simp; omega) (by omega) hp
  rcases Nat.lt_or_ge a outBase with h | h
  · rw [locate_inBuf p (by omega) h]
    exact located_window (.inBuf (by omega) h) fun hp => .past _ 0x10000 (by simp; omega) (by omega) hp
  · rw [locate_outBuf p h (by omega)]
    exact located_window (.outBuf h (by omega)) fun hp => .past _ 0x20000 (by simp; omega) (by omega) hp

/-! ### A write of one byte, location by location -/

section WriteByte
variable {s : State} {a i : Nat} (b : Byte)

theorem writeByte_key (h : locate s.params a = .key i) :
    s.writeByte a b = { s with key := s.key.setIfInBounds i b } := by simp only [State.writeByte, h]

theorem writeByte_iv (h : locate s.params a = .iv i) :
    s.writeByte a b = { s with iv := s.iv.setIfInBounds i b } := by simp only [State.writeByte, h]

theorem writeByte_bnA (h : locate s.params a = .bnA i) :
    s.writeByte a b = { s with bnA := setByteOfNat s.bnA i b } := by simp only [State.writeByte, h]

theorem writeByte_bnB (h : locate s.params a = .bnB i) :
    s.writeByte a b = { s with bnB := setByteOfNat s.bnB i b } := by simp only [State.writeByte, h]

theorem writeByte_bnC (h : locate s.params a = .bnC i) :
    s.writeByte a b = { s with bnC := setByteOfNat s.bnC i b } := by simp only [State.writeByte, h]

theorem writeByte_inBuf (h : locate s.params a = .inBuf i) :
    s.writeByte a b = { s with mem := Memory.store s.mem a [b] } := by simp only [State.writeByte, h]

/-- Every other byte is read-only, reserved or of a control register (R68). -/
theorem writeByte_of_not_operand (h : (locate s.params a).isOperand = false) : s.writeByte a b = s := by
  unfold State.writeByte
  split
  case h_7 => rfl
  all_goals
    rename_i hloc
    rw [hloc] at h
    cases h

end WriteByte

theorem State.Ok.with_bnA {s : State} {x : Nat} (h : s.Ok) (hx : x < 2 ^ s.params.bnBits) :
    State.Ok { s with bnA := x } :=
  { h with bnA := hx, engine := engineFits_congr rfl rfl rfl rfl h.engine }

theorem State.Ok.with_bnB {s : State} {x : Nat} (h : s.Ok) (hx : x < 2 ^ s.params.bnBits) :
    State.Ok { s with bnB := x } :=
  { h with bnB := hx, engine := engineFits_congr rfl rfl rfl rfl h.engine }

theorem State.Ok.with_bnC {s : State} {x : Nat} (h : s.Ok) (hx : x < 2 ^ s.params.bnBits) :
    State.Ok { s with bnC := x } :=
  { h with bnC := hx, engine := engineFits_congr rfl rfl rfl rfl h.engine }

theorem State.Ok.writeByte {s : State} (h : s.Ok) (a : Nat) (b : Byte) : (s.writeByte a b).Ok := by
  have hbits := two_pow_bnBits h.legal
  have hset {x i : Nat} (hx : x < 2 ^ s.params.bnBits) (hi : i < s.params.bnBytes) :
      setByteOfNat x i b < 2 ^ s.params.bnBits := by
    rw [hbits] at hx ⊢
    exact setByteOfNat_lt hx hi
  generalize hl : locate s.params a = l
  have hloc : Located s.params a l := hl ▸ located s.params a
  cases hloc with
  | control _ =>
    unfold State.writeByte
    rw [hl]
    fun_cases controlLoc (a / 4) <;> exact h
  | key _ _ =>
    rw [writeByte_key b hl]
    exact h.of_registers rfl rfl rfl rfl rfl rfl rfl rfl rfl rfl id rfl rfl
  | iv _ _ =>
    rw [writeByte_iv b hl]
    exact h.of_registers rfl rfl rfl rfl rfl rfl rfl rfl rfl rfl id rfl rfl
  | bnA _ _ hi =>
    rw [writeByte_bnA b hl]
    exact h.with_bnA (hset h.bnA hi)
  | bnB _ _ hi =>
    rw [writeByte_bnB b hl]
    exact h.with_bnB (hset h.bnB hi)
  | bnC _ _ hi =>
    rw [writeByte_bnC b hl]
    exact h.with_bnC (hset h.bnC hi)
  | inBuf hlow _ hi =>
    rw [writeByte_inBuf b hl]
    have hroom : inBase ≤ a ∧ a + [b].length ≤ inBase + s.params.bufBytes := by
      simp only [inBase, List.length_singleton]
      omega
    exact { h with
      memWf := Memory.wf_store _ _ h.memWf
      memIn := Memory.inBuffers_store h.memIn (.inl hroom)
      engine := engineFits_congr rfl rfl rfl rfl h.engine }
  | _ =>
    rw [writeByte_of_not_operand b (by rw [hl]; rfl)]
    exact h

theorem State.Ok.writeBytes {s : State} (h : s.Ok) (a : Nat) (w : Word32) (k n : Nat) :
    (s.writeBytes a w k n).Ok := by
  induction n generalizing s k with
  | zero => exact h
  | succ n ih => exact ih (h.writeByte _ _) _

theorem State.Ok.busAccess {s : State} (h : s.Ok) (x : Access) : (s.busAccess x).Ok := by
  have hanswer {t : State} (ht : t.Ok) (r : Reply) : State.Ok { t with reply := some r } :=
    ht.of_registers rfl rfl rfl rfl rfl rfl rfl rfl rfl rfl id rfl rfl
  obtain ⟨addr, size, -, -, heq⟩ | ⟨addr, size, w, -, -, heq⟩ | heq := busAccess_cases x s <;> rw [heq]
  · exact h.of_registers rfl rfl rfl rfl rfl rfl rfl rfl rfl rfl id rfl rfl
  · refine hanswer ?_ _
    obtain ⟨-, -, heq⟩ | ⟨-, -, heq⟩ | ⟨-, -, heq⟩ := busWrite_cases addr.toNat size w s <;> rw [heq]
    · exact h.of_registers rfl rfl rfl rfl rfl rfl rfl rfl rfl rfl id rfl rfl
    · exact h.writeControl _ w
    · exact h.writeBytes _ w _ _
  · exact hanswer h _

/-! ## Steps -/

theorem State.Ok.engineStep {s t : State} (h : s.Ok) (hstep : engineStep s = .next t) : t.Ok := by
  obtain ⟨-, heq⟩ | ⟨w, ctx, i, hrun, hd, heq⟩ | ⟨w, ctx, e, -, -, heq⟩ := engineStep_cases s <;>
    rw [heq] at hstep
  · cases hstep
    exact h
  · exact (engineMove_of_exec hstep).keeps_ok h hrun hd
  · cases hstep
    exact h.fail _ s.inst s.entropy s.freeCount h.percent

/-- Settles O9, by what moves: the engine, a host access or a reset. -/
theorem everyStepKeepsOk : Obligations.EveryStepKeepsOk := by
  intro s t h hstep
  have hrest (rest : List Event) : State.Ok { s with agenda := rest } :=
    h.of_registers rfl rfl rfl rfl rfl rfl rfl rfl rfl rfl id rfl rfl
  obtain ⟨-, heq⟩ | ⟨rest, -, heq⟩ | ⟨a, rest, -, heq⟩ | ⟨rest, -, heq⟩ := step_cases s <;>
    rw [heq] at hstep
  · exact h.engineStep hstep
  · exact (hrest rest).engineStep hstep
  · cases hstep
    exact (hrest rest).busAccess a
  · cases hstep
    exact .doReset h.legal

end Sys2Proof.Machine
end

section
/-! What steps of the machine are, and what an engine step of each command writes (spec/10_state.md R36,
R37 and R50, spec/70_reset_and_hazards.md R374). -/

namespace Sys2Proof.Machine

/-! ## Steps -/

/-- A step whose mover is the engine is one engine step after the agenda's entry is taken (R74). -/
theorem step_of_engine {s : State} (h : s.agenda = [] ∨ s.agenda.head? = some .engine) :
    step s = engineStep { s with agenda := s.agenda.tail } := by
  obtain ⟨hnil, heq⟩ | ⟨rest, hcons, heq⟩ | ⟨a, rest, hcons, -⟩ | ⟨rest, hcons, -⟩ := step_cases s
  · rw [heq, hnil]
    exact congrArg engineStep (by rw [List.tail_nil, ← hnil])
  · rw [heq, hcons, List.tail_cons]
  · simp [hcons] at h
  · simp [hcons] at h

theorem engineStep_of_running {s : State} {w : Word32} {ctx : Ctx} {i : Instr}
    (hrun : s.engine = .running w ctx) (hd : decode w = .ok i) : engineStep s = exec i s := by
  simp only [engineStep, hrun, hd]

theorem engineStep_of_illegal {s : State} {w : Word32} {ctx : Ctx} {e : DecodeError}
    (hrun : s.engine = .running w ctx) (hd : decode w = .error e) :
    engineStep s = .next (s.fail .illegalCommand) := by
  simp only [engineStep, hrun, hd]

theorem engineStep_of_idle {s : State} (h : s.engine = .idle) : engineStep s = .next s := by
  simp only [engineStep, h]

/-- Settles O5: the mover is the head of the agenda, or the engine when there is none. -/
theorem stepRunsTheDecodedCommand : Obligations.StepRunsTheDecodedCommand := by
  refine ⟨fun s w ctx i hrun hd hmover => ?_, fun s hidle hmover => ?_, fun s a rest hcons => ?_⟩
  · rw [step_of_engine hmover]
    exact engineStep_of_running hrun hd
  · rw [step_of_engine hmover]
    exact engineStep_of_idle hidle
  · simp only [step, hcons]

/-- A failed completion is what R325 says. -/
theorem failedFrom_fail (s : State) (e : CmdError) : failedFrom s (s.fail e) e := by
  refine ⟨rfl, fun a => ?_⟩
  rw [State.fail_mem, Memory.read_forget, List.getElem?_nil]

/-- Settles O6: the engine step of a word that does not decode is a failed completion. -/
theorem illegalWordCompletes : Obligations.IllegalWordCompletes := by
  intro s w ctx e hrun hd hmover
  refine ⟨_, ?_, failedFrom_fail { s with agenda := s.agenda.tail } .illegalCommand⟩
  rw [step_of_engine hmover]
  exact engineStep_of_illegal hrun hd

theorem engineStep_next (s : State) : ∃ t, engineStep s = .next t := by
  obtain ⟨-, heq⟩ | ⟨w, ctx, i, -, -, heq⟩ | ⟨w, ctx, e, -, -, heq⟩ := engineStep_cases s
  · exact ⟨_, heq⟩
  · obtain ⟨t, ht, -⟩ := exec_move i s
    exact ⟨t, heq.trans ht⟩
  · exact ⟨_, heq⟩

/-- Settles O7: every command's engine step has a next state (`exec_move`), and so has every other
move. -/
theorem stepNeverStops : Obligations.StepNeverStops := by
  intro s
  obtain ⟨-, heq⟩ | ⟨rest, -, heq⟩ | ⟨a, rest, -, heq⟩ | ⟨rest, -, heq⟩ := step_cases s
  · rw [heq]
    exact engineStep_next s
  · rw [heq]
    exact engineStep_next _
  · exact ⟨_, heq⟩
  · exact ⟨_, heq⟩

/-! ## Completion -/

/-- A move of a running engine that ends the command sets `DONE` and leaves `IRQ_EN` and `CMD`. -/
theorem EngineMove.done_of_idle {i : Instr} {s t : State} (h : EngineMove i s t)
    (hbusy : s.busy = true) (hidle : t.busy = false) :
    t.done = true ∧ t.irqEn = s.irqEn ∧ t.cmd = s.cmd := by
  cases h with
  | stay => exact absurd (hbusy.symm.trans hidle) (by decide)
  | raise => exact ⟨rfl, rfl, rfl⟩
  | advance => cases hidle
  | complete running r fits =>
    exact ⟨State.succeed_done s r, State.succeed_irqEn s r, State.succeed_cmd s r⟩

/-- Settles O21: a move that ends the command is a failed or a successful completion. -/
theorem completionSetsDone : Obligations.CompletionSetsDone := by
  intro s t hbusy hstep hidle
  have hends : t.done = true ∧ t.irqEn = s.irqEn ∧ t.cmd = s.cmd := by
    obtain ⟨-, heq⟩ | ⟨w, ctx, i, -, -, heq⟩ | ⟨w, ctx, e, -, -, heq⟩ := engineStep_cases s <;>
      rw [heq] at hstep
    · cases hstep
      exact absurd (hbusy.symm.trans hidle) (by decide)
    · exact (engineMove_of_exec hstep).done_of_idle hbusy hidle
    · cases hstep
      exact ⟨rfl, rfl, rfl⟩
  obtain ⟨hdone, hirq, hcmd⟩ := hends
  exact ⟨hdone, by rw [State.irq, hdone, hirq, Bool.true_and], hcmd⟩

/-! ## What an engine step leaves -/

/-- What no engine step writes (R50): the operands, the build, the host's bits and the model's agenda and
answer. -/
theorem EngineMove.frame {i : Instr} {s t : State} (h : EngineMove i s t) :
    t.inLen = s.inLen ∧ t.iv = s.iv ∧ t.ivLen = s.ivLen ∧ t.bnA = s.bnA ∧ t.bnB = s.bnB ∧
      t.bnC = s.bnC ∧ t.mrRounds = s.mrRounds ∧ t.pbits = s.pbits ∧ t.params = s.params ∧
      t.irqEn = s.irqEn ∧ t.cancel = s.cancel ∧ t.drop = s.drop ∧ t.cmd = s.cmd ∧
      t.agenda = s.agenda ∧ t.reply = s.reply := by
  cases h <;> simp

/-- Below `OUT_BUF` an output leaves every byte (R47). -/
theorem read_outputMem_of_lt (s : State) (b : Bytes) {a : Nat} (h : a < outBase) :
    Memory.read (s.outputMem b) a = Memory.read s.mem a := by
  rw [State.outputMem, Memory.read_store, Memory.read_forget, if_neg (by omega), if_neg (by omega)]

/-- No engine step writes `IN_BUF` (R50). -/
theorem EngineMove.read_input {i : Instr} {s t : State} (h : EngineMove i s t) {a : Nat}
    (ha : a < outBase) : Memory.read t.mem a = Memory.read s.mem a := by
  cases h with
  | stay => rfl
  | raise => exact (Memory.read_forget _ _ _ _).trans (if_neg (by omega))
  | advance => rfl
  | complete running r fits =>
    rw [succeed_mem]
    exact read_outputMem_of_lt s _ ha

section Producer
variable {i : Instr} {s : State} {r : Result}

theorem succeed_inst_of_producedBy (h : r.producedBy i) (hi : ∀ c, i ≠ .keyset c) :
    (s.succeed r).inst = s.inst := by
  cases r with
  | keyed k => exact absurd h (fun ⟨c, hc⟩ => hi c hc)
  | _ => rfl

theorem succeed_key_of_producedBy (h : r.producedBy i) (hi : i ≠ .kdf) :
    (s.succeed r).key = s.key ∧ (s.succeed r).keyLen = s.keyLen := by
  cases r with
  | derivedKey k => exact absurd h hi
  | _ => exact ⟨rfl, rfl⟩

theorem succeed_bnS_of_producedBy (h : r.producedBy i) (hi : i ≠ .genparams) :
    (s.succeed r).bnS = s.bnS := by
  cases r with
  | dhParams p g => exact absurd h hi
  | _ => rfl

theorem succeed_nfact_of_producedBy (h : r.producedBy i) (hi : i ≠ .pfactors) :
    (s.succeed r).nfact = s.nfact := by
  cases r with
  | factors fs => exact absurd h hi
  | _ => rfl

end Producer

/-- Which command writes the instance, `KEY`, `BN_S` and `NFACT` (R50). -/
theorem EngineMove.writers {i : Instr} {s t : State} {w : Word32} {ctx : Ctx}
    (hrun : s.engine = .running w ctx) (hfits : ctxFits s i ctx) (h : EngineMove i s t) :
    ((∀ c, i ≠ .keyset c) → t.inst = s.inst) ∧
      (i ≠ .kdf → t.key = s.key ∧ t.keyLen = s.keyLen) ∧ (i ≠ .genparams → t.bnS = s.bnS) ∧
      (i ≠ .pfactors → t.nfact = s.nfact) := by
  cases h with
  | raise running e inst en fc pr keeps rises =>
    refine ⟨fun hi => ?_, fun _ => ⟨rfl, rfl⟩, fun _ => rfl, fun _ => rfl⟩
    exact keeps.resolve_right fun ⟨c, hc⟩ => hi c hc
  | complete running r fits =>
    cases hrun.symm.trans running
    have hby := (fits hfits).2
    exact ⟨succeed_inst_of_producedBy hby, succeed_key_of_producedBy hby,
      succeed_bnS_of_producedBy hby, succeed_nfact_of_producedBy hby⟩
  | _ => exact ⟨fun _ => rfl, fun _ => ⟨rfl, rfl⟩, fun _ => rfl, fun _ => rfl⟩

/-- Settles O22: the step is a move, with the frame and the writers of moves. -/
theorem engineStepsKeepOperands : Obligations.EngineStepsKeepOperands := by
  intro s t w ctx i hrun hd hstep
  rw [engineStep_of_running hrun hd] at hstep
  have hmove := engineMove_of_exec hstep
  obtain ⟨h1, h2, h3, h4, h5, h6, h7, h8, hframe⟩ := hmove.frame
  obtain ⟨h9, h10, h11, h12, h13, h14, h15⟩ := hframe
  refine ⟨h1, h2, h3, h4, h5, h6, h7, h8, fun a ha _ _ => hmove.read_input ha, h9, h10, h11, h12, h13,
    h14, h15, fun hi hfits => (hmove.writers hrun hfits).1 hi,
    fun hi hfits => (hmove.writers hrun hfits).2.1 hi,
    fun hi hfits => (hmove.writers hrun hfits).2.2.1 hi,
    fun hi hfits => (hmove.writers hrun hfits).2.2.2 hi⟩

/-! ## Progress -/

/-- Settles O24: a move leaves `PROGRESS` or raises it to a percentage, and only a mode command's move
does the latter. -/
theorem progressRisesOnlyInModeCommands : Obligations.ProgressRisesOnlyInModeCommands := by
  intro s t w ctx hok hrun hstep
  have hle : t.progress.toNat ≤ 100 := (hok.engineStep hstep).percent
  suffices h : t.progress = s.progress ∨ ((∃ i, decode w = .ok i ∧ isModeCommand i) ∧
      s.progress.toNat ≤ t.progress.toNat) by
    obtain heq | ⟨⟨i, hd, c, m, p, v, hi⟩, hrise⟩ := h
    · exact ⟨fun hne => absurd heq hne, fun _ => heq ▸ le_rfl, hle⟩
    · exact ⟨fun _ => ⟨c, m, p, v, hi.imp (hd.trans ∘ congrArg _) (hd.trans ∘ congrArg _)⟩,
        fun _ => hrise, hle⟩
  cases hd : decode w with
  | error e =>
    rw [engineStep_of_illegal hrun hd] at hstep
    cases hstep
    exact .inl rfl
  | ok i =>
    rw [engineStep_of_running hrun hd] at hstep
    have hown := (hok.ctxFits hrun hd).1
    have hmoves {pr : BitVec 7} (h : progressMoves i s ctx pr) : pr = s.progress ∨
        ((∃ j, Except.ok (ε := DecodeError) i = .ok j ∧ isModeCommand j) ∧
          s.progress.toNat ≤ pr.toNat) :=
      h.imp id fun ⟨hi, _, hrise⟩ => ⟨⟨i, rfl, hi⟩, hrise hown⟩
    cases engineMove_of_exec hstep with
    | stay => exact .inl rfl
    | raise hrun' _ _ _ _ _ _ rises =>
      cases hrun.symm.trans hrun'
      exact hmoves rises
    | advance hrun' _ _ _ _ _ rises _ =>
      cases hrun.symm.trans hrun'
      exact hmoves rises
    | complete _ r _ => exact .inl (State.succeed_progress s r)

/-! ## The instance -/

@[simp] theorem writeByte_inst (a : Nat) (b : Byte) (s : State) : (s.writeByte a b).inst = s.inst := by
  unfold State.writeByte
  split <;> rfl

@[simp] theorem writeBytes_inst (a : Nat) (w : Word32) (k n : Nat) (s : State) :
    (s.writeBytes a w k n).inst = s.inst := by
  induction n generalizing s k with
  | zero => rfl
  | succ n ih => exact (ih _ _).trans (writeByte_inst _ _ s)

/-- Only a soft reset among the register writes touches the instance (R361). -/
theorem writeControl_inst (l : Loc) (w : Word32) (s : State) :
    (s.writeControl l w).inst = s.inst ∨ s.writeControl l w = s.doReset := by
  cases l with
  | ctrl =>
    simp only [State.writeControl, State.writeCtrl]
    split
    · exact .inr rfl
    · exact .inl rfl
  | _ => exact .inl rfl

/-- A host access leaves the instance or is a soft reset. -/
theorem busAccess_inst (x : Access) (s : State) :
    (s.busAccess x).inst = s.inst ∨
      s.busAccess x = { s.doReset with reply := (s.busAccess x).reply } := by
  obtain ⟨addr, size, -, -, heq⟩ | ⟨addr, size, w, -, -, heq⟩ | heq := busAccess_cases x s <;> rw [heq]
  · exact .inl rfl
  · obtain ⟨-, -, heq⟩ | ⟨-, -, heq⟩ | ⟨-, -, heq⟩ := busWrite_cases addr.toNat size w s <;> rw [heq]
    · exact .inl rfl
    · refine (writeControl_inst (locate s.params addr.toNat) w s).imp id fun h => ?_
      rw [h]
    · exact .inl (writeBytes_inst _ _ _ _ s)
  · exact .inl rfl

/-- An engine step leaves the instance or is one of `KEYSET`. -/
theorem engineStep_inst {s t : State} (hok : s.Ok) (hstep : engineStep s = .next t) :
    t.inst = s.inst ∨ ∃ w ctx c, s.engine = .running w ctx ∧ decode w = .ok (.keyset c) := by
  obtain ⟨-, heq⟩ | ⟨w, ctx, i, hrun, hd, heq⟩ | ⟨w, ctx, e, -, -, heq⟩ := engineStep_cases s <;>
    rw [heq] at hstep
  · cases hstep
    exact .inl rfl
  · by_cases hi : ∃ c, i = .keyset c
    · obtain ⟨c, rfl⟩ := hi
      exact .inr ⟨w, ctx, c, hrun, hd⟩
    · have hmove := engineMove_of_exec hstep
      exact .inl ((hmove.writers hrun (hok.ctxFits hrun hd).1).1 fun c hc => hi ⟨c, hc⟩)
  · cases hstep
    exact .inl rfl

theorem State.Ok.with_agenda {s : State} (h : s.Ok) (rest : List Event) :
    State.Ok { s with agenda := rest } :=
  h.of_registers rfl rfl rfl rfl rfl rfl rfl rfl rfl rfl id rfl rfl

/-- Settles O23, by what moves: an engine step, a host access or a reset. -/
theorem instanceChangesOnlyByKeysetOrReset : Obligations.InstanceChangesOnlyByKeysetOrReset := by
  intro s t hok hstep
  obtain ⟨hnil, heq⟩ | ⟨rest, hcons, heq⟩ | ⟨a, rest, hcons, heq⟩ | ⟨rest, hcons, heq⟩ :=
    step_cases s <;> rw [heq] at hstep
  · exact (engineStep_inst hok hstep).imp id fun h => .inl ⟨.inl hnil, h⟩
  · exact (engineStep_inst (hok.with_agenda rest) hstep).imp id fun h =>
      .inl ⟨.inr (by rw [hcons]; rfl), h⟩
  · cases hstep
    refine (busAccess_inst a { s with agenda := rest }).imp id fun h => .inr ?_
    rw [hcons]
    exact h
  · cases hstep
    rw [hcons]
    exact .inr (.inr rfl)

/-! ## Cancellation -/

/-- A state with `CTRL.CANCEL` replaced (R26). -/
def State.withCancel (b : Bool) (s : State) : State := { s with cancel := b }

section WithCancel
variable (b : Bool) (s : State)

@[simp] theorem withCancel_params : (s.withCancel b).params = s.params := rfl
@[simp] theorem withCancel_mrRounds : (s.withCancel b).mrRounds = s.mrRounds := rfl
@[simp] theorem withCancel_pbits : (s.withCancel b).pbits = s.pbits := rfl
@[simp] theorem withCancel_bnA : (s.withCancel b).bnA = s.bnA := rfl
@[simp] theorem withCancel_entropy : (s.withCancel b).entropy = s.entropy := rfl
@[simp] theorem withCancel_ctx : (s.withCancel b).ctx = s.ctx := rfl
@[simp] theorem withCancel_keyedFor (c : Cipher) : (s.withCancel b).keyedFor c = s.keyedFor c := rfl
@[simp] theorem withCancel_input : (s.withCancel b).input = s.input := rfl
@[simp] theorem withCancel_pbitsCheck : pbitsCheck (s.withCancel b) = pbitsCheck s := rfl
@[simp] theorem withCancel_fail (e : CmdError) : (s.withCancel b).fail e = (s.fail e).withCancel b := rfl

@[simp] theorem withCancel_succeed (r : Result) :
    (s.withCancel b).succeed r = (s.succeed r).withCancel b := by cases r <;> rfl

@[simp] theorem withCancel_setCtx (c : Ctx) :
    (s.withCancel b).setCtx c = (s.setCtx c).withCancel b := by
  obtain ⟨w, ctx, h⟩ | h : (∃ w ctx, s.engine = .running w ctx) ∨ s.engine = .idle := by
    cases s.engine with
    | idle => exact .inr rfl
    | running w ctx => exact .inl ⟨w, ctx, rfl⟩
  · rw [State.setCtx_of_running h, State.setCtx_of_running (s := s.withCancel b) h]
    rfl
  · simp only [State.setCtx, State.withCancel, h]

end WithCancel

/-- What a computation gives, with `CTRL.CANCEL` of its state replaced. -/
def computedWithCancel (b : Bool) (x : Computed) : Computed := (x.1, x.2.withCancel b)

/-- A computation that does not read `CTRL.CANCEL`. -/
def IgnoresCancel (f : State → Computed) : Prop :=
  ∀ b s, f (s.withCancel b) = computedWithCancel b (f s)

theorem oneShot_withCancel {f : State → Computed} (hf : IgnoresCancel f) (b : Bool) (s : State) :
    oneShot f (s.withCancel b) = (oneShot f s).withCancel b := by
  simp only [oneShot, withCancel_ctx, hf b s, computedWithCancel]
  split
  · rcases hfs : f s with ⟨e | r, t⟩
    · exact withCancel_fail b t e
    · exact withCancel_setCtx b t _
  · exact withCancel_succeed b s _
  · rfl

theorem ignoresCancel_keyset (c : Cipher) : IgnoresCancel (computeKeyset c) := by
  intro b s
  unfold computeKeyset
  rw [apply_ite (computedWithCancel b), apply_ite (computedWithCancel b)]
  rfl

theorem ignoresCancel_block (f : FeTables → Schedule → Bytes → Bytes) (c : Cipher) :
    IgnoresCancel (computeBlock f c) := by
  intro b s
  cases hk : s.keyedFor c <;> simp only [computeBlock, withCancel_keyedFor, hk]
  · rfl
  · rw [apply_ite (computedWithCancel b)]
    rfl

theorem ignoresCancel_pad (c : Cipher) (p : PadScheme) : IgnoresCancel (computePad c p) := by
  intro b s
  cases hp : pad s.input p (blockSize c) s.entropy <;>
    simp only [computePad, withCancel_input, withCancel_entropy, hp] <;>
    rw [apply_ite (computedWithCancel b), apply_ite (computedWithCancel b),
      apply_ite (computedWithCancel b)] <;> rfl

theorem ignoresCancel_unpad (c : Cipher) (p : PadScheme) : IgnoresCancel (computeUnpad c p) := by
  intro b s
  cases hp : unpad s.input p (blockSize c) <;> simp only [computeUnpad, withCancel_input, hp] <;>
    rw [apply_ite (computedWithCancel b), apply_ite (computedWithCancel b)] <;> rfl

theorem ignoresCancel_pfactors : IgnoresCancel computePfactors := by
  intro b s
  simp only [computePfactors]
  rw [apply_ite (computedWithCancel b)]
  rfl

theorem ignoresCancel_primroot : IgnoresCancel computePrimroot := by
  intro b s
  rcases hf : findPrimitiveRoot s.params.smallPrimes s.bnA s.mrRounds.toNat s.entropy with ⟨e | g, en⟩ <;>
    simp only [computePrimroot, withCancel_bnA, withCancel_params, withCancel_mrRounds,
      withCancel_entropy, hf] <;> rfl

theorem ignoresCancel_genpriv : IgnoresCancel computeGenpriv := by
  intro b s
  simp only [computeGenpriv]
  rw [apply_ite (computedWithCancel b)]
  rfl

theorem ignoresCancel_modExp : IgnoresCancel computeModExp := by
  intro b s
  unfold computeModExp
  rw [apply_ite (computedWithCancel b)]
  rfl

theorem ignoresCancel_sha256 : IgnoresCancel computeSha256 := by
  intro b s
  unfold computeSha256
  rw [apply_ite (computedWithCancel b)]
  rfl

theorem setCtx_withCancel_entropy (ctx : Ctx) (e : Entropy) (b : Bool) (s : State) :
    State.setCtx ctx { s.withCancel b with entropy := e } =
      (State.setCtx ctx { s with entropy := e }).withCancel b :=
  withCancel_setCtx b { s with entropy := e } ctx

theorem candidateStep_withCancel (accepted : Nat → Ctx) (n : Nat) (b : Bool) (s : State) :
    candidateStep accepted n (s.withCancel b) = (candidateStep accepted n s).withCancel b := by
  simp only [candidateStep, withCancel_params, withCancel_pbits, withCancel_mrRounds,
    withCancel_entropy]
  split <;> exact setCtx_withCancel_entropy _ _ b s

theorem generatePrime_withCancel (accepted : Nat → Ctx) (b : Bool) (s : State) :
    generatePrime accepted (s.withCancel b) = (generatePrime accepted s).withCancel b := by
  simp only [generatePrime, withCancel_ctx, withCancel_pbitsCheck]
  split
  · split
    · rfl
    · exact candidateStep_withCancel accepted 0 b s
  · exact candidateStep_withCancel accepted _ b s
  · exact withCancel_succeed b s _
  · rfl

theorem paramsRootStep_withCancel (p : Nat) (b : Bool) (s : State) :
    paramsRootStep p (s.withCancel b) = (paramsRootStep p s).withCancel b := by
  simp only [paramsRootStep, withCancel_params, withCancel_mrRounds, withCancel_entropy]
  split
  · exact setCtx_withCancel_entropy _ _ b s
  · rfl

/-- Settles O25, command by command: no computation reads `CTRL.CANCEL`. -/
theorem cancelIsInvisibleOutsideModeCommands : Obligations.CancelIsInvisibleOutsideModeCommands := by
  intro i s b hi
  have hone {f : State → Computed} (hf : IgnoresCancel f) :
      ∃ t, Host.Outcome.next (φ := Fault) (ρ := Refusal) (oneShot f s) = .next t ∧
        Host.Outcome.next (φ := Fault) (ρ := Refusal) (oneShot f (s.withCancel b)) =
          .next (t.withCancel b) :=
    ⟨_, rfl, congrArg _ (oneShot_withCancel hf b s)⟩
  cases i with
  | keyset c => exact hone (ignoresCancel_keyset c)
  | encb c => exact hone (ignoresCancel_block _ c)
  | decb c => exact hone (ignoresCancel_block _ c)
  | pad c p => exact hone (ignoresCancel_pad c p)
  | unpad c p => exact hone (ignoresCancel_unpad c p)
  | encrypt c m p v => exact absurd rfl (hi c m p v).1
  | decrypt c m p v => exact absurd rfl (hi c m p v).2
  | isprime => exact hone fun _ _ => rfl
  | genprime => exact ⟨_, rfl, congrArg _ (generatePrime_withCancel _ b s)⟩
  | pfactors => exact hone ignoresCancel_pfactors
  | primroot => exact hone ignoresCancel_primroot
  | genparams =>
    have hgen := generatePrime_withCancel (fun p => .rootSearch p) b s
    change ∃ t, execGenparams s = .next t ∧ execGenparams (s.withCancel b) = .next (t.withCancel b)
    simp only [execGenparams, withCancel_ctx]
    split
    · exact ⟨_, rfl, congrArg _ (paramsRootStep_withCancel _ b s)⟩
    · exact ⟨_, rfl, congrArg _ hgen⟩
  | genpriv => exact hone ignoresCancel_genpriv
  | genpub => exact hone ignoresCancel_modExp
  | shared => exact hone ignoresCancel_modExp
  | modexp => exact hone ignoresCancel_modExp
  | sha256 => exact hone ignoresCancel_sha256
  | kdf => exact hone fun _ _ => rfl

end Sys2Proof.Machine
end

section
/-! Host accesses location by location (spec/10_state.md, spec/20_memory.md). -/

namespace Sys2Proof.Machine

/-! ## Acceptance, reads and resets -/

/-- Settles O12: `CMD` is no location of a running command's, so an idle CCC accepts the word. -/
theorem acceptanceEffect : Obligations.AcceptanceEffect := by
  intro s w hidle
  have hwrite : s.busWrite 0x0000C .four w = s.accept w := by
    obtain ⟨hbusy, -, -⟩ | ⟨-, -, heq⟩ | ⟨-, hhigh, -⟩ := busWrite_cases 0x0000C .four w s
    · rw [State.busy_of_idle hidle] at hbusy
      cases hbusy
    · rw [heq, locate_cmd]
      rfl
    · exact absurd (by decide) hhigh
  have heq : hostWrite 0x0000C .four w s = { s.accept w with reply := some .writeOk } := by
    rw [hostWrite_of_accessOk (by decide) (by decide), hwrite]
  refine ⟨heq, by rw [heq]; rfl, ?_⟩
  rw [heq]
  have hvis : State.hidden { s.accept w with reply := some .writeOk } .cmd = false := by
    simp only [State.hidden, State.accept_engine]
    cases hd : decode w with
    | error e => rfl
    | ok i => cases i <;> rfl
  exact hostRead_control (i := 3) (by decide) hvis

/-- Settles O15: a read is `busRead` or a `BUSERR` answer, and neither writes anything else. -/
theorem readsHaveNoSideEffect : Obligations.ReadsHaveNoSideEffect := by
  intro s addr size
  cases hok : accessOk addr.toNat size with
  | true => exact ⟨_, _, busAccess_read_of_accessOk hok s⟩
  | false => exact ⟨.busErr, s.freeCount, busAccess_read_of_not_accessOk hok s⟩

/-- Settles O17: `CTRL` is no operand, so the write is done while a command runs too, and with `SRST` it is
the reset of `step_of_rst`. -/
theorem softResetIsHardReset : Obligations.SoftResetIsHardReset := by
  intro s t w rest hsrst hagenda hstep
  cases (step_of_rst hagenda).symm.trans hstep
  have hctrl : locate s.params 0x00004 = .ctrl := locate_control _ (by decide)
  have hwrite : s.busWrite 0x00004 .four w = s.doReset := by
    obtain ⟨-, htouch, -⟩ | ⟨-, -, heq⟩ | ⟨-, hhigh, -⟩ := busWrite_cases 0x00004 .four w s
    · simp [State.touchesOperand, AccessSize.bytes, List.range_succ, locate_control, controlLoc,
        Loc.isOperand] at htouch
    · rw [heq, hctrl]
      simp only [State.writeControl, State.writeCtrl, hsrst, if_true]
    · exact absurd (by decide) hhigh
  refine ⟨?_, rfl, rfl, rfl, State.doReset_ctrlWord _, rfl, rfl⟩
  rw [hostWrite_of_accessOk (by decide) (by decide), hwrite]
  rfl

/-! ## Operand locations (R70) -/

/-- The bytes of the operand registers, arrays and buffers (R23, R70). -/
def operandByte (p : Params) (a : Nat) : Prop :=
  (0x0C ≤ a ∧ a < 0x14) ∨ (0x18 ≤ a ∧ a < 0x28) ∨ (0x40 ≤ a ∧ a < 0x70) ∨
    (0x1000 ≤ a ∧ a < 0x1000 + p.bnBytes) ∨ (0x1200 ≤ a ∧ a < 0x1200 + p.bnBytes) ∨
    (0x1400 ≤ a ∧ a < 0x1400 + p.bnBytes) ∨ (0x10000 ≤ a ∧ a < 0x10000 + p.bufBytes)

/-- The registers and buffers of a legal build fit their windows, and are whole words (R11). -/
theorem legal_windows {p : Params} (h : p.Legal) :
    p.bnBytes ≤ 0x200 ∧ p.bnBytes % 4 = 0 ∧ p.bufBytes ≤ 0x10000 ∧ p.bufBytes % 4 = 0 := by
  obtain ⟨⟨_, _, _, _, _, _⟩, _⟩ := h
  unfold Params.bnBytes
  omega

theorem controlLoc_isOperand_iff {k : Nat} (hk : k < 16) :
    (controlLoc k).isOperand = true ↔ k = 3 ∨ k = 4 ∨ (6 ≤ k ∧ k < 10) := by
  revert k
  decide

theorem isOperand_iff {p : Params} (h : p.Legal) (a : Nat) :
    (locate p a).isOperand = true ↔ operandByte p a := by
  obtain ⟨hbn, -, hbuf, -⟩ := legal_windows h
  have hin : inBase = 0x10000 := rfl
  have hend : outEnd = 0x30000 := rfl
  have hloc := located p a
  unfold operandByte
  generalize locate p a = l at hloc
  cases hloc with
  | control below =>
    rw [controlLoc_isOperand_iff (by omega)]
    omega
  | past size base window low outside =>
    simp only [Loc.isOperand, Bool.false_eq_true, false_iff]
    omega
  | _ =>
    simp only [Loc.isOperand, Bool.false_eq_true, false_iff, true_iff]
    omega

/-- The addresses of the operands as a naturally aligned access names them. -/
def operandAt (p : Params) (a : Nat) : Prop :=
  a = 0x0C ∨ a = 0x10 ∨ a = 0x18 ∨ a = 0x1C ∨ a = 0x20 ∨ a = 0x24 ∨ (0x40 ≤ a ∧ a < 0x70) ∨
    (0x1000 ≤ a ∧ a < 0x1000 + p.bnBytes) ∨ (0x1200 ≤ a ∧ a < 0x1200 + p.bnBytes) ∨
    (0x1400 ≤ a ∧ a < 0x1400 + p.bnBytes) ∨ (0x10000 ≤ a ∧ a < 0x10000 + p.bufBytes)

section AlignedWrite
variable {s : State} {a : Nat} {size : AccessSize} (hlegal : s.params.Legal)
  (halign : a % size.bytes = 0) (hwide : a < 0x40 → size = .four)
include hlegal halign hwide

/-- Every byte of an aligned access is an operand's, or none is. -/
theorem operandByte_add_iff {k : Nat} (hk : k < size.bytes) :
    operandByte s.params (a + k) ↔ operandAt s.params a := by
  obtain ⟨-, hbn, -, hbuf⟩ := legal_windows hlegal
  have hsize : size.bytes = 4 ∨ (0x40 ≤ a ∧ (size.bytes = 1 ∨ size.bytes = 2)) := by
    rcases Nat.lt_or_ge a 0x40 with h | h
    · exact .inl (by rw [hwide h]; rfl)
    · cases size <;> simp [AccessSize.bytes, h]
  unfold operandByte operandAt
  rcases hsize with hbytes | ⟨hhigh, hbytes | hbytes⟩ <;> rw [hbytes] at hk halign <;> omega

theorem touchesOperand_iff : s.touchesOperand a size = true ↔ operandAt s.params a := by
  have hpos : 0 < size.bytes := by cases size <;> decide
  simp only [State.touchesOperand, List.any_eq_true, List.mem_range, isOperand_iff hlegal]
  constructor
  · rintro ⟨k, hk, hop⟩
    exact (operandByte_add_iff hlegal halign hwide hk).mp hop
  · intro hop
    exact ⟨0, hpos, (operandByte_add_iff hlegal halign hwide hpos).mpr hop⟩

end AlignedWrite

/-- Bytes that are no operand's are not written (R68). -/
theorem writeBytes_of_not_operand {s : State} (a : Nat) (w : Word32) {k n : Nat}
    (h : ∀ j < n, (locate s.params (a + (k + j))).isOperand = false) : s.writeBytes a w k n = s := by
  induction n generalizing k with
  | zero => rfl
  | succ n ih =>
    have hfirst : s.writeByte (a + k) (byteOfWord w k) = s :=
      writeByte_of_not_operand _ (h 0 (Nat.succ_pos n))
    rw [State.writeBytes, hfirst]
    refine ih fun j hj => ?_
    rw [Nat.add_assoc k 1 j, Nat.add_comm 1 j]
    exact h (j + 1) (Nat.succ_lt_succ hj)

/-- The read-only and reserved control registers ignore writes (R68). -/
theorem writeControl_readOnly {k : Nat} (hk : k < 16) (hop : (controlLoc k).isOperand = false)
    (hctrl : k ≠ 1) (hstatus : k ≠ 2) (w : Word32) (s : State) :
    s.writeControl (controlLoc k) w = s := by
  interval_cases k <;> simp_all [controlLoc, Loc.isOperand, State.writeControl]

section AlignedWrite
variable {s : State} {a : Nat} {size : AccessSize} (hlegal : s.params.Legal)
  (halign : a % size.bytes = 0) (hwide : a < 0x40 → size = .four)

include hlegal halign hwide in
/-- An aligned write of a read-only or reserved location changes nothing, busy or idle (R68). -/
theorem busWrite_readOnly (hop : ¬operandAt s.params a) (hctrl : a ≠ 0x04) (hstatus : a ≠ 0x08)
    (w : Word32) : s.busWrite a size w = s := by
  have hbyte {k : Nat} (hk : k < size.bytes) : (locate s.params (a + k)).isOperand = false := by
    rw [← Bool.not_eq_true, isOperand_iff hlegal, operandByte_add_iff hlegal halign hwide hk]
    exact hop
  obtain ⟨-, htouch, -⟩ | ⟨-, hlow, heq⟩ | ⟨-, -, heq⟩ := busWrite_cases a size w s
  · exact absurd ((touchesOperand_iff hlegal halign hwide).mp htouch) hop
  · have hfirst := hbyte (k := 0) (by cases size <;> decide)
    rw [hwide hlow] at halign
    rw [Nat.add_zero, locate_control _ hlow] at hfirst
    rw [heq, locate_control _ hlow]
    simp only [AccessSize.bytes] at halign
    exact writeControl_readOnly (by omega) hfirst (by omega) (by omega) w s
  · rw [heq]
    exact writeBytes_of_not_operand a w fun j hj => by rw [Nat.zero_add]; exact hbyte hj

/-- A write of a control register that is not dropped (R25 to R43). -/
theorem busWrite_control {k : Nat} (hk : k < 16)
    (hkeep : s.busy = false ∨ (controlLoc k).isOperand = false) (w : Word32) :
    s.busWrite (4 * k) .four w = s.writeControl (controlLoc k) w := by
  have hloc (j : Nat) (hj : j < 4) : locate s.params (4 * k + j) = controlLoc k := by
    rw [locate_control _ (by omega), show (4 * k + j) / 4 = k by omega]
  obtain ⟨hbusy, htouch, -⟩ | ⟨-, -, heq⟩ | ⟨-, hhigh, -⟩ := busWrite_cases (4 * k) .four w s
  · obtain ⟨j, hj, hop⟩ := List.any_eq_true.mp htouch
    rw [hloc j (List.mem_range.mp hj)] at hop
    rcases hkeep with h | h
    · rw [h] at hbusy
      cases hbusy
    · rw [h] at hop
      cases hop
  · rw [heq]
    exact congrArg (fun l => s.writeControl l w) (hloc 0 (by decide))
  · exact absurd (by omega) hhigh

end AlignedWrite

/-- Settles O14: an operand of a busy CCC is dropped, a location that is none is `busWrite_readOnly`, and
the registers are `busWrite_control`. -/
theorem hostWritesByLocation : Obligations.HostWritesByLocation := by
  intro s addr size w hlegal halign hwide a t operand
  have hok : accessOk a size = true :=
    (accessOk_iff a size).mpr ⟨halign, (Nat.lt_or_ge a 0x40).symm.imp id hwide⟩
  have ht : t = { s.busWrite a size w with reply := some .writeOk } :=
    busAccess_write_of_accessOk hok w s
  have hcontrol (k : Nat) (hk : k < 16) (ha : a = 4 * k)
      (hkeep : s.busy = false ∨ (controlLoc k).isOperand = false) :
      t = { s.writeControl (controlLoc k) w with reply := some .writeOk } := by
    rw [ht, hwide (by omega), ha, busWrite_control hk hkeep]
  refine ⟨fun hbusy hop => ?_, fun hop hctrl hstatus => ?_, fun ha hsrst => ?_, fun ha => ?_,
    fun hidle => ⟨fun ha => ?_, fun ha => ?_, fun ha => ?_, fun ha => ?_, fun ha => ?_⟩⟩
  · rw [ht, busWrite_of_busy_of_touchesOperand hbusy
      ((touchesOperand_iff hlegal halign hwide).mpr hop)]
  · rw [ht, busWrite_readOnly hlegal halign hwide hop hctrl hstatus]
  · rw [hcontrol 1 (by decide) ha (.inr rfl)]
    simp only [controlLoc, State.writeControl, State.writeCtrl, hsrst, Bool.false_eq_true, if_false]
  · exact hcontrol 2 (by decide) ha (.inr rfl)
  · exact hcontrol 4 (by decide) ha (.inl hidle)
  · exact hcontrol 6 (by decide) ha (.inl hidle)
  · exact hcontrol 7 (by decide) ha (.inl hidle)
  · exact hcontrol 8 (by decide) ha (.inl hidle)
  · exact hcontrol 9 (by decide) ha (.inl hidle)

/-! ## Control registers as the host reads them -/

/-- A location that no running command writes is shown (R71). -/
theorem hidden_eq_false {s : State} {l : Loc}
    (h : ∀ w ctx i, s.engine = .running w ctx → decode w = .ok i → inWriteSet i l = false) :
    s.hidden l = false := by
  unfold State.hidden
  split
  next => rfl
  next w ctx hrun =>
    split
    next i hd => exact h w ctx i hrun hd
    next => rfl

/-- Of the control registers a command writes at most `KEYLEN` and `NFACT` (R50). -/
theorem inWriteSet_control {k : Nat} (hkeyLen : k ≠ 6) (hnfact : k ≠ 10) (i : Instr) :
    inWriteSet i (controlLoc k) = false := by
  fun_cases controlLoc k
  case case7 => exact absurd rfl hkeyLen
  case case11 => exact absurd rfl hnfact
  all_goals cases i <;> rfl

theorem inWriteSet_keyLen {i : Instr} (h : i ≠ .kdf) : inWriteSet i .keyLen = false := by
  cases i <;> simp_all [inWriteSet]

theorem inWriteSet_nfact {i : Instr} (h : i ≠ .pfactors) : inWriteSet i .nfact = false := by
  cases i <;> simp_all [inWriteSet]

theorem getLsbD_of_extractLsb' {n i : Nat} {v : BitVec n} {b : Bool}
    (h : v.extractLsb' i 1 = BitVec.ofBool b) : v.getLsbD i = b := by
  have hbit := congrArg (fun x => x.getLsbD 0) h
  simpa using hbit

theorem toNat_statusWord (s : State) : s.statusWord.toNat =
    ((((((s.progress.toNat * 2 ^ 8 + s.errCode.toNat) * 2 ^ 2) * 2 ^ 2 + s.instC.toNat) * 2 ^ 1 +
      (BitVec.ofBool s.keyValid).toNat) * 2 ^ 1 + (BitVec.ofBool s.drop).toNat) * 2 ^ 1 +
      (BitVec.ofBool s.done).toNat) * 2 ^ 1 + (BitVec.ofBool s.busy).toNat := by
  have happend : ((0 : BitVec 9) ++ s.progress ++ s.errCode ++ (0 : BitVec 2) ++ s.instC ++
      BitVec.ofBool s.keyValid ++ BitVec.ofBool s.drop ++ BitVec.ofBool s.done ++
      BitVec.ofBool s.busy).toNat =
    ((((((s.progress.toNat * 2 ^ 8 + s.errCode.toNat) * 2 ^ 2) * 2 ^ 2 + s.instC.toNat) * 2 ^ 1 +
      (BitVec.ofBool s.keyValid).toNat) * 2 ^ 1 + (BitVec.ofBool s.drop).toNat) * 2 ^ 1 +
      (BitVec.ofBool s.done).toNat) * 2 ^ 1 + (BitVec.ofBool s.busy).toNat := by
    simp only [toNat_append, BitVec.ofNat_eq_ofNat, BitVec.toNat_zero, Nat.zero_mul, Nat.zero_add,
      Nat.add_zero]
  exact happend

/-- The fields of `STATUS` stand at their bits (R29). -/
theorem fields_statusWord (s : State) :
    s.statusWord.extractLsb' 0 1 = BitVec.ofBool s.busy ∧
    s.statusWord.extractLsb' 1 1 = BitVec.ofBool s.done ∧
    s.statusWord.extractLsb' 2 1 = BitVec.ofBool s.drop ∧
    s.statusWord.extractLsb' 3 1 = BitVec.ofBool s.keyValid ∧
    s.statusWord.extractLsb' 4 2 = s.instC ∧ s.statusWord.extractLsb' 6 2 = 0 ∧
    s.statusWord.extractLsb' 8 8 = s.errCode ∧ s.statusWord.extractLsb' 16 7 = s.progress ∧
    s.statusWord.extractLsb' 23 9 = 0 := by
  have hw := toNat_statusWord s
  have h1 := s.progress.isLt
  have h2 := s.errCode.isLt
  have h3 := s.instC.isLt
  have h4 := (BitVec.ofBool s.keyValid).isLt
  have h5 := (BitVec.ofBool s.drop).isLt
  have h6 := (BitVec.ofBool s.done).isLt
  have h7 := (BitVec.ofBool s.busy).isLt
  simp only [← BitVec.toNat_inj, BitVec.extractLsb'_toNat, Nat.shiftRight_eq_div_pow,
    BitVec.ofNat_eq_ofNat, BitVec.toNat_zero]
  omega

theorem toNat_ctrlWord (s : State) : s.ctrlWord.toNat =
    (BitVec.ofBool s.irqEn).toNat * 2 ^ 1 + (BitVec.ofBool s.cancel).toNat := by
  have happend : ((0 : BitVec 30) ++ BitVec.ofBool s.irqEn ++ BitVec.ofBool s.cancel).toNat =
      (BitVec.ofBool s.irqEn).toNat * 2 ^ 1 + (BitVec.ofBool s.cancel).toNat := by
    simp only [toNat_append, BitVec.ofNat_eq_ofNat, BitVec.toNat_zero, Nat.zero_mul, Nat.zero_add]
  exact happend

/-- The fields of `CTRL` stand at their bits (R25). -/
theorem fields_ctrlWord (s : State) :
    s.ctrlWord.extractLsb' 0 1 = BitVec.ofBool s.cancel ∧
    s.ctrlWord.extractLsb' 1 1 = BitVec.ofBool s.irqEn ∧ s.ctrlWord.extractLsb' 2 30 = 0 := by
  have hw := toNat_ctrlWord s
  have h1 := (BitVec.ofBool s.irqEn).isLt
  have h2 := (BitVec.ofBool s.cancel).isLt
  simp only [← BitVec.toNat_inj, BitVec.extractLsb'_toNat, Nat.shiftRight_eq_div_pow,
    BitVec.ofNat_eq_ofNat, BitVec.toNat_zero]
  omega

/-- Settles O16: a control register that is shown reads as its word (`hostRead_control`), and the words of
`STATUS` and `CTRL` have their fields at their bits. -/
theorem controlRegistersReadTheirFields : Obligations.ControlRegistersReadTheirFields := by
  intro s reads
  have hread (k : Nat) (hk : k < 16) (hkeyLen : k ≠ 6) (hnfact : k ≠ 10) :
      reads (4 * k) (s.controlWord (controlLoc k)) :=
    hostRead_control hk (hidden_eq_false fun _ _ i _ _ => inWriteSet_control hkeyLen hnfact i)
  obtain ⟨hbusy, hdone, hdrop, hvalid, hinst, hrsv, herr, hprogress, hhigh⟩ := fields_statusWord s
  obtain ⟨hcancel, hirq, hctrl⟩ := fields_ctrlWord s
  refine ⟨⟨s.statusWord, hread 2 (by decide) (by decide) (by decide), getLsbD_of_extractLsb' hbusy,
      getLsbD_of_extractLsb' hdone, getLsbD_of_extractLsb' hdrop, getLsbD_of_extractLsb' hvalid, ?_,
      hrsv, ?_, hprogress, hhigh⟩,
    ⟨s.ctrlWord, hread 1 (by decide) (by decide) (by decide), getLsbD_of_extractLsb' hcancel,
      getLsbD_of_extractLsb' hirq, hctrl⟩,
    hread 0 (by decide) (by decide) (by decide), hread 3 (by decide) (by decide) (by decide),
    hread 4 (by decide) (by decide) (by decide), hread 5 (by decide) (by decide) (by decide),
    hread 7 (by decide) (by decide) (by decide), hread 8 (by decide) (by decide) (by decide),
    hread 9 (by decide) (by decide) (by decide), hread 11 (by decide) (by decide) (by decide),
    hread 12 (by decide) (by decide) (by decide), hread 13 (by decide) (by decide) (by decide),
    hread 14 (by decide) (by decide) (by decide), hread 15 (by decide) (by decide) (by decide),
    fun hkdf => ?_, fun hpfactors => ?_⟩
  · rw [hinst, State.instC]
    rcases s.inst with _ | (_ | _) <;> rfl
  · rw [herr, State.errCode]
    rcases s.err with _ | e
    · rfl
    · cases e <;> rfl
  · refine hostRead_control (i := 6) (by decide) (hidden_eq_false fun w ctx i hrun hd => ?_)
    exact inWriteSet_keyLen fun h => hkdf w ctx hrun (h ▸ hd)
  · refine hostRead_control (i := 10) (by decide) (hidden_eq_false fun w ctx i hrun hd => ?_)
    exact inWriteSet_nfact fun h => hpfactors w ctx hrun (h ▸ hd)

end Sys2Proof.Machine
end

section
/-! Writes of several bytes in the arrays, `IN_BUF` and the big integers of an idle CCC (spec/20_memory.md
R62, spec/10_state.md R41, R42, R46 and R47). -/

namespace Sys2Proof.Machine

/-! ## Several bytes, one after the other -/

/-- Bytes `k` to `k + n - 1` of `w` put into `x` by a one-byte update. -/
def updateBytes {α : Type} (upd : Nat → Byte → α → α) (w : Word32) (k n : Nat) (x : α) : α :=
  match n with
  | 0 => x
  | m + 1 => updateBytes upd w (k + 1) m (upd k (byteOfWord w k) x)

/-- A write is `updateBytes` on the part of the state that its bytes lie in. -/
theorem writeBytes_eq_put {α : Type} {put : α → State} {upd : Nat → Byte → α → α} {a : Nat}
    {w : Word32} {k n : Nat}
    (h : ∀ (j : Nat) (b : Byte) (x : α), k ≤ j → j < k + n →
      (put x).writeByte (a + j) b = put (upd j b x)) (x : α) :
    (put x).writeBytes a w k n = put (updateBytes upd w k n x) := by
  induction n generalizing k x with
  | zero => rfl
  | succ n ih =>
    rw [State.writeBytes, h k _ x le_rfl (by omega)]
    exact ih (fun j b y hj hj' => h j b y (by omega) (by omega)) _

/-- Each byte written reads as the data's byte, every other position as before. -/
theorem get_updateBytes {α β : Type} {get : α → Nat → β} {val : Byte → β}
    {upd : Nat → Byte → α → α} {i : Nat} {w : Word32} {k n : Nat}
    (h : ∀ (j : Nat) (b : Byte) (x : α) (m : Nat), k ≤ j → j < k + n →
      get (upd j b x) m = if m = i + j then val b else get x m) (x : α) (m : Nat) :
    get (updateBytes upd w k n x) m =
      if i + k ≤ m ∧ m < i + k + n then val (byteOfWord w (m - i)) else get x m := by
  induction n generalizing k x with
  | zero => rw [if_neg (by omega)]; rfl
  | succ n ih =>
    rw [updateBytes, ih fun j b y l hj hj' => h j b y l (by omega) (by omega),
      h k _ x m le_rfl (by omega)]
    rcases Nat.lt_trichotomy m (i + k) with hlt | rfl | hgt
    · rw [if_neg (by omega), if_neg (by omega), if_neg (by omega)]
    · rw [if_neg (by omega), if_pos rfl, if_pos (by omega), Nat.add_sub_cancel_left]
    · by_cases hin : m < i + k + (n + 1)
      · rw [if_pos (by omega), if_pos (by omega)]
      · rw [if_neg (by omega), if_neg (by omega), if_neg (by omega)]

/-- What every one-byte update keeps, the write keeps. -/
theorem updateBytes_keeps {α : Type} {P : α → Prop} {upd : Nat → Byte → α → α} {w : Word32} {k n : Nat}
    (h : ∀ (j : Nat) (b : Byte) (x : α), j < k + n → P x → P (upd j b x)) {x : α} (hx : P x) :
    P (updateBytes upd w k n x) := by
  induction n generalizing k x with
  | zero => exact hx
  | succ n ih => exact ih (fun j b y hj => h j b y (by omega)) (h k _ x (by omega) hx)

/-- An aligned write above the control registers of an idle CCC writes its bytes. -/
theorem hostWrite_of_idle {s : State} {a : Nat} {size : AccessSize} (hidle : s.engine = .idle)
    (ha : a < 2 ^ 18) (hhigh : 0x40 ≤ a) (halign : a % size.bytes = 0) (w : Word32) :
    hostWrite a size w s = { s.writeBytes a w 0 size.bytes with reply := some .writeOk } := by
  rw [hostWrite_of_accessOk ha ((accessOk_iff a size).mpr ⟨halign, .inl hhigh⟩)]
  obtain ⟨hbusy, -, -⟩ | ⟨-, hlow, -⟩ | ⟨-, -, heq⟩ := busWrite_cases a size w s
  · rw [State.busy_of_idle hidle] at hbusy
    cases hbusy
  · exact absurd hlow (by omega)
  · rw [heq]

/-! ## The bytes of the windows -/

theorem locate_key_byte (p : Params) {j : Nat} (hj : j < 32) : locate p (0x40 + j) = .key j := by
  rw [locate_key p (by omega) (by omega), Nat.add_sub_cancel_left]

theorem locate_iv_byte (p : Params) {j : Nat} (hj : j < 16) : locate p (0x60 + j) = .iv j := by
  rw [locate_iv p (by omega) (by omega), Nat.add_sub_cancel_left]

section Windows
variable {p : Params} (hlegal : p.Legal) {j : Nat}
include hlegal

theorem locate_bnA_byte (hj : j < p.bnBytes) : locate p (0x1000 + j) = .bnA j := by
  obtain ⟨hbn, -⟩ := legal_windows hlegal
  rw [locate_bnA p (by omega) (by omega), Nat.add_sub_cancel_left, windowLoc, if_pos hj]

theorem locate_bnB_byte (hj : j < p.bnBytes) : locate p (0x1200 + j) = .bnB j := by
  obtain ⟨hbn, -⟩ := legal_windows hlegal
  rw [locate_bnB p (by omega) (by omega), Nat.add_sub_cancel_left, windowLoc, if_pos hj]

theorem locate_bnC_byte (hj : j < p.bnBytes) : locate p (0x1400 + j) = .bnC j := by
  obtain ⟨hbn, -⟩ := legal_windows hlegal
  rw [locate_bnC p (by omega) (by omega), Nat.add_sub_cancel_left, windowLoc, if_pos hj]

theorem locate_bnR_byte (hj : j < p.bnBytes) : locate p (0x1600 + j) = .bnR j := by
  obtain ⟨hbn, -⟩ := legal_windows hlegal
  rw [locate_bnR p (by omega) (by omega), Nat.add_sub_cancel_left, windowLoc, if_pos hj]

theorem locate_bnS_byte (hj : j < p.bnBytes) : locate p (0x1800 + j) = .bnS j := by
  obtain ⟨hbn, -⟩ := legal_windows hlegal
  rw [locate_bnS p (by omega) (by omega), Nat.add_sub_cancel_left, windowLoc, if_pos hj]

theorem locate_inBuf_byte (hj : j < p.bufBytes) : locate p (inBase + j) = .inBuf j := by
  obtain ⟨-, -, hbuf, -⟩ := legal_windows hlegal
  rw [locate_inBuf p (Nat.le_add_right _ _) (Nat.add_lt_add_left (hj.trans_le hbuf) inBase),
    Nat.add_sub_cancel_left, windowLoc, if_pos hj]

end Windows

/-! ## Reading back -/

/-- The low bytes of a word, put together again (R62). -/
theorem leNat_byteOfWord (w : Word32) (n : Nat) :
    leNat ((List.range n).map (byteOfWord w)) = w.toNat % 2 ^ (8 * n) := by
  have hbytes : (List.range n).map (byteOfWord w) = toLE w.toNat n := rfl
  rw [hbytes, leNat_toLE, pow_mul]
  rfl

/-- A read of bytes that are all specified returns them, little-endian (R62). -/
theorem hostRead_of_peek {s : State} {a : Nat} {size : AccessSize} {b : Nat → Byte} (ha : a < 2 ^ 18)
    (hok : accessOk a size = true) (h : ∀ k < size.bytes, s.peek (a + k) = some (b k)) :
    (hostRead a size s).reply =
      some (.readOk (BitVec.ofNat 32 (leNat ((List.range size.bytes).map b)))) := by
  have haddr : (BitVec.ofNat 18 a).toNat = a := Nat.mod_eq_of_lt ha
  have hcells : (List.range size.bytes).map (fun k => s.peek (a + k)) =
      ((List.range size.bytes).map b).map some := by
    rw [List.map_map]
    exact List.map_congr_left fun k hk => h k (List.mem_range.mp hk)
  rw [hostRead, busAccess_read_of_accessOk (by rw [haddr]; exact hok), busRead_reply, haddr, hcells,
    resolve_some]

/-- `KEY` on the port (R41). -/
theorem peek_key {s : State} (hvis : ∀ j, s.hidden (.key j) = false) {j : Nat} (hj : j < 32) :
    s.peek (0x40 + j) = some s.key[j] := by
  rw [State.peek, locate_key_byte _ hj, hvis]
  simp [hj]

/-- `IV` on the port (R42). -/
theorem peek_iv {s : State} (hvis : ∀ j, s.hidden (.iv j) = false) {j : Nat} (hj : j < 16) :
    s.peek (0x60 + j) = some s.iv[j] := by
  rw [State.peek, locate_iv_byte _ hj, hvis]
  simp [hj]

/-! ## The arrays -/

theorem read_store_byte (m : List Host.Cell) (a : Nat) (b : Byte) (x : Nat) :
    Memory.read (Memory.store m a [b]) x = if x = a then some b else Memory.read m x := by
  rw [Memory.read_store, List.length_singleton]
  by_cases h : x = a
  · rw [if_pos h, if_pos (by omega), h, Nat.sub_self]
    rfl
  · rw [if_neg h, if_neg (by omega)]

/-- An access within a word-aligned window is aligned as it is within the window. -/
theorem window_aligned {base i : Nat} {size : AccessSize} (hbase : base % 4 = 0)
    (halign : i % size.bytes = 0) : (base + i) % size.bytes = 0 := by
  cases size <;> simp only [AccessSize.bytes] at halign ⊢ <;> omega

section WindowWrite
variable {s : State} {i : Nat} {size : AccessSize} (w : Word32) (hidle : s.engine = .idle)
  (halign : i % size.bytes = 0)
include hidle halign

/-- A write in the window at `base` whose bytes all lie in the part `x` of the state. -/
theorem hostWrite_window {α : Type} {put : α → State} {x : α} (hs : put x = s)
    {upd : Nat → Byte → α → α} {base : Nat} (hbase : base % 4 = 0) (hhigh : 0x40 ≤ base)
    (hend : base + i + size.bytes ≤ 2 ^ 18)
    (hbyte : ∀ (j : Nat) (b : Byte) (y : α), i + j < i + size.bytes →
      (put y).writeByte (base + (i + j)) b = put (upd j b y)) :
    hostWrite (base + i) size w s =
      { put (updateBytes upd w 0 size.bytes x) with reply := some .writeOk } := by
  have hpos : 0 < size.bytes := by cases size <;> decide
  have hbytes := writeBytes_eq_put (put := put) (a := base + i) (w := w) (k := 0) (n := size.bytes)
    (upd := upd) (fun j b y _ hj => by rw [Nat.add_assoc]; exact hbyte j b y (by omega)) x
  rw [hs] at hbytes
  rw [hostWrite_of_idle hidle (by omega) (by omega) (window_aligned hbase halign), hbytes]

/-- A write in `IN_BUF` (R47): the state it leaves. -/
theorem hostWrite_inBuf (hlegal : s.params.Legal) (hroom : i + size.bytes ≤ s.params.bufBytes) :
    hostWrite (inBase + i) size w s =
      { s with
        mem := updateBytes (fun j b m => Memory.store m (inBase + (i + j)) [b]) w 0 size.bytes s.mem
        reply := some .writeOk } := by
  obtain ⟨-, -, hmax, -⟩ := legal_windows hlegal
  exact hostWrite_window w hidle halign (put := fun m => { s with mem := m }) rfl (by decide) (by decide)
    (by simp only [inBase]; omega) fun j b m hj =>
      writeByte_inBuf b (locate_inBuf_byte hlegal (hj.trans_le hroom))

/-- A write in `KEY` (R41). -/
theorem hostWrite_key (hroom : i + size.bytes ≤ 32) :
    hostWrite (0x40 + i) size w s =
      { s with
        key := updateBytes (fun j b k => k.setIfInBounds (i + j) b) w 0 size.bytes s.key
        reply := some .writeOk } :=
  hostWrite_window w hidle halign (put := fun k => { s with key := k }) rfl (by decide) (by decide)
    (by omega) fun _ b _ hj => writeByte_key b (locate_key_byte _ (hj.trans_le hroom))

/-- A write in `IV` (R42). -/
theorem hostWrite_iv (hroom : i + size.bytes ≤ 16) :
    hostWrite (0x60 + i) size w s =
      { s with
        iv := updateBytes (fun j b v => v.setIfInBounds (i + j) b) w 0 size.bytes s.iv
        reply := some .writeOk } :=
  hostWrite_window w hidle halign (put := fun v => { s with iv := v }) rfl (by decide) (by decide)
    (by omega) fun _ b _ hj => writeByte_iv b (locate_iv_byte _ (hj.trans_le hroom))

end WindowWrite

/-- The bytes of a vector after a write inside it. -/
theorem getElem_updateBytes_vector {n i size : Nat} (hroom : i + size ≤ n) (w : Word32)
    (v : Vector Byte n) {m : Nat} (hm : m < n) :
    (updateBytes (fun j b (x : Vector Byte n) => x.setIfInBounds (i + j) b) w 0 size v)[m] =
      if i ≤ m ∧ m < i + size then w.extractLsb' (8 * (m - i)) 8 else v[m] := by
  have hget := get_updateBytes (get := fun (x : Vector Byte n) l => x[l]?) (val := some) (w := w)
    (i := i) (k := 0) (n := size) (upd := fun j b x => x.setIfInBounds (i + j) b)
    (fun j b x l _ hj => by
      rw [Vector.getElem?_setIfInBounds]
      by_cases hl : l = i + j
      · rw [if_pos hl, if_pos hl.symm, if_pos (by omega)]
      · rw [if_neg hl, if_neg (Ne.symm hl)]) v m
  simp only [Vector.getElem?_eq_getElem hm, Nat.add_zero] at hget
  split at hget
  next h => rw [if_pos h]; exact Option.some.inj hget
  next h => rw [if_neg h]; exact Option.some.inj hget

/-- The bytes of the buffers after a write. -/
theorem read_updateBytes (base i size : Nat) (w : Word32) (m : List Host.Cell) (x : Nat) :
    Memory.read (updateBytes (fun j b m => Memory.store m (base + (i + j)) [b]) w 0 size m) x =
      if base + i ≤ x ∧ x < base + i + size then some (w.extractLsb' (8 * (x - (base + i))) 8)
      else Memory.read m x :=
  get_updateBytes (get := Memory.read) (val := some) (i := base + i) (k := 0)
    (fun j b m x _ _ => by rw [← Nat.add_assoc]; exact read_store_byte m (base + i + j) b x) m x

/-- Settles O18: the three writes are `updateBytes` on their part of the state, and the same bytes are
shown on the port. -/
theorem arrayWritesReadBack : Obligations.ArrayWritesReadBack := by
  intro s i size w hlegal hidle halign back
  have hback {a : Nat} {t : State} (ha : a < 2 ^ 18) (hhigh : 0x40 ≤ a) (hal : a % size.bytes = 0)
      (hpeek : ∀ k < size.bytes, t.peek (a + k) = some (byteOfWord w k)) :
      (hostRead a size t).reply = back := by
    rw [hostRead_of_peek ha ((accessOk_iff a size).mpr ⟨hal, .inl hhigh⟩) hpeek, leNat_byteOfWord]
  have hidx {k base : Nat} : base + k - base = k := Nat.add_sub_cancel_left _ _
  refine ⟨fun hroom => ?_, fun hroom => ?_, fun hroom => ?_⟩
  · obtain ⟨-, -, hmax, -⟩ := legal_windows hlegal
    have hin : inBase = 0x10000 := rfl
    have hpos : 0 < size.bytes := by cases size <;> decide
    have hal : (inBase + i) % size.bytes = 0 := window_aligned rfl halign
    intro t
    have ht : t = _ := hostWrite_inBuf w hidle halign hlegal hroom
    have hread (x : Nat) : Memory.read t.mem x =
        if inBase + i ≤ x ∧ x < inBase + i + size.bytes then
          some (w.extractLsb' (8 * (x - (inBase + i))) 8) else Memory.read s.mem x := by
      rw [ht]
      exact read_updateBytes _ _ _ _ _ x
    have hmem : ∀ k < size.bytes, Memory.read t.mem (inBase + i + k) = some (byteOfWord w k) := by
      intro k hk
      rw [hread, if_pos (by omega), hidx]
      rfl
    refine ⟨hback (by omega) (by omega) hal fun k hk => ?_, hmem, fun a ha => ?_, ?_⟩
    · rw [← hmem k hk, Nat.add_assoc]
      have hvis : t.hidden (.inBuf (i + k)) = false := hidden_of_idle (by rw [ht]; exact hidle) _
      exact peek_inBuf (by rw [ht]; exact hlegal) (by rw [ht]; exact (by omega : i + k < s.params.bufBytes)) hvis
    · rw [hread, if_neg (by omega)]
    · rw [ht]
  · have hal : (0x40 + i) % size.bytes = 0 := window_aligned rfl halign
    intro t
    have ht : t = _ := hostWrite_key w hidle halign hroom
    have hget {m : Nat} (hm : m < 32) : t.key[m] =
        if i ≤ m ∧ m < i + size.bytes then w.extractLsb' (8 * (m - i)) 8 else s.key[m] := by
      simp only [ht]
      exact getElem_updateBytes_vector hroom w s.key hm
    refine ⟨hback (by omega) (by omega) hal fun k hk => ?_, fun j => hget j.isLt, by rw [ht]⟩
    have hvis (j : Nat) : t.hidden (.key j) = false := hidden_of_idle (by rw [ht]; exact hidle) _
    rw [Nat.add_assoc, peek_key hvis (by omega), hget (by omega), if_pos (by omega), hidx]
    rfl
  · have hal : (0x60 + i) % size.bytes = 0 := window_aligned rfl halign
    intro t
    have ht : t = _ := hostWrite_iv w hidle halign hroom
    have hget {m : Nat} (hm : m < 16) : t.iv[m] =
        if i ≤ m ∧ m < i + size.bytes then w.extractLsb' (8 * (m - i)) 8 else s.iv[m] := by
      simp only [ht]
      exact getElem_updateBytes_vector hroom w s.iv hm
    refine ⟨hback (by omega) (by omega) hal fun k hk => ?_, fun j => hget j.isLt, by rw [ht]⟩
    have hvis (j : Nat) : t.hidden (.iv j) = false := hidden_of_idle (by rw [ht]; exact hidle) _
    rw [Nat.add_assoc, peek_iv hvis (by omega), hget (by omega), if_pos (by omega), hidx]
    rfl

end Sys2Proof.Machine
end

section
/-! Bytes of the big integers (spec/10_state.md R46). -/

namespace Sys2Proof.Machine

/-! ## Replacing a byte of a natural -/

theorem toNat_byteOfNat (x i : Nat) : (byteOfNat x i).toNat = x / 256 ^ i % 256 := by
  rw [byteOfNat, BitVec.toNat_ofNat, Nat.shiftRight_eq_div_pow, pow_mul]
  rfl

/-- What lies below the replaced byte, with it, is less than `256^(i+1)`. -/
theorem setByteOfNat_low_lt (x i : Nat) (b : Byte) : x % 256 ^ i + b.toNat * 256 ^ i < 256 ^ (i + 1) := by
  have hx : x % 256 ^ i < 256 ^ i := Nat.mod_lt _ (by positivity)
  have hb : b.toNat * 256 ^ i ≤ 255 * 256 ^ i := Nat.mul_le_mul_right _ (Nat.le_of_lt_succ b.isLt)
  rw [pow_succ]
  omega

/-- Above the replaced byte nothing changes. -/
theorem setByteOfNat_div (x i : Nat) (b : Byte) :
    setByteOfNat x i b / 256 ^ (i + 1) = x / 256 ^ (i + 1) := by
  rw [setByteOfNat, Nat.add_mul_div_right _ _ (by positivity),
    Nat.div_eq_of_lt (setByteOfNat_low_lt x i b), Nat.zero_add]

/-- Below the replaced byte nothing changes. -/
theorem setByteOfNat_mod (x i : Nat) (b : Byte) : setByteOfNat x i b % 256 ^ i = x % 256 ^ i := by
  have hhigh : x / 256 ^ (i + 1) * 256 ^ (i + 1) = x / 256 ^ (i + 1) * 256 * 256 ^ i := by
    rw [pow_succ']
    ring
  rw [setByteOfNat, hhigh, Nat.add_mul_mod_self_right, Nat.add_mul_mod_self_right, Nat.mod_mod]

/-- At the replaced byte stands the new one. -/
theorem setByteOfNat_byte (x i : Nat) (b : Byte) : setByteOfNat x i b / 256 ^ i % 256 = b.toNat := by
  have hhigh : x / 256 ^ (i + 1) * 256 ^ (i + 1) = x / 256 ^ (i + 1) * 256 * 256 ^ i := by
    rw [pow_succ']
    ring
  rw [setByteOfNat, hhigh, Nat.add_mul_div_right _ _ (by positivity),
    Nat.add_mul_div_right _ _ (by positivity), Nat.div_eq_of_lt (Nat.mod_lt _ (by positivity)),
    Nat.zero_add, Nat.add_mul_mod_self_right]
  exact Nat.mod_eq_of_lt b.isLt

theorem byteOfNat_setByteOfNat (x i : Nat) (b : Byte) (j : Nat) :
    byteOfNat (setByteOfNat x i b) j = if j = i then b else byteOfNat x j := by
  apply BitVec.eq_of_toNat_eq
  rw [apply_ite BitVec.toNat, toNat_byteOfNat, toNat_byteOfNat]
  rcases Nat.lt_trichotomy j i with hlt | rfl | hgt
  · obtain ⟨k, rfl⟩ := Nat.exists_eq_add_of_lt hlt
    have hmod (y : Nat) : y / 256 ^ j % 256 = y % 256 ^ (j + k + 1) % 256 ^ (j + 1) / 256 ^ j := by
      rw [Nat.mod_mod_of_dvd _ (pow_dvd_pow 256 (by omega)), pow_succ, Nat.mod_mul_right_div_self]
    rw [if_neg hlt.ne, hmod, setByteOfNat_mod, ← hmod]
  · rw [if_pos rfl, setByteOfNat_byte]
  · obtain ⟨k, rfl⟩ := Nat.exists_eq_add_of_lt hgt
    have hdiv (y : Nat) : y / 256 ^ (i + k + 1) = y / 256 ^ (i + 1) / 256 ^ k := by
      rw [Nat.div_div_eq_div_mul, ← pow_add]
      congr 2
      omega
    rw [if_neg hgt.ne', hdiv, setByteOfNat_div, ← hdiv]

/-! ## Writes in the windows (R46) -/

/-- The natural that a write at byte `i` leaves. -/
def writtenNat (i : Nat) (w : Word32) (n x : Nat) : Nat :=
  updateBytes (fun j b y => setByteOfNat y (i + j) b) w 0 n x

theorem byteOfNat_writtenNat (i : Nat) (w : Word32) (n x j : Nat) : byteOfNat (writtenNat i w n x) j =
    if i ≤ j ∧ j < i + n then w.extractLsb' (8 * (j - i)) 8 else byteOfNat x j :=
  get_updateBytes (get := byteOfNat) (val := id) (k := 0)
    (fun k b y l _ _ => byteOfNat_setByteOfNat y (i + k) b l) x j

theorem writtenNat_lt {p : Params} (hlegal : p.Legal) {i n x : Nat} (w : Word32)
    (hroom : i + n ≤ p.bnBytes) (hx : x < 2 ^ p.bnBits) : writtenNat i w n x < 2 ^ p.bnBits := by
  rw [two_pow_bnBits hlegal] at hx ⊢
  exact updateBytes_keeps (P := fun y => y < 256 ^ p.bnBytes)
    (fun j b y hj hy => setByteOfNat_lt hy (by omega)) hx

section Windows
variable {s : State} {i : Nat} {size : AccessSize} (w : Word32) (hlegal : s.params.Legal)
  (hidle : s.engine = .idle) (halign : i % size.bytes = 0) (hroom : i + size.bytes ≤ s.params.bnBytes)
include hlegal hidle halign hroom

theorem hostWrite_bnA : hostWrite (0x1000 + i) size w s =
    { s with bnA := writtenNat i w size.bytes s.bnA, reply := some .writeOk } := by
  obtain ⟨hmax, -⟩ := legal_windows hlegal
  exact hostWrite_window w hidle halign (put := fun x => { s with bnA := x }) rfl (by decide)
    (by decide) (by omega) fun _ b _ hj => writeByte_bnA b (locate_bnA_byte hlegal (hj.trans_le hroom))

theorem hostWrite_bnB : hostWrite (0x1200 + i) size w s =
    { s with bnB := writtenNat i w size.bytes s.bnB, reply := some .writeOk } := by
  obtain ⟨hmax, -⟩ := legal_windows hlegal
  exact hostWrite_window w hidle halign (put := fun x => { s with bnB := x }) rfl (by decide)
    (by decide) (by omega) fun _ b _ hj => writeByte_bnB b (locate_bnB_byte hlegal (hj.trans_le hroom))

theorem hostWrite_bnC : hostWrite (0x1400 + i) size w s =
    { s with bnC := writtenNat i w size.bytes s.bnC, reply := some .writeOk } := by
  obtain ⟨hmax, -⟩ := legal_windows hlegal
  exact hostWrite_window w hidle halign (put := fun x => { s with bnC := x }) rfl (by decide)
    (by decide) (by omega) fun _ b _ hj => writeByte_bnC b (locate_bnC_byte hlegal (hj.trans_le hroom))

end Windows

/-- Settles O19: each write leaves `writtenNat` of its register. -/
theorem bigIntegerWrites : Obligations.BigIntegerWrites := by
  intro s i size w hlegal hidle halign hroom written
  have hwritten {x : Nat} (hx : x < 2 ^ s.params.bnBits) : written x (writtenNat i w size.bytes x) :=
    ⟨writtenNat_lt hlegal w hroom hx, byteOfNat_writtenNat i w size.bytes x⟩
  refine ⟨fun hx => ?_, fun hx => ?_, fun hx => ?_⟩
  · intro t
    have ht : t = _ := hostWrite_bnA w hlegal hidle halign hroom
    rw [ht]
    exact ⟨hwritten hx, rfl⟩
  · intro t
    have ht : t = _ := hostWrite_bnB w hlegal hidle halign hroom
    rw [ht]
    exact ⟨hwritten hx, rfl⟩
  · intro t
    have ht : t = _ := hostWrite_bnC w hlegal hidle halign hroom
    rw [ht]
    exact ⟨hwritten hx, rfl⟩

end Sys2Proof.Machine
end

section
/-! What a host read returns, byte by byte (spec/20_memory.md R62 and R71, spec/10_state.md R23, R46 to R48
and R50). -/

namespace Sys2Proof.Machine

/-! ## Where the write sets lie (R50) -/

/-- The addresses of a command's write set. -/
def writeSetAt (p : Params) (i : Instr) (a : Nat) : Prop :=
  let out := 0x20000 ≤ a ∧ a < 0x20000 + p.bufBytes
  let bnR := 0x1600 ≤ a ∧ a < 0x1600 + p.bnBytes
  let bnS := 0x1800 ≤ a ∧ a < 0x1800 + p.bnBytes
  match i with
  | .keyset _ => False
  | .encb _ | .decb _ | .pad _ _ | .unpad _ _ | .encrypt _ _ _ _ | .decrypt _ _ _ _ | .sha256 => out
  | .pfactors => out ∨ (0x28 ≤ a ∧ a < 0x2C)
  | .isprime | .genprime | .primroot | .genpriv | .genpub | .shared | .modexp => bnR
  | .genparams => bnR ∨ bnS
  | .kdf => out ∨ (0x40 ≤ a ∧ a < 0x50) ∨ (0x18 ≤ a ∧ a < 0x1C)

theorem inWriteSet_control_iff (i : Instr) (k : Nat) : inWriteSet i (controlLoc k) = true ↔
    (k = 6 ∧ i = .kdf) ∨ (k = 10 ∧ i = .pfactors) := by
  by_cases h6 : k = 6
  · subst h6
    cases i <;> simp [controlLoc, inWriteSet]
  · by_cases h10 : k = 10
    · subst h10
      cases i <;> simp [controlLoc, inWriteSet]
    · simp [inWriteSet_control h6 h10, h6, h10]

/-- The locations of a write set are the bytes at its addresses, command by command. -/
theorem inWriteSet_locate_iff {p : Params} (h : p.Legal) (i : Instr) (a : Nat) :
    inWriteSet i (locate p a) = true ↔ writeSetAt p i a := by
  obtain ⟨hbn, -, hbuf, -⟩ := legal_windows h
  have hend : outEnd = 0x30000 := rfl
  have hin : inBase = 0x10000 := rfl
  have hloc := located p a
  generalize locate p a = l at hloc
  cases hloc with
  | control below =>
    rw [inWriteSet_control_iff]
    cases i <;> simp only [writeSetAt, reduceCtorEq, and_false, and_true, or_false,
      false_or, false_iff, iff_self] <;> omega
  | _ =>
    cases i <;> simp only [inWriteSet, writeSetAt, Bool.false_eq_true, false_iff, true_iff,
      decide_eq_true_iff] <;> omega

/-! ## A running and an idle CCC -/

/-- A byte of a location that is hidden has no specified value (R71). -/
theorem peek_of_hidden {s : State} {a : Nat} (h : s.hidden (locate s.params a) = true) :
    s.peek a = none := by
  rw [State.peek, if_pos h]

theorem hidden_of_running {s : State} {w : Word32} {ctx : Ctx} {i : Instr}
    (hrun : s.engine = .running w ctx) (hd : decode w = .ok i) (l : Loc) :
    s.hidden l = inWriteSet i l := by
  simp only [State.hidden, hrun, hd]

theorem toNat_byteOfWord (w : Word32) (k : Nat) : (byteOfWord w k).toNat = w.toNat / 256 ^ k % 256 := by
  rw [byteOfWord, BitVec.extractLsb'_toNat, Nat.shiftRight_eq_div_pow, pow_mul]
  rfl

/-- `BUSY` is bit 0 of `STATUS`: the other bytes do not depend on the engine (R29, R30). -/
theorem byteOfWord_statusWord_idle (s : State) {k : Nat} (hk : k ≠ 0) :
    byteOfWord s.statusWord k = byteOfWord (State.statusWord { s with engine := .idle }) k := by
  apply BitVec.eq_of_toNat_eq
  obtain ⟨j, rfl⟩ := Nat.exists_eq_succ_of_ne_zero hk
  have hbit (b : Bool) : (BitVec.ofBool b).toNat < 2 := (BitVec.ofBool b).isLt
  have hhigh (t : State) : t.statusWord.toNat / 256 ^ (j + 1) = t.statusWord.toNat / 2 / 128 / 256 ^ j := by
    rw [pow_succ', Nat.div_div_eq_div_mul, Nat.div_div_eq_div_mul, ← Nat.mul_assoc]
  have hhalf : s.statusWord.toNat / 2 = (State.statusWord { s with engine := .idle }).toNat / 2 := by
    rw [toNat_statusWord, toNat_statusWord]
    have h1 := hbit s.busy
    have h2 := hbit (State.busy { s with engine := .idle })
    simp only [State.errCode, State.instC, State.keyValid]
    omega
  rw [toNat_byteOfWord, toNat_byteOfWord, hhigh, hhigh, hhalf]

/-- A location that is shown reads as it does when the engine is idle, but for the byte of `BUSY`. -/
theorem peek_eq_idle {s : State} {a : Nat} (hvis : s.hidden (locate s.params a) = false) (ha : a ≠ 0x08) :
    s.peek a = State.peek { s with engine := .idle } a := by
  have hidle (l : Loc) : State.hidden { s with engine := .idle } l = false := hidden_of_idle rfl l
  simp only [State.peek, hvis, hidle, Bool.false_eq_true, if_false]
  have hloc := located s.params a
  generalize locate s.params a = l at hloc
  cases hloc with
  | control below =>
    by_cases hstatus : a / 4 = 2
    · rw [hstatus]
      exact congrArg some (byteOfWord_statusWord_idle s (by omega))
    · generalize a / 4 = k at hstatus ⊢
      fun_cases controlLoc k
      case case3 => exact absurd rfl hstatus
      all_goals rfl
  | _ => rfl

/-! ## The bytes of an idle CCC -/

section Idle
variable {s : State} (hidle : s.engine = .idle) {j : Nat}
include hidle

/-- The bytes of the big integers (R46). -/
theorem peek_bn (hlegal : s.params.Legal) (hj : j < s.params.bnBytes) :
    s.peek (0x1000 + j) = some (byteOfNat s.bnA j) ∧
    s.peek (0x1200 + j) = some (byteOfNat s.bnB j) ∧ s.peek (0x1400 + j) = some (byteOfNat s.bnC j) ∧
    s.peek (0x1600 + j) = some (byteOfNat s.bnR j) ∧ s.peek (0x1800 + j) = some (byteOfNat s.bnS j) := by
  simp only [State.peek, locate_bnA_byte hlegal hj, locate_bnB_byte hlegal hj, locate_bnC_byte hlegal hj,
    locate_bnR_byte hlegal hj, locate_bnS_byte hlegal hj, hidden_of_idle hidle, Bool.false_eq_true,
    if_false, and_self]

/-- Past a big integer its window reads 0 (R46). -/
theorem peek_past_bn (hj : s.params.bnBytes ≤ j) (hwindow : j < 0x200) : s.peek (0x1000 + j) = some 0 ∧
    s.peek (0x1200 + j) = some 0 ∧ s.peek (0x1400 + j) = some 0 ∧ s.peek (0x1600 + j) = some 0 ∧
    s.peek (0x1800 + j) = some 0 := by
  have hvis := hidden_of_idle hidle .reserved
  have hpast (byte : Nat → Loc) (base : Nat) :
      windowLoc s.params.bnBytes (base + j - base) byte = .reserved := by
    rw [Nat.add_sub_cancel_left, windowLoc, if_neg (not_lt.mpr hj)]
  exact ⟨peek_reserved ((locate_bnA _ (by omega) (by omega)).trans (hpast _ _)) hvis,
    peek_reserved ((locate_bnB _ (by omega) (by omega)).trans (hpast _ _)) hvis,
    peek_reserved ((locate_bnC _ (by omega) (by omega)).trans (hpast _ _)) hvis,
    peek_reserved ((locate_bnR _ (by omega) (by omega)).trans (hpast _ _)) hvis,
    peek_reserved ((locate_bnS _ (by omega) (by omega)).trans (hpast _ _)) hvis⟩

/-- Past a buffer its window reads 0 (R47, R48). -/
theorem peek_past_buffers (hj : s.params.bufBytes ≤ j) (hwindow : j < 0x10000) :
    s.peek (0x10000 + j) = some 0 ∧ s.peek (0x20000 + j) = some 0 := by
  have hvis := hidden_of_idle hidle .reserved
  have hin : inBase = 0x10000 := rfl
  have hout : outBase = 0x20000 := rfl
  have hend : outEnd = 0x30000 := rfl
  have hpast (byte : Nat → Loc) (base : Nat) :
      windowLoc s.params.bufBytes (base + j - base) byte = .reserved := by
    rw [Nat.add_sub_cancel_left, windowLoc, if_neg (not_lt.mpr hj)]
  exact ⟨peek_reserved ((locate_inBuf _ (by omega) (by omega)).trans (hpast _ _)) hvis,
    peek_reserved ((locate_outBuf _ (by omega) (by omega)).trans (hpast _ _)) hvis⟩

/-- The reserved words and the ranges between the windows read 0 (R23, R68). -/
theorem peek_gap {a : Nat} (h : (0x34 ≤ a ∧ a < 0x40) ∨ (0x70 ≤ a ∧ a < 0x1000) ∨
    (0x1A00 ≤ a ∧ a < 0x10000) ∨ (0x30000 ≤ a ∧ a < 0x40000)) : s.peek a = some 0 := by
  refine peek_reserved ?_ (hidden_of_idle hidle .reserved)
  have hwords : ∀ k < 16, 13 ≤ k → controlLoc k = .reserved := by decide
  rcases h with h | h | h | h
  · rw [locate_control _ h.2, hwords _ (by omega) (by omega)]
  · exact locate_reserved _ (.inl h)
  · exact locate_reserved _ (.inr (.inl h))
  · exact locate_reserved _ (.inr (.inr h.1))

end Idle

/-- A specified byte resolves to itself. -/
theorem resolve_getElem?_of_some {l : List (Option Byte)} {k : Nat} {x : Byte} (h : l[k]? = some (some x))
    (n : Nat) : (resolve l n).1[k]? = some x := by
  induction l generalizing k n with
  | nil => simp at h
  | cons y l ih =>
    cases k with
    | zero =>
      rw [List.getElem?_cons_zero, Option.some.injEq] at h
      subst h
      rfl
    | succ k =>
      rw [List.getElem?_cons_succ] at h
      cases y with
      | none => exact ih h (n + 1)
      | some b => exact ih h n

/-- Settles O20: a running command hides its write set and nothing else (`inWriteSet_locate_iff`,
`peek_eq_idle`), the bytes of an idle CCC stand at their addresses, and a read resolves the bytes it
covers. -/
theorem hostReadsByLocation : Obligations.HostReadsByLocation := by
  intro s hlegal
  refine ⟨fun w ctx i a hrun hd _ => ?_, fun hidle => ⟨fun j => ?_, fun j => ?_, fun j => peek_bn hidle hlegal,
    fun j hj => ⟨?_, ?_⟩, fun j => peek_past_bn hidle, fun j => peek_past_buffers hidle,
    fun a => peek_gap hidle⟩, fun addr size halign hwide => ?_⟩
  · intro out bnR bnS writeSet
    have hset : writeSet ↔ writeSetAt s.params i a := by cases i <;> exact Iff.rfl
    have hhidden : s.hidden (locate s.params a) = true ↔ writeSet := by
      rw [hidden_of_running hrun hd, inWriteSet_locate_iff hlegal, hset]
    exact ⟨fun h => peek_of_hidden (hhidden.mpr h),
      fun h => peek_eq_idle (Bool.eq_false_iff.mpr (mt hhidden.mp h))⟩
  · exact peek_key (fun _ => hidden_of_idle hidle _) j.isLt
  · exact peek_iv (fun _ => hidden_of_idle hidle _) j.isLt
  · exact peek_inBuf hlegal hj (hidden_of_idle hidle _)
  · exact peek_outBuf hlegal hj (hidden_of_idle hidle _)
  · have hok : accessOk addr.toNat size = true :=
      (accessOk_iff _ _).mpr ⟨halign, (Nat.lt_or_ge addr.toNat 0x40).symm.imp id hwide⟩
    refine ⟨_, ?_, by rw [busAccess_read_of_accessOk hok, busRead_reply], fun k x hk hx => ?_⟩
    · rw [resolve_length, List.length_map, List.length_range]
    · refine resolve_getElem?_of_some ?_ _
      rw [List.getElem?_map, List.getElem?_range hk]
      exact congrArg some hx

end Sys2Proof.Machine
end

section
/-! Unpadding undoes padding (spec/40_padding.md R133). -/

namespace Sys2Proof.Machine

/-! ## The schemes with a length byte -/

section LengthByte
variable {d mid : Bytes} {n bs : Nat} (hpos : 1 ≤ n) (hle : n ≤ bs) (hbs : bs ≤ 16)
  (hmid : mid.length = n - 1)
include hpos hle hbs

omit hpos in
theorem toNat_padByte : (padByte n).toNat = n := by
  rw [padByte, BitVec.toNat_ofNat]
  omega

include hmid

/-- A padded string claims the pad length. -/
theorem padded_inRange : 1 ≤ (padByte n).toNat ∧ (padByte n).toNat ≤ bs ∧
    (padByte n).toNat ≤ ((d ++ mid) ++ [padByte n]).length := by
  rw [toNat_padByte hle hbs, List.length_append, List.length_append, List.length_singleton]
  omega

theorem padded_length_sub : ((d ++ mid) ++ [padByte n]).length - (padByte n).toNat = d.length := by
  rw [toNat_padByte hle hbs, List.length_append, List.length_append, List.length_singleton]
  omega

/-- The claimed bytes but the last are the pad bytes before it. -/
theorem padded_drop : (d ++ mid).drop
    (((d ++ mid) ++ [padByte n]).length - (padByte n).toNat) = mid := by
  rw [padded_length_sub hpos hle hbs hmid, List.drop_left]

theorem padded_take : ((d ++ mid) ++ [padByte n]).take
    (((d ++ mid) ++ [padByte n]).length - (padByte n).toNat) = d := by
  rw [padded_length_sub hpos hle hbs hmid, List.append_assoc, List.take_left]

theorem unpad_iso10126_padded : unpad ((d ++ mid) ++ [padByte n]) .iso10126 bs = .ok d := by
  rw [unpad_iso10126_of_inRange (padded_inRange hpos hle hbs hmid), padded_take hpos hle hbs hmid]

theorem unpad_ansiX923_padded (hzero : ∀ x ∈ mid, x = 0) :
    unpad ((d ++ mid) ++ [padByte n]) .ansiX923 bs = .ok d := by
  rw [unpad_ansiX923_of_inRange (padded_inRange hpos hle hbs hmid), padded_take hpos hle hbs hmid,
    padded_drop hpos hle hbs hmid, if_pos hzero]

theorem unpad_pkcs7_padded (hall : ∀ x ∈ mid, x = padByte n) :
    unpad ((d ++ mid) ++ [padByte n]) .pkcs7 bs = .ok d := by
  rw [unpad_pkcs7_of_inRange (padded_inRange hpos hle hbs hmid), padded_take hpos hle hbs hmid,
    padded_drop hpos hle hbs hmid, if_pos hall]

end LengthByte

/-! ## ZEROS -/

theorem unpadZeros_append_replicate (d : Bytes) (n : Nat) :
    unpadZeros (d ++ List.replicate n 0) = unpadZeros d := by
  induction n with
  | zero => rw [List.replicate_zero, List.append_nil]
  | succ n ih =>
    rw [List.replicate_succ', ← List.append_assoc, unpadZeros_eq_rdropWhile,
      List.rdropWhile_concat_pos _ _ _ (by rfl)]
    exact ih

/-- ZEROS leaves a string alone exactly when it does not end in a zero byte (R129). -/
theorem unpadZeros_eq_self_iff (d : Bytes) : unpadZeros d = d ↔ d.getLast? ≠ some 0 := by
  constructor
  · intro h
    rw [← h]
    exact unpadZeros_getLast?_ne_zero d
  · intro h
    rw [unpadZeros_eq_rdropWhile, List.rdropWhile_eq_self_iff]
    intro hne hzero
    rw [List.getLast?_eq_some_getLast hne, eq_of_beq hzero] at h
    exact h rfl

/-- Settles O27, scheme by scheme: the pad length is claimed again, and ZEROS strips the zero bytes of the
text too. -/
theorem unpadUndoesPad : Obligations.UnpadUndoesPad := by
  intro d out p bs e e' hbs hpad
  have hle16 : bs ≤ 16 := by omega
  have hpos := (padLength_spec d.length bs (by omega)).1
  have hle := padLength_le d.length bs
  cases p with
  | zeros =>
    rw [pad_zeros] at hpad
    cases hpad
    refine ⟨fun h => absurd rfl h, fun _ => ?_⟩
    rw [unpad, Except.ok.injEq, unpadZeros_append_replicate, unpadZeros_eq_self_iff]
  | ansiX923 =>
    rw [pad_ansiX923] at hpad
    cases hpad
    refine ⟨fun _ => ?_, fun h => nomatch h⟩
    exact unpad_ansiX923_padded hpos hle hle16 List.length_replicate fun _ => List.eq_of_mem_replicate
  | pkcs7 =>
    have hlast : List.replicate (padLength d.length bs) (padByte (padLength d.length bs)) =
        List.replicate (padLength d.length bs - 1) (padByte (padLength d.length bs)) ++
          [padByte (padLength d.length bs)] := by
      rw [← List.replicate_succ', Nat.sub_add_cancel hpos]
    rw [pad_pkcs7, hlast, ← List.append_assoc] at hpad
    cases hpad
    refine ⟨fun _ => ?_, fun h => nomatch h⟩
    exact unpad_pkcs7_padded hpos hle hle16 List.length_replicate fun _ => List.eq_of_mem_replicate
  | iso10126 =>
    rw [pad_iso10126] at hpad
    cases hpad
    refine ⟨fun _ => ?_, fun h => nomatch h⟩
    exact unpad_iso10126_padded hpos hle hle16 (Entropy.drawBytes_length _ _)
  | unknown code =>
    rw [pad_unknown] at hpad
    cases hpad

end Sys2Proof.Machine
end

section
/-! Commands of one computation step and one completion step (spec/70_reset_and_hazards.md R372), run from
their acceptance to their end (spec/60_exceptions.md R324 and R325). -/

namespace Sys2Proof.Machine

/-! ## Two steps -/

theorem succeed_setCtx (s : State) (c : Ctx) (r : Result) : (s.setCtx c).succeed r = s.succeed r := by
  unfold State.setCtx
  split
  · rfl
  · cases r <;> rfl

section TwoSteps
variable {f : State → Computed} {s t : State} {w : Word32} (hrun : s.engine = .running w .start)
include hrun

/-- A computation that gives a result, then its completion. -/
theorem oneShot_completes {r : Result} (hf : f s = (.ok r, t)) (ht : t.engine = s.engine) :
    oneShot f (oneShot f s) = t.succeed r := by
  rw [oneShot_start_ok hrun hf, oneShot_finish (State.setCtx_engine (ht.trans hrun)), succeed_setCtx]

theorem exec_completes {i : Instr} (hi : ∀ s, exec i s = .next (oneShot f s)) {r : Result}
    (hf : f s = (.ok r, t)) (ht : t.engine = s.engine) :
    exec i (oneShot f s) = .next (t.succeed r) := by
  rw [hi, oneShot_completes hrun hf ht]

/-- A computation that raises ends the command. -/
theorem oneShot_fails {e : CmdError} (hf : f s = (.error e, t)) : failedFrom t (oneShot f s) e := by
  rw [oneShot_start_error hrun hf]
  exact failedFrom_fail t e

end TwoSteps

/-- After a successful completion `OUT_BUF` holds the result's bytes and nothing past them (R48). -/
theorem bufferAfter_succeed {s t : State} {r : Result} (hmem : t.mem = s.mem)
    (hlen : (r.bytes t.params).length ≤ 0x10000) :
    bufferAfter s (t.succeed r) (r.bytes t.params) := by
  intro a
  rw [succeed_mem, Memory.read_outputMem t _ hlen, hmem]

/-- A result without an output leaves `OUT_BUF` unspecified (log entry 7). -/
theorem bufferAfter_succeed_nil {s t : State} {r : Result} (hmem : t.mem = s.mem)
    (hr : r.bytes t.params = []) : bufferAfter s (t.succeed r) [] := by
  have h := bufferAfter_succeed (s := s) (t := t) (r := r) hmem (by simp [hr])
  rwa [hr] at h

theorem bufBytes_le {p : Params} (h : p.Legal) : p.bufBytes ≤ 0x10000 := (legal_windows h).2.2.1

/-! ## Padding commands -/

theorem schemeUnknown_eq_true_iff (p : PadScheme) :
    schemeUnknown p = true ↔ ∃ code, p = .unknown code := by
  cases p <;> simp [schemeUnknown]

theorem schemeUnknown_eq_false {p : PadScheme} (h : ∀ code, p ≠ .unknown code) :
    schemeUnknown p = false := by
  rw [← Bool.not_eq_true, schemeUnknown_eq_true_iff]
  exact fun ⟨code, hp⟩ => h code hp

/-- A known scheme pads every string (R120 to R125). -/
theorem pad_ok_of_known {p : PadScheme} (h : ∀ code, p ≠ .unknown code) (d : Bytes) (bs : Nat)
    (e : Entropy) : ∃ out e', pad d p bs e = .ok (out, e') := by
  cases p with
  | unknown code => exact absurd rfl (h code)
  | _ => exact ⟨_, _, rfl⟩

/-- Settles O29, clause by clause, in the order of `computePad`'s checks. -/
theorem padCommand : Obligations.PadCommand := by
  intro s w c p hlegal hrun bs n
  have hbuf := bufBytes_le hlegal
  refine ⟨fun hp => ?_, fun hp hlong => ?_, fun hp hin hcap => ?_, fun hp hfit => ?_⟩
  · have hf : computePad c p s = (.error .padding, s) := by
      simp [computePad, (schemeUnknown_eq_true_iff p).mpr hp]
    exact ⟨_, rfl, oneShot_fails hrun hf⟩
  · have hf : computePad c p s = (.error .capacity, s) := by
      simp [computePad, schemeUnknown_eq_false hp, State.inputTooLong, hlong]
    exact ⟨_, rfl, oneShot_fails hrun hf⟩
  · have hcap' : s.params.bufBytes < s.inLen.toNat + padLength s.inLen.toNat (blockSize c) := hcap
    have hf : computePad c p s = (.error .capacity, s.readInput) := by
      simp [computePad, schemeUnknown_eq_false hp, State.inputTooLong, not_lt.mpr hin, hcap']
    exact ⟨_, rfl, oneShot_fails hrun hf⟩
  · have hfit' : s.inLen.toNat + padLength s.inLen.toNat (blockSize c) ≤ s.params.bufBytes := hfit
    obtain ⟨out, e, hpad⟩ := pad_ok_of_known hp s.input (blockSize c) s.entropy
    have hf : computePad c p s = (.ok (.output out), { s.readInput with entropy := e }) := by
      have hin : s.inLen.toNat ≤ s.params.bufBytes := by omega
      simp [computePad, schemeUnknown_eq_false hp, State.inputTooLong, not_lt.mpr hin,
        not_lt.mpr hfit', hpad]
    have hlen := pad_length (blockSize_pos c) hpad
    rw [input_length] at hlen
    refine ⟨out, e, _, _, hpad, hlen, rfl, exec_completes hrun (fun _ => rfl) hf rfl, ?_, rfl⟩
    exact bufferAfter_succeed (r := .output out) rfl (hlen.trans_le (hfit'.trans hbuf))

/-- Settles O30, clause by clause, in the order of `computeUnpad`'s checks. -/
theorem unpadCommand : Obligations.UnpadCommand := by
  intro s w c p hlegal hrun
  have hbuf := bufBytes_le hlegal
  refine ⟨fun hp => ?_, fun hp hlong => ?_, fun hp hin hun => ?_, fun out hin hun => ?_⟩
  · have hf : computeUnpad c p s = (.error .padding, s) := by
      simp [computeUnpad, (schemeUnknown_eq_true_iff p).mpr hp]
    exact ⟨_, rfl, oneShot_fails hrun hf⟩
  · have hf : computeUnpad c p s = (.error .capacity, s) := by
      simp [computeUnpad, schemeUnknown_eq_false hp, State.inputTooLong, hlong]
    exact ⟨_, rfl, oneShot_fails hrun hf⟩
  · have hf : computeUnpad c p s = (.error .padding, s.readInput) := by
      simp [computeUnpad, schemeUnknown_eq_false hp, State.inputTooLong, not_lt.mpr hin, hun]
    exact ⟨_, rfl, oneShot_fails hrun hf⟩
  · have hp : ∀ code, p ≠ .unknown code := by
      rintro code rfl
      cases hun
    have hf : computeUnpad c p s = (.ok (.output out), s.readInput) := by
      simp [computeUnpad, schemeUnknown_eq_false hp, State.inputTooLong, not_lt.mpr hin, hun]
    have hlen := unpad_length_le hun
    rw [input_length] at hlen
    refine ⟨hlen, _, _, rfl, exec_completes hrun (fun _ => rfl) hf rfl, ?_, rfl⟩
    exact bufferAfter_succeed (r := .output out) rfl (hlen.trans (hin.trans hbuf))

/-! ## Block commands -/

theorem keyedFor_of_inst {s : State} {c : Cipher} {sched : Schedule} (hinst : s.inst = some sched)
    (hc : sched.cipher = c) : s.keyedFor c = some sched := by
  simp only [State.keyedFor, hinst, if_pos hc]

theorem keyedFor_eq_none {s : State} {c : Cipher} (h : ∀ sched, s.inst = some sched → sched.cipher ≠ c) :
    s.keyedFor c = none := by
  cases hinst : s.inst with
  | none => simp only [State.keyedFor, hinst]
  | some sched => simp only [State.keyedFor, hinst, if_neg (h sched hinst)]

section Block
variable {f : FeTables → Schedule → Bytes → Bytes} {c : Cipher} {s : State}

theorem computeBlock_noKey (h : s.keyedFor c = none) : computeBlock f c s = (.error .noKey, s) := by
  simp only [computeBlock, h]

theorem computeBlock_badLength {sched : Schedule} (h : s.keyedFor c = some sched)
    (hlen : s.inLen.toNat ≠ blockSize c) : computeBlock f c s = (.error .invalidBlockSize, s) := by
  simp only [computeBlock, h, if_pos hlen]

theorem computeBlock_ok {sched : Schedule} (h : s.keyedFor c = some sched)
    (hlen : s.inLen.toNat = blockSize c) :
    computeBlock f c s = (.ok (.output (f s.params.fe sched s.input)), s.readInput) := by
  simp only [computeBlock, h, if_neg (not_not.mpr hlen)]

/-- A block command with a block of its instance's cipher, to its completion. -/
theorem block_completes {w : Word32} {sched : Schedule} (hrun : s.engine = .running w .start)
    (h : s.keyedFor c = some sched) (hlen : s.inLen.toNat = blockSize c)
    (hf : (f s.params.fe sched s.input).length = blockSize c) :
    ∃ u, oneShot (computeBlock f c) (oneShot (computeBlock f c) s) = u ∧
      bufferAfter s u (f s.params.fe sched s.input) ∧
      u = { s.readInput with
        engine := .idle, err := none, done := true, outLen := BitVec.ofNat 32 (blockSize c)
        mem := u.mem } := by
  refine ⟨_, oneShot_completes hrun (computeBlock_ok h hlen) rfl, ?_, ?_⟩
  · refine bufferAfter_succeed (r := .output _) rfl ?_
    rw [Result.bytes, hf]
    cases c <;> decide
  · rw [← hf]
    rfl

end Block

/-- Settles O32: the checks of `computeBlock` in order, for `E` and for `D`. -/
theorem blockCommands : Obligations.BlockCommands := by
  intro s w c hrun
  refine ⟨fun hno => ?_, fun sched hinst hc hlen => ?_, fun sched hinst hc hlen => ?_⟩
  · have hk := keyedFor_eq_none hno
    exact ⟨⟨_, rfl, oneShot_fails hrun (computeBlock_noKey hk)⟩,
      ⟨_, rfl, oneShot_fails hrun (computeBlock_noKey hk)⟩⟩
  · have hk := keyedFor_of_inst hinst hc
    exact ⟨⟨_, rfl, oneShot_fails hrun (computeBlock_badLength hk hlen)⟩,
      ⟨_, rfl, oneShot_fails hrun (computeBlock_badLength hk hlen)⟩⟩
  · have hk := keyedFor_of_inst hinst hc
    obtain ⟨u, hu, henc⟩ := block_completes (f := Schedule.encBlock) hrun hk hlen
      (by rw [encBlock_length, hc])
    obtain ⟨v, hv, hdec⟩ := block_completes (f := Schedule.decBlock) hrun hk hlen
      (by rw [decBlock_length, hc])
    exact ⟨⟨_, u, rfl, congrArg Host.Outcome.next hu, henc⟩,
      ⟨_, v, rfl, congrArg Host.Outcome.next hv, hdec⟩⟩

/-! ## SHA-256 and the key derivation -/

/-- Settles O59: the length check, then the digest. -/
theorem sha256Command : Obligations.Sha256Command := by
  intro s w hrun
  refine ⟨fun hlong => ?_, fun hin => ⟨sha256_length _, ?_⟩⟩
  · have hf : computeSha256 s = (.error .capacity, s) := by
      simp [computeSha256, State.inputTooLong, hlong]
    exact ⟨_, rfl, oneShot_fails hrun hf⟩
  · have hf : computeSha256 s = (.ok (.output (sha256 s.input)), s.readInput) := by
      simp [computeSha256, State.inputTooLong, not_lt.mpr hin]
    have hlen : (sha256 s.input).length ≤ 0x10000 := (sha256_length _).trans_le (by decide)
    refine ⟨_, _, rfl, exec_completes hrun (fun _ => rfl) hf rfl,
      bufferAfter_succeed (t := s.readInput) (r := .output (sha256 s.input)) rfl hlen, ?_⟩
    simp only [State.succeed, State.writeResult_output, State.writeOutput, sha256_length]
    rfl

/-- A key with its first 16 bytes replaced (R305). -/
theorem toList_keyWith (k : Vector Byte 32) {b : Bytes} (hb : b.length = 16) :
    (keyWith k b).toList = b ++ k.toList.drop 16 := by
  apply List.ext_getElem?
  intro i
  rcases Nat.lt_or_ge i 32 with hi | hi
  · have hget : (keyWith k b).toList[i]? = some (b.getD i k[i]) := by
      simp [keyWith, hi]
      rfl
    rw [hget]
    rcases Nat.lt_or_ge i 16 with hlow | hhigh
    · rw [List.getElem?_append_left (by omega), List.getD_eq_getElem _ _ (by omega),
        List.getElem?_eq_getElem (by omega)]
    · rw [List.getElem?_append_right (by omega), List.getElem?_drop, List.getD_eq_default _ _ (by omega),
        hb, Nat.add_sub_cancel' hhigh]
      simp [hi]
  · rw [List.getElem?_eq_none (by simpa using hi), List.getElem?_eq_none (by simp; omega)]

/-- Settles O60: the computation is `deriveKey`, and its 16 bytes go to `OUT_BUF` and `KEY`. -/
theorem kdfCommand : Obligations.KdfCommand := by
  intro s w hrun k
  have hk : k.length = 16 := deriveKey_length s.bnA
  have hf : computeKdf s = (.ok (.derivedKey k), s) := rfl
  refine ⟨hk, _, _, rfl, exec_completes hrun (fun _ => rfl) hf rfl,
    bufferAfter_succeed (t := s) (r := .derivedKey k) rfl (hk.trans_le (by decide)),
    toList_keyWith s.key hk, ?_⟩
  simp only [State.succeed, State.writeResult_derivedKey, State.writeOutput, hk]
  rfl

end Sys2Proof.Machine
end

section
/-! The block functions of the two ciphers invert each other (spec/43_feistel.md R208, spec/44_spn.md R233,
R235 and R241). -/

namespace Sys2Proof.Machine

/-! ## Words and bytes -/

/-- Undoing the rounds in reverse order (R208, R241). -/
theorem foldl_reverse_foldl {σ κ : Type} {f g : σ → κ → σ} (hinv : ∀ s k, g (f s k) k = s)
    (l : List κ) (s : σ) : l.reverse.foldl g (l.foldl f s) = s := by
  induction l generalizing s with
  | nil => rfl
  | cons k l ih =>
    simp only [List.reverse_cons, List.foldl_append, List.foldl_cons, List.foldl_nil, ih, hinv]

/-- The same with the rounds undone first. -/
theorem foldl_foldl_reverse {σ κ : Type} {f g : σ → κ → σ} (hinv : ∀ s k, f (g s k) k = s)
    (l : List κ) (s : σ) : l.foldl f (l.reverse.foldl g s) = s := by
  have h := foldl_reverse_foldl hinv l.reverse s
  rwa [List.reverse_reverse] at h

theorem word16LE_toLE (w : Word16) : word16LE (toLE w.toNat 2) = w := by
  have hfits : w.toNat < 256 ^ 2 := w.isLt
  rw [word16LE, leNat_toLE, Nat.mod_eq_of_lt hfits, BitVec.ofNat_toNat, BitVec.setWidth_eq]

theorem word32LE_toLE (w : Word32) : word32LE (toLE w.toNat 4) = w := by
  have hfits : w.toNat < 256 ^ 4 := w.isLt
  rw [word32LE, leNat_toLE, Nat.mod_eq_of_lt hfits, BitVec.ofNat_toNat, BitVec.setWidth_eq]

theorem toLE_word16LE {b : Bytes} (hb : b.length = 2) : toLE (word16LE b).toNat 2 = b := by
  have hlt : leNat b < 256 ^ 2 := hb ▸ leNat_lt b
  rw [word16LE, BitVec.toNat_ofNat, Nat.mod_eq_of_lt (show leNat b < 2 ^ 16 from hlt), ← hb, toLE_leNat]

theorem toLE_word32LE {b : Bytes} (hb : b.length = 4) : toLE (word32LE b).toNat 4 = b := by
  have hlt : leNat b < 256 ^ 4 := hb ▸ leNat_lt b
  rw [word32LE, BitVec.toNat_ofNat, Nat.mod_eq_of_lt (show leNat b < 2 ^ 32 from hlt), ← hb, toLE_leNat]

/-- Slices one after the other are one slice. -/
theorem slice_append_slice (b : Bytes) (i m n : Nat) :
    slice b i m ++ slice b (i + m) n = slice b i (m + n) := by
  rw [slice, slice, slice, ← List.drop_drop, List.take_add]

theorem slice_all {b : Bytes} {n : Nat} (hb : b.length = n) : slice b 0 n = b := by
  rw [slice_zero, ← hb, List.take_length]

/-! ## Cipher A -/

theorem loadA_storeA (s : StateA) : loadA (storeA s) = s := by
  have h0 : slice (storeA s) 0 2 = toLE s.w0.toNat 2 := rfl
  have h1 : slice (storeA s) 2 2 = toLE s.w1.toNat 2 := rfl
  have h2 : slice (storeA s) 4 2 = toLE s.w2.toNat 2 := rfl
  have h3 : slice (storeA s) 6 2 = toLE s.w3.toNat 2 := rfl
  rw [loadA, h0, h1, h2, h3, word16LE_toLE, word16LE_toLE, word16LE_toLE, word16LE_toLE]

theorem storeA_loadA {b : Bytes} (hb : b.length = 8) : storeA (loadA b) = b := by
  have hlen (i : Nat) (hi : i ≤ 6) : (slice b i 2).length = 2 := by
    rw [slice_length]
    omega
  rw [storeA, loadA, toLE_word16LE (hlen 0 (by omega)), toLE_word16LE (hlen 2 (by omega)),
    toLE_word16LE (hlen 4 (by omega)), toLE_word16LE (hlen 6 (by omega)), slice_append_slice b 0 2 2,
    slice_append_slice b 0 4 2, slice_append_slice b 0 6 2, slice_all hb]

theorem invRoundA_roundA (fe : FeTables) (s : StateA) (k : KeyA) :
    invRoundA fe (roundA fe s k) k = s := by
  simp only [invRoundA, roundA, BitVec.xor_assoc, BitVec.xor_self, BitVec.xor_zero]

theorem roundA_invRoundA (fe : FeTables) (s : StateA) (k : KeyA) :
    roundA fe (invRoundA fe s k) k = s := by
  simp only [invRoundA, roundA, BitVec.xor_assoc, BitVec.xor_self, BitVec.xor_zero]

/-- The unrotated last round and the three recombinations are an inverse round (R207). -/
theorem recombineA_lastInvRoundA (fe : FeTables) (s : StateA) (k : KeyA) :
    recombineA (recombineA (recombineA (lastInvRoundA fe s k))) = invRoundA fe s k := rfl

/-- Decryption runs the inverse rounds over the whole schedule backwards. -/
theorem decA_eq (fe : FeTables) (sched : Vector KeyA 32) (b : Bytes) :
    decA fe sched b = storeA (sched.toList.reverse.foldl (invRoundA fe) (loadA b)) := by
  have hlist : sched.toList = sched.get 0 :: sched.toList.tail := by
    rw [← List.cons_head_tail (l := sched.toList) (by simp)]
    congr 1
    rw [List.head_eq_getElem]
    rfl
  rw [decA]
  conv_rhs => rw [hlist, List.reverse_cons, List.foldl_append]
  exact congrArg storeA (recombineA_lastInvRoundA fe _ _)

/-- Settles O33: the rounds are undone one by one. -/
theorem cipherABlockFunctionsInverse : Obligations.CipherABlockFunctionsInverse := by
  intro fe sched b hb
  constructor
  · rw [decA_eq, encA, loadA_storeA, encWordsA, foldl_reverse_foldl (invRoundA_roundA fe),
      storeA_loadA hb]
  · rw [decA_eq, encA, loadA_storeA, encWordsA, foldl_foldl_reverse (roundA_invRoundA fe),
      storeA_loadA hb]

/-! ## Cipher B: the layers -/

/-- One box undoes another: looked up at what the first gives for a nibble, it gives the nibble. -/
def undoesBox (inv box : List (BitVec 4)) : Prop :=
  ∀ n < 16, inv.getD (box.getD n 0).toNat 0 = BitVec.ofNat 4 n

theorem invSboxB_undoes : ∀ k < 8, undoesBox (invSboxB k) (sboxB k) := by
  unfold undoesBox
  decide

theorem sboxB_undoes : ∀ k < 8, undoesBox (sboxB k) (invSboxB k) := by
  unfold undoesBox
  decide

theorem nibbleB_lt (x : Quad) (j : Nat) : nibbleB x j < 16 := by
  have h0 := Bool.toNat_lt (x.x0.getLsbD j)
  have h1 := Bool.toNat_lt (x.x1.getLsbD j)
  have h2 := Bool.toNat_lt (x.x2.getLsbD j)
  have h3 := Bool.toNat_lt (x.x3.getLsbD j)
  rw [nibbleB]
  omega

/-- Bits 0 to 3 of the nibble at a position are the bits of the four words there. -/
theorem getLsbD_nibbleB (x : Quad) (j : Nat) :
    (BitVec.ofNat 4 (nibbleB x j)).getLsbD 0 = x.x0.getLsbD j ∧
    (BitVec.ofNat 4 (nibbleB x j)).getLsbD 1 = x.x1.getLsbD j ∧
    (BitVec.ofNat 4 (nibbleB x j)).getLsbD 2 = x.x2.getLsbD j ∧
    (BitVec.ofNat 4 (nibbleB x j)).getLsbD 3 = x.x3.getLsbD j := by
  rw [nibbleB]
  generalize x.x0.getLsbD j = b0
  generalize x.x1.getLsbD j = b1
  generalize x.x2.getLsbD j = b2
  generalize x.x3.getLsbD j = b3
  revert b0 b1 b2 b3
  decide

/-- A nibble is the sum of its bits. -/
theorem nibble_eq_bits (v : BitVec 4) :
    (v.getLsbD 0).toNat + 2 * (v.getLsbD 1).toNat + 4 * (v.getLsbD 2).toNat +
      8 * (v.getLsbD 3).toNat = v.toNat := by
  revert v
  decide

/-- Applying a box looks each nibble up in it (R231). -/
theorem nibbleB_applyBox (box : List (BitVec 4)) (x : Quad) {j : Nat} (hj : j < 32) :
    nibbleB (applyBox box x) j = (box.getD (nibbleB x j) 0).toNat := by
  rw [← nibble_eq_bits, nibbleB]
  simp only [applyBox, BitVec.getLsbD_ofFnLE, hj, dite_true]

theorem ofFnLE_getLsbD (w : Word32) : (BitVec.ofFnLE fun j : Fin 32 => w.getLsbD j.val) = w := by
  ext i hi
  rw [BitVec.getElem_ofFnLE, BitVec.getLsbD_eq_getElem]

theorem applyBox_applyBox {inv box : List (BitVec 4)} (h : undoesBox inv box) (x : Quad) :
    applyBox inv (applyBox box x) = x := by
  have hlookup (j : Fin 32) :
      inv.getD (nibbleB (applyBox box x) j.val) 0 = BitVec.ofNat 4 (nibbleB x j.val) := by
    rw [nibbleB_applyBox box x j.isLt, h _ (nibbleB_lt x j.val)]
  rw [applyBox]
  simp only [hlookup, (getLsbD_nibbleB x _).1, (getLsbD_nibbleB x _).2.1,
    (getLsbD_nibbleB x _).2.2.1, (getLsbD_nibbleB x _).2.2.2, ofFnLE_getLsbD]

theorem rotateRight_rotateLeft (x : Word32) (r : Nat) : (x.rotateLeft r).rotateRight r = x := by
  ext i hi
  have hr : r % 32 < 32 := Nat.mod_lt _ (by decide)
  rw [BitVec.getElem_rotateRight]
  split
  · rw [BitVec.getElem_rotateLeft, dif_neg (by omega)]
    congr 1
    omega
  · rw [BitVec.getElem_rotateLeft, dif_pos (by omega)]
    congr 1
    omega

theorem rotateLeft_rotateRight (x : Word32) (r : Nat) : (x.rotateRight r).rotateLeft r = x := by
  ext i hi
  have hr : r % 32 < 32 := Nat.mod_lt _ (by decide)
  rw [BitVec.getElem_rotateLeft]
  split
  · rw [BitVec.getElem_rotateRight, dif_neg (by omega)]
    congr 1
    omega
  · rw [BitVec.getElem_rotateRight, dif_pos (by omega)]
    congr 1
    omega

/-- XORing a word twice leaves nothing of it. -/
theorem xor_xor_cancel_right (a b : Word32) : a ^^^ b ^^^ b = a := by
  rw [BitVec.xor_assoc, BitVec.xor_self, BitVec.xor_zero]

theorem xor_xor_cancel_outer (a b c : Word32) : a ^^^ b ^^^ c ^^^ b ^^^ c = a := by
  rw [BitVec.xor_assoc a b c, BitVec.xor_comm b c, ← BitVec.xor_assoc a c b, xor_xor_cancel_right, xor_xor_cancel_right]

theorem invLinearB_linearB (x : Quad) : invLinearB (linearB x) = x := by
  simp only [invLinearB, linearB, rotateRight_rotateLeft, xor_xor_cancel_outer]

theorem linearB_invLinearB (x : Quad) : linearB (invLinearB x) = x := by
  simp only [invLinearB, linearB, rotateLeft_rotateRight, xor_xor_cancel_outer]

/-- Settles O35: boxes by their tables, the linear transform step by step. -/
theorem cipherBLayersInvert : Obligations.CipherBLayersInvert := by
  intro k x hk
  exact ⟨applyBox_applyBox (invSboxB_undoes k hk) x, applyBox_applyBox (sboxB_undoes k hk) x,
    invLinearB_linearB x, linearB_invLinearB x⟩

/-! ## Cipher B: the block functions -/

theorem Quad.xor_xor (x k : Quad) : (x.xor k).xor k = x := by
  simp only [Quad.xor, xor_xor_cancel_right]

theorem invRoundB_roundB (k : Vector Quad 33) (x : Quad) (r : Fin 32) :
    invRoundB k (roundB k x r) r = x := by
  have hbox := applyBox_applyBox (invSboxB_undoes (r.val % 8) (Nat.mod_lt _ (by decide)))
  by_cases hr : r.val < 31
  · simp only [invRoundB, roundB, if_pos hr, invLinearB_linearB, hbox, Quad.xor_xor]
  · simp only [invRoundB, roundB, if_neg hr, hbox, Quad.xor_xor]

theorem roundB_invRoundB (k : Vector Quad 33) (x : Quad) (r : Fin 32) :
    roundB k (invRoundB k x r) r = x := by
  have hbox := applyBox_applyBox (sboxB_undoes (r.val % 8) (Nat.mod_lt _ (by decide)))
  by_cases hr : r.val < 31
  · simp only [invRoundB, roundB, if_pos hr, linearB_invLinearB, hbox, Quad.xor_xor]
  · simp only [invRoundB, roundB, if_neg hr, hbox, Quad.xor_xor]

theorem loadB_storeB (x : Quad) : loadB (storeB x) = x := by
  have h0 : slice (storeB x) 0 4 = toLE x.x0.toNat 4 := rfl
  have h1 : slice (storeB x) 4 4 = toLE x.x1.toNat 4 := rfl
  have h2 : slice (storeB x) 8 4 = toLE x.x2.toNat 4 := rfl
  have h3 : slice (storeB x) 12 4 = toLE x.x3.toNat 4 := rfl
  rw [loadB, h0, h1, h2, h3, word32LE_toLE, word32LE_toLE, word32LE_toLE, word32LE_toLE]

theorem storeB_loadB {b : Bytes} (hb : b.length = 16) : storeB (loadB b) = b := by
  have hlen (i : Nat) (hi : i ≤ 12) : (slice b i 4).length = 4 := by
    rw [slice_length]
    omega
  rw [storeB, loadB, toLE_word32LE (hlen 0 (by omega)), toLE_word32LE (hlen 4 (by omega)),
    toLE_word32LE (hlen 8 (by omega)), toLE_word32LE (hlen 12 (by omega)),
    slice_append_slice b 0 4 4, slice_append_slice b 0 8 4, slice_append_slice b 0 12 4,
    slice_all hb]

/-- Settles O34: as for cipher A, round by round. -/
theorem cipherBBlockFunctionsInverse : Obligations.CipherBBlockFunctionsInverse := by
  intro k b hb
  constructor
  · rw [decB, encB, loadB_storeB, foldl_reverse_foldl (invRoundB_roundB k), storeB_loadB hb]
  · rw [decB, encB, loadB_storeB, foldl_foldl_reverse (roundB_invRoundB k), storeB_loadB hb]

end Sys2Proof.Machine
end

section
/-! `KEYSET` and the two key schedules (spec/42_block_commands.md R185 and R186, spec/43_feistel.md R210,
spec/44_spn.md R236 to R238). -/

namespace Sys2Proof.Machine

/-! ## Cipher A's schedule -/

/-- A step rewrites one entry of the schedule (R210). -/
theorem schedStepA_get (fe : FeTables) (acc : Vector KeyA 32 × StateA) (i j : Fin 32) :
    (schedStepA fe acc i).1.get j =
      if j.val = i.val then keyXorA (acc.1.get j) (schedStepA fe acc i).2 else acc.1.get j := by
  have hget : (schedStepA fe acc i).1.get j =
      (acc.1.set i.val (keyXorA (acc.1.get i) (schedStepA fe acc i).2) i.isLt)[j.val] := rfl
  rw [hget, Vector.getElem_set]
  rcases eq_or_ne i j with rfl | hij
  · rw [if_pos rfl, if_pos rfl]
  · rw [if_neg (Fin.val_ne_of_ne hij), if_neg (Fin.val_ne_of_ne hij.symm)]
    rfl

/-- The schedule and the running state before step `k` of cipher A's 64 steps (R210). -/
def schedTraceA (fe : FeTables) (key : Bytes) : Nat → Vector KeyA 32 × StateA
  | 0 => (Vector.replicate 32 ⟨0, 0, 0⟩, loadA (slice key 0 8))
  | k + 1 =>
    schedStepA fe
      ((schedTraceA fe key k).1,
        if k % 32 = 0 then loadA (slice key (8 * (k / 32)) 8) else (schedTraceA fe key k).2)
      ⟨k % 32, Nat.mod_lt k (by decide)⟩

/-- What step `k` starts from: the key half is loaded at its first step. -/
def schedInputA (fe : FeTables) (key : Bytes) (k : Nat) : Vector KeyA 32 × StateA :=
  ((schedTraceA fe key k).1,
    if k % 32 = 0 then loadA (slice key (8 * (k / 32)) 8) else (schedTraceA fe key k).2)

theorem schedTraceA_succ (fe : FeTables) (key : Bytes) (k : Nat) :
    schedTraceA fe key (k + 1) =
      schedStepA fe (schedInputA fe key k) ⟨k % 32, Nat.mod_lt k (by decide)⟩ := rfl

/-- The first `j` steps for half `h` of the key. -/
theorem foldl_schedStepA_take (fe : FeTables) (key : Bytes) (h : Nat) {j : Nat} (hj : j < 32) :
    ((List.finRange 32).take j).foldl (schedStepA fe) (schedInputA fe key (32 * h)) =
      schedInputA fe key (32 * h + j) := by
  induction j with
  | zero => rfl
  | succ j ih =>
    have hstep : schedInputA fe key (32 * h + (j + 1)) = schedTraceA fe key (32 * h + j + 1) := by
      rw [schedInputA, if_neg (by omega), ← Nat.add_assoc]
    have hindex : (⟨(32 * h + j) % 32, Nat.mod_lt _ (by decide)⟩ : Fin 32) = ⟨j, by omega⟩ :=
      Fin.ext (by simp only; omega)
    rw [List.take_succ_eq_append_getElem (by simp; omega), List.foldl_append, ih (by omega), hstep,
      schedTraceA_succ, hindex, List.foldl_cons, List.foldl_nil, List.getElem_finRange]
    rfl

/-- The 32 steps for half `h` of the key. -/
theorem schedHalfA_eq (fe : FeTables) (key : Bytes) (h : Nat) :
    schedHalfA fe (schedTraceA fe key (32 * h)).1 (slice key (8 * h) 8) =
      (schedTraceA fe key (32 * (h + 1))).1 := by
  have hstart : schedInputA fe key (32 * h) =
      ((schedTraceA fe key (32 * h)).1, loadA (slice key (8 * h) 8)) := by
    rw [schedInputA, if_pos (by omega), show 32 * h / 32 = h by omega]
  have hlast : List.finRange 32 = (List.finRange 32).take 31 ++ [31] := by decide
  have hindex : (⟨(32 * h + 31) % 32, Nat.mod_lt _ (by decide)⟩ : Fin 32) = 31 :=
    Fin.ext (by simp only; omega)
  rw [schedHalfA, ← hstart, hlast, List.foldl_append, foldl_schedStepA_take fe key h (by decide),
    show 32 * (h + 1) = 32 * h + 31 + 1 by omega, schedTraceA_succ, hindex]
  rfl

theorem keySchedA_eq (fe : FeTables) (key : Bytes) : keySchedA fe key = (schedTraceA fe key 64).1 := by
  have h0 := schedHalfA_eq fe key 0
  have h1 := schedHalfA_eq fe key 1
  rw [← h0] at h1
  exact h1

/-- Cipher A's schedule, step by step (R210). -/
theorem keySchedA_steps (fe : FeTables) (key : Bytes) :
    ∃ (sched : Nat → Vector KeyA 32) (x : Nat → StateA),
      (∀ j : Fin 32, (sched 0).get j = ⟨0, 0, 0⟩) ∧
      (∀ k < 64,
        let before := if k % 32 = 0 then loadA (slice key (8 * (k / 32)) 8) else x k
        x (k + 1) = loadA (encA fe (sched k) (storeA before)) ∧
        ∀ j : Fin 32, (sched (k + 1)).get j =
          if j.val = k % 32 then
            ⟨((sched k).get j).k0 ^^^ (x (k + 1)).w0, ((sched k).get j).k1 ^^^ (x (k + 1)).w1,
              ((sched k).get j).k2 ^^^ (x (k + 1)).w2⟩
          else (sched k).get j) ∧
      keySchedA fe key = sched 64 := by
  refine ⟨fun k => (schedTraceA fe key k).1, fun k => (schedTraceA fe key k).2, fun j => ?_,
    fun k _ => ⟨rfl, fun j => ?_⟩, keySchedA_eq fe key⟩
  · exact Vector.getElem_replicate j.isLt
  · exact schedStepA_get fe (schedInputA fe key k) ⟨k % 32, Nat.mod_lt k (by decide)⟩ j

/-! ## Cipher B's schedule -/

/-- The words of cipher B's prekey after `n` steps, newest first (R237). -/
def prekeyWordsB (key : Bytes) (n : Nat) : List Word32 :=
  (List.range n).foldl (fun ws i => nextPrekeyB ws i :: ws) (initialWordsB key)

theorem prekeyWordsB_succ (key : Bytes) (n : Nat) :
    prekeyWordsB key (n + 1) = nextPrekeyB (prekeyWordsB key n) n :: prekeyWordsB key n := by
  rw [prekeyWordsB, List.range_succ, List.foldl_append]
  rfl

theorem prekeyWordsB_getD_add (key : Bytes) (n m d : Nat) :
    (prekeyWordsB key (n + d)).getD (m + d) 0 = (prekeyWordsB key n).getD m 0 := by
  induction d with
  | zero => rfl
  | succ d ih => rw [← Nat.add_assoc, ← Nat.add_assoc, prekeyWordsB_succ, List.getD_cons_succ, ih]

/-- Word `i` of the prekey, counted from the first of the eight initial words: after `i` steps it is the
oldest of the newest eight. -/
def prekeyB (key : Bytes) (i : Nat) : Word32 := (prekeyWordsB key i).getD 7 0

theorem prekeyB_add (key : Bytes) (i : Nat) {d : Nat} (hd : d ≤ 7) :
    prekeyB key (i + d) = (prekeyWordsB key i).getD (7 - d) 0 := by
  rw [prekeyB, ← prekeyWordsB_getD_add key i (7 - d) d, Nat.sub_add_cancel hd]

theorem prekeyB_initial (key : Bytes) {j : Nat} (hj : j < 8) :
    prekeyB key j = word32LE (slice (extendKeyB key) (4 * j) 4) := by
  have h := prekeyB_add key 0 (Nat.le_of_lt_succ hj)
  rw [Nat.zero_add] at h
  rw [h]
  interval_cases j <;> rfl

theorem prekeyB_next (key : Bytes) (i : Nat) :
    prekeyB key (i + 8) =
      (prekeyB key i ^^^ prekeyB key (i + 3) ^^^ prekeyB key (i + 5) ^^^ prekeyB key (i + 7) ^^^
        0x9E3779B9 ^^^ BitVec.ofNat 32 i).rotateLeft 11 := by
  have hnew : prekeyB key (i + 1 + 7) = nextPrekeyB (prekeyWordsB key i) i := by
    rw [prekeyB_add key (i + 1) (le_refl 7), prekeyWordsB_succ]
    rfl
  rw [show i + 8 = i + 1 + 7 by omega, hnew, prekeyB_add key i (d := 3) (by decide),
    prekeyB_add key i (d := 5) (by decide), prekeyB_add key i (d := 7) (by decide)]
  rfl

theorem prekeyWordsB_length (key : Bytes) (n : Nat) : (prekeyWordsB key n).length = n + 8 := by
  induction n with
  | zero => rfl
  | succ n ih => rw [prekeyWordsB_succ, List.length_cons, ih, Nat.add_right_comm]

theorem prekeysB_getD (key : Bytes) {m : Nat} (hm : m < 132) :
    (prekeysB key).getD m 0 = prekeyB key (m + 8) := by
  have hlen := prekeyWordsB_length key 132
  have hwords : prekeysB key = ((prekeyWordsB key 132).take 132).reverse := rfl
  have htake : ((prekeyWordsB key 132).take 132).length = 132 := by rw [List.length_take, hlen]; rfl
  have hold : (prekeysB key).getD m 0 = (prekeyWordsB key 132).getD (131 - m) 0 := by
    rw [hwords, List.getD_eq_getElem _ _ (by simp [htake, hm]), List.getElem_reverse, List.getElem_take,
      List.getD_eq_getElem _ _ (by omega)]
    simp only [htake]
  rw [hold, prekeyB]
  rcases Nat.le_total (m + 8) 132 with h | h
  · rw [← prekeyWordsB_getD_add key (m + 8) 7 (132 - (m + 8)), Nat.add_sub_cancel' h,
      show 7 + (132 - (m + 8)) = 131 - m by omega]
  · rw [← prekeyWordsB_getD_add key 132 (131 - m) (m + 8 - 132), Nat.add_sub_cancel' h,
      show 131 - m + (m + 8 - 132) = 7 by omega]

theorem keySchedB_get (key : Bytes) (i : Fin 33) :
    (keySchedB key).get i = applyBox (sboxB ((35 - i.val) % 8))
      ⟨prekeyB key (4 * i.val + 8), prekeyB key (4 * i.val + 9), prekeyB key (4 * i.val + 10),
        prekeyB key (4 * i.val + 11)⟩ := by
  have hget : (keySchedB key).get i = subkeyB (prekeysB key) i.val := Vector.getElem_ofFn i.isLt
  rw [hget, subkeyB, prekeysB_getD key (by omega), prekeysB_getD key (by omega),
    prekeysB_getD key (by omega), prekeysB_getD key (by omega)]

/-- A 32-byte key is its own extension (R236), so a key and its extension have one schedule (R242). -/
theorem extendKeyB_extendKeyB (key : Bytes) : extendKeyB (extendKeyB key) = extendKeyB key := by
  have hlen : ¬(extendKeyB key).length < 32 := by
    unfold extendKeyB
    split
    · simp only [List.length_append, List.length_replicate, List.length_singleton]
      omega
    · assumption
  rw [extendKeyB, if_neg hlen]

theorem keySchedB_extendKeyB (key : Bytes) : keySchedB (extendKeyB key) = keySchedB key := by
  simp only [keySchedB, prekeysB, initialWordsB, extendKeyB_extendKeyB]

/-! ## The command -/

theorem mem_keyLengths (c : Cipher) (n : Nat) :
    n ∈ keyLengths c ↔ (c = .a ∧ n = 16) ∨ (c = .b ∧ (n = 16 ∨ n = 24 ∨ n = 32)) := by
  cases c <;> simp [keyLengths]

theorem all_zero_iff (b : Bytes) : b.all (· == 0) = true ↔ ∀ x ∈ b, x = 0 := by
  simp only [List.all_eq_true, beq_iff_eq]

/-- Settles O31: `computeKeyset`'s checks in order, and the two schedules. -/
theorem keysetCommand : Obligations.KeysetCommand := by
  refine ⟨fun s w c hrun => ?_, fun fe key _ => keySchedA_steps fe key, fun key _ => ?_⟩
  · intro n allowed key
    have hallowed : n ∈ keyLengths c ↔ allowed := mem_keyLengths c n
    refine ⟨fun hbad => ?_, fun hok hzero => ?_, fun hok hnz => ?_⟩
    · have hf : computeKeyset c s = (.error .invalidKeySize, { s with inst := none }) :=
        if_pos (mt hallowed.mp hbad)
      exact ⟨_, rfl, oneShot_fails hrun hf⟩
    · have hf : computeKeyset c s = (.error .weakKey, { s with inst := none }) :=
        (if_neg (not_not.mpr (hallowed.mpr hok))).trans (if_pos ((all_zero_iff key).mpr hzero))
      exact ⟨_, rfl, oneShot_fails hrun hf⟩
    · have hweak : ¬key.all (· == 0) = true := by
        obtain ⟨x, hx, hne⟩ := hnz
        exact fun hall => hne ((all_zero_iff key).mp hall x hx)
      have hf : computeKeyset c s = (.ok (.keyed (keySchedule s.params.fe c key)), s) :=
        (if_neg (not_not.mpr (hallowed.mpr hok))).trans (if_neg hweak)
      refine ⟨_, _, rfl, exec_completes hrun (fun _ => rfl) hf rfl,
        bufferAfter_succeed_nil (t := s) (r := .keyed _) rfl rfl, ?_⟩
      cases c <;> rfl
  · refine ⟨⟨prekeyB key, fun j hj => prekeyB_initial key hj, fun i _ => prekeyB_next key i,
      keySchedB_get key⟩, ?_⟩
    exact keySchedB_extendKeyB key

end Sys2Proof.Machine
end

section
/-! The arithmetic of the Diffie-Hellman engine (spec/45_dh.md sections 1 to 3). -/

namespace Sys2Proof.Machine

/-! ## Modular exponentiation (R260) -/

/-- The loop multiplies the accumulator by the power. -/
theorem modExpLoop_eq {m fuel b e acc : Nat} (hacc : acc < m) (he : e < 2 ^ fuel) :
    modExpLoop m fuel b e acc = acc * b ^ e % m := by
  induction fuel generalizing b e acc with
  | zero =>
    obtain rfl : e = 0 := by simpa using he
    rw [modExpLoop, pow_zero, mul_one, Nat.mod_eq_of_lt hacc]
  | succ k ih =>
    have hm : 0 < m := Nat.zero_lt_of_lt hacc
    have hhalf : e / 2 < 2 ^ k := by omega
    have hsquare : (b * b % m) ^ (e / 2) ≡ b ^ (2 * (e / 2)) [MOD m] := by
      rw [pow_mul, pow_two]
      exact (Nat.mod_modEq _ _).pow _
    rw [modExpLoop]
    split
    · next hodd =>
      rw [ih (Nat.mod_lt _ hm) hhalf]
      have hexp : acc * b ^ e = acc * b * b ^ (2 * (e / 2)) := by
        rw [mul_assoc, ← pow_succ', show 2 * (e / 2) + 1 = e by omega]
      rw [hexp]
      exact (Nat.mod_modEq _ _).mul hsquare
    · next heven =>
      rw [ih hacc hhalf]
      have hexp : 2 * (e / 2) = e := by omega
      rw [hexp] at hsquare
      exact hsquare.mul_left acc

/-- Settles O44: the loop's invariant from `acc = 1 mod m`. -/
theorem modExpIsPowerModulo : Obligations.ModExpIsPowerModulo := by
  intro b e m hm
  rw [modExp, modExpLoop_eq (Nat.mod_lt _ hm) ((bitLen_le_iff e _).mp le_rfl)]
  exact ((Nat.mod_modEq 1 m).mul ((Nat.mod_modEq b m).pow e)).trans (by rw [one_mul])

/-! ## The tester (R261) -/

/-- What an undecided trial division says. -/
theorem trialDivide_none {n : Nat} {ps : List Nat} (h : trialDivide n ps = none) :
    ∀ p ∈ ps, ¬p ∣ n := by
  induction ps with
  | nil => simp
  | cons p rest ih =>
    rw [trialDivide] at h
    split_ifs at h with heq hmod
    exact List.forall_mem_cons.mpr ⟨mt Nat.mod_eq_zero_of_dvd hmod, ih h⟩

/-- What a decided trial division says. -/
theorem trialDivide_some {n : Nat} {ps : List Nat} {answer : Bool}
    (h : trialDivide n ps = some answer) : ∃ p ∈ ps, p ∣ n ∧ (answer = true ↔ n = p) := by
  induction ps with
  | nil => cases h
  | cons p rest ih =>
    rw [trialDivide] at h
    split_ifs at h with heq hmod
    · obtain rfl := Option.some.inj h
      exact ⟨p, List.mem_cons_self, dvd_of_eq heq.symm, by simp [heq]⟩
    · obtain rfl := Option.some.inj h
      exact ⟨p, List.mem_cons_self, Nat.dvd_of_mod_eq_zero hmod, by simp [heq]⟩
    · obtain ⟨q, hq, hdvd⟩ := ih h
      exact ⟨q, List.mem_cons_of_mem p hq, hdvd⟩

theorem splitTwos_eq (fuel n : Nat) : 2 ^ (splitTwos fuel n).1 * (splitTwos fuel n).2 = n := by
  induction fuel generalizing n with
  | zero => simp [splitTwos]
  | succ k ih =>
    rw [splitTwos]
    split
    · next heven => rw [pow_succ', mul_assoc, ih]; omega
    · simp

section Base
variable {n : Nat} (hn : 2 ≤ n)
include hn

theorem mod_eq_one_iff (x : Nat) : x % n = 1 ↔ (x : ZMod n) = 1 := by
  have hone : (1 : ZMod n) = ((1 : Nat) : ZMod n) := Nat.cast_one.symm
  rw [hone, ZMod.natCast_eq_natCast_iff', Nat.mod_eq_of_lt (a := 1) (by omega)]

theorem mod_eq_pred_iff (x : Nat) : x % n = n - 1 ↔ (x : ZMod n) = -1 := by
  have hneg : (-1 : ZMod n) = ((n - 1 : Nat) : ZMod n) := by
    rw [Nat.cast_sub (by omega), ZMod.natCast_self, Nat.cast_one, zero_sub]
  rw [hneg, ZMod.natCast_eq_natCast_iff', Nat.mod_eq_of_lt (a := n - 1) (by omega)]

/-- The squares are squares modulo `n`. -/
theorem squaresReach_of_pow {k x j : Nat} (hj : j < k) (h : (x : ZMod n) ^ 2 ^ (j + 1) = -1) :
    squaresReach n k x = true := by
  induction k generalizing x j with
  | zero => omega
  | succ k ih =>
    rw [squaresReach, Bool.or_eq_true, decide_eq_true_eq]
    cases j with
    | zero =>
      left
      rw [mod_eq_pred_iff hn, Nat.cast_mul, ← pow_two]
      simpa using h
    | succ j =>
      right
      refine ih (Nat.lt_of_succ_lt_succ hj) ?_
      rw [ZMod.natCast_mod, Nat.cast_mul, ← pow_two, ← pow_mul, ← pow_succ']
      exact h

end Base

/-- In a field the first repeated square equal to 1 comes after a -1. -/
theorem eq_one_or_square_eq_neg_one {F : Type} [Field F] {x : F} {k : Nat} (h : x ^ 2 ^ k = 1) :
    x = 1 ∨ ∃ j < k, x ^ 2 ^ j = -1 := by
  induction k with
  | zero => exact .inl (by simpa using h)
  | succ k ih =>
    rw [pow_succ, pow_mul, pow_two] at h
    rcases mul_self_eq_one_iff.mp h with hone | hneg
    · exact (ih hone).imp_right fun ⟨j, hj, hx⟩ => ⟨j, hj.trans (Nat.lt_succ_self k), hx⟩
    · exact .inr ⟨k, Nat.lt_succ_self k, hneg⟩

/-- No base prime to a prime is a witness against it. -/
theorem basePasses_of_prime {n s d a : Nat} (hp : n.Prime) (hsd : 2 ^ s * d = n - 1)
    (ha : ¬n ∣ a) : basePasses n s d a = true := by
  have hn := hp.two_le
  have : Fact n.Prime := ⟨hp⟩
  have hne : (a : ZMod n) ≠ 0 := mt (ZMod.natCast_eq_zero_iff a n).mp ha
  have hfermat : ((a : ZMod n) ^ d) ^ 2 ^ s = 1 := by
    rw [← pow_mul, mul_comm, hsd, ZMod.pow_card_sub_one_eq_one hne]
  have hx : modExp a d n = a ^ d % n := modExpIsPowerModulo a d n hp.one_le
  have hcast : ((a ^ d % n : Nat) : ZMod n) = (a : ZMod n) ^ d := by
    rw [ZMod.natCast_mod, Nat.cast_pow]
  rw [basePasses, hx, Bool.or_eq_true, Bool.or_eq_true, decide_eq_true_eq, decide_eq_true_eq,
    mod_eq_one_iff hn, mod_eq_pred_iff hn, Nat.cast_pow]
  rcases eq_one_or_square_eq_neg_one hfermat with hone | ⟨j, hj, hneg⟩
  · exact .inl (.inl hone)
  · cases j with
    | zero => exact .inl (.inr (by simpa using hneg))
    | succ j => exact .inr (squaresReach_of_pow hn (j := j) (by omega) (hcast.symm ▸ hneg))

theorem millerRabin_of_prime {n s d : Nat} (hp : n.Prime) (hn : 4 ≤ n) (hsd : 2 ^ s * d = n - 1)
    (rounds : Nat) (e : Entropy) : (millerRabin n s d rounds e).1 = true := by
  induction rounds generalizing e with
  | zero => rfl
  | succ k ih =>
    obtain ⟨hlo, hhi⟩ := Entropy.draw_mem (show 2 ≤ n - 2 by omega) e
    have hbase : ¬n ∣ (e.draw 2 (n - 2)).1 := fun hdvd => by
      have := Nat.le_of_dvd (by omega) hdvd
      omega
    rw [millerRabin, if_pos (basePasses_of_prime hp hsd hbase)]
    exact ih _

/-- Settles O45: trial division accepts it or says nothing, and no base is a witness. -/
theorem everyPrimePassesTheTester : Obligations.EveryPrimePassesTheTester := by
  rintro ps n rounds e ⟨-, hprimes, htwo, hthree⟩ hp
  rw [isProbablyPrime, if_neg (not_lt.mpr hp.two_le)]
  cases htd : trialDivide n ps with
  | some answer =>
    obtain ⟨q, hq, hdvd, hanswer⟩ := trialDivide_some htd
    exact hanswer.mpr ((Nat.prime_dvd_prime_iff_eq (hprimes q hq) hp).mp hdvd).symm
  | none =>
    have h2 := trialDivide_none htd 2 htwo
    have h3 := trialDivide_none htd 3 hthree
    have hn := hp.two_le
    exact millerRabin_of_prime hp (by omega) (splitTwos_eq _ _) rounds e

/-- Below 100 a number is a small prime or has a small prime factor of its own. -/
theorem mem_smallPrimes_or_factor : ∀ q < 100, 2 ≤ q →
    q ∈ Config.smallPrimes ∨ ∃ p ∈ [2, 3, 5, 7], p < q ∧ p ∣ q := by
  decide

theorem mem_smallPrimes_iff (q : Nat) : q ∈ Config.smallPrimes ↔ q.Prime ∧ q < 100 := by
  constructor
  · intro hq
    have hlt : ∀ q ∈ Config.smallPrimes, q < 100 := by decide
    exact ⟨Config.smallPrimes_legal.2.1 q hq, hlt q hq⟩
  · rintro ⟨hp, hlt⟩
    rcases mem_smallPrimes_or_factor q hlt hp.two_le with hmem | ⟨p, hp4, hpq, hdvd⟩
    · exact hmem
    · have hne : p ≠ 1 := by rintro rfl; revert hp4; decide
      exact absurd ((hp.eq_one_or_self_of_dvd p hdvd).resolve_left hne) hpq.ne

/-- A number below `97²` without a factor below 100 is prime. -/
theorem prime_of_no_small_factor {n : Nat} (hn : 2 ≤ n) (hlt : n < 9409)
    (h : ∀ p ∈ Config.smallPrimes, ¬p ∣ n) : n.Prime := by
  by_contra hcomp
  have hsq := Nat.minFac_sq_le_self (by omega) hcomp
  have hmin : n.minFac < 97 := by
    by_contra hge
    have := Nat.pow_le_pow_left (not_lt.mp hge) 2
    omega
  exact h n.minFac ((mem_smallPrimes_iff _).mpr ⟨Nat.minFac_prime (by omega), by omega⟩)
    (Nat.minFac_dvd n)

/-- Settles O46: an answer from trial division is exact, and a number that trial division leaves is
prime. -/
theorem testerIsExactBelow9409 : Obligations.TesterIsExactBelow9409 := by
  refine ⟨mem_smallPrimes_iff, fun n rounds e hlt => ⟨fun h => ?_, fun hp =>
    everyPrimePassesTheTester _ _ _ _ Config.smallPrimes_legal hp⟩⟩
  rw [isProbablyPrime] at h
  split at h
  · cases h
  · next hn =>
    split at h
    · next answer htd =>
      obtain ⟨q, hq, -, hanswer⟩ := trialDivide_some htd
      rw [hanswer.mp h]
      exact ((mem_smallPrimes_iff q).mp hq).1
    · next htd => exact prime_of_no_small_factor (not_lt.mp hn) hlt (trialDivide_none htd)

/-! ## Prime factors (R265) -/

/-- A factor is divided out completely and nothing else is. -/
theorem stripFactor_eq {d : Nat} (hd : 2 ≤ d) {fuel n : Nat} (hn : 0 < n) (hfuel : n < 2 ^ fuel) :
    (∃ k, n = d ^ k * stripFactor d fuel n) ∧ ¬d ∣ stripFactor d fuel n := by
  induction fuel generalizing n with
  | zero => exact absurd hfuel (Nat.not_lt.mpr hn)
  | succ fuel ih =>
    rw [stripFactor]
    split
    · next hmod =>
      obtain ⟨q, rfl⟩ := Nat.dvd_of_mod_eq_zero hmod
      have hq : 0 < q := Nat.pos_of_mul_pos_left hn
      rw [Nat.mul_div_cancel_left q (by omega)]
      have hlt : q < 2 ^ fuel := by
        have := Nat.mul_le_mul_right q hd
        omega
      obtain ⟨⟨k, hk⟩, hndvd⟩ := ih hq hlt
      exact ⟨⟨k + 1, by rw [pow_succ', mul_assoc, ← hk]⟩, hndvd⟩
    · next hmod => exact ⟨⟨0, by simp⟩, mt Nat.mod_eq_zero_of_dvd hmod⟩

/-- `n` has no prime factor below `d`. -/
def noFactorBelow (d n : Nat) : Prop := ∀ p, p.Prime → p ∣ n → d ≤ p

theorem noFactorBelow.succ {d n : Nat} (h : noFactorBelow d n) (hd : ¬d ∣ n) : noFactorBelow (d + 1) n := by
  intro p hp hdvd
  have hne : p ≠ d := fun heq => hd (heq ▸ hdvd)
  have := h p hp hdvd
  omega

theorem noFactorBelow.prime {d n : Nat} (h : noFactorBelow d n) (hn : 1 < n) (hlt : n < d * d) :
    n.Prime := by
  by_contra hcomp
  have hsq := Nat.minFac_sq_le_self (by omega) hcomp
  have hmin := h _ (Nat.minFac_prime (by omega)) (Nat.minFac_dvd n)
  rw [pow_two] at hsq
  have := Nat.mul_le_mul hmin hmin
  omega

theorem noFactorBelow.prime_of_dvd {d n : Nat} (h : noFactorBelow d n) (hd : 2 ≤ d) (hdvd : d ∣ n) :
    d.Prime := by
  have hle := h _ (Nat.minFac_prime (by omega)) ((Nat.minFac_dvd d).trans hdvd)
  have heq : d.minFac = d := le_antisymm (Nat.minFac_le (by omega)) hle
  exact heq ▸ Nat.minFac_prime (by omega)

/-- A list of exactly the prime factors of a number, ascending. -/
def listsPrimeFactors (fs : List Nat) (n : Nat) : Prop :=
  fs.Pairwise (· < ·) ∧ ∀ p, p ∈ fs ↔ p.Prime ∧ p ∣ n

theorem listsPrimeFactors_small {d n : Nat} (h : noFactorBelow d n) (hn : 0 < n) (hlt : n < d * d) :
    listsPrimeFactors (if 1 < n then [n] else []) n := by
  split
  · next hone =>
    have hp := h.prime hone hlt
    refine ⟨List.pairwise_singleton _ _, fun p => ?_⟩
    rw [List.mem_singleton]
    exact ⟨fun heq => ⟨heq ▸ hp, dvd_of_eq heq⟩,
      fun ⟨hp', hdvd⟩ => (Nat.prime_dvd_prime_iff_eq hp' hp).mp hdvd⟩
  · obtain rfl : n = 1 := by omega
    refine ⟨List.Pairwise.nil, fun p => ?_⟩
    simp only [List.not_mem_nil, Nat.dvd_one, false_iff, not_and]
    exact fun hp => hp.ne_one

/-- The next factor before those of the rest. -/
theorem listsPrimeFactors_cons {d k m : Nat} {fs : List Nat} (hd : d.Prime) (hk : d ∣ d ^ k * m)
    (hfs : listsPrimeFactors fs m) (hm : noFactorBelow (d + 1) m) :
    listsPrimeFactors (d :: fs) (d ^ k * m) := by
  obtain ⟨hsorted, hmem⟩ := hfs
  refine ⟨List.pairwise_cons.mpr ⟨fun p hp => ?_, hsorted⟩, fun p => ?_⟩
  · obtain ⟨hprime, hdvd⟩ := (hmem p).mp hp
    exact hm p hprime hdvd
  · rw [List.mem_cons, hmem]
    constructor
    · rintro (rfl | ⟨hp, hdvd⟩)
      · exact ⟨hd, hk⟩
      · exact ⟨hp, hdvd.mul_left _⟩
    · rintro ⟨hp, hdvd⟩
      rcases (Nat.Prime.dvd_mul hp).mp hdvd with hpow | hrest
      · exact .inl ((Nat.prime_dvd_prime_iff_eq hp hd).mp (hp.dvd_of_dvd_pow hpow))
      · exact .inr ⟨hp, hrest⟩

theorem factorLoop_lists {fuel d n : Nat} (hd : 2 ≤ d) (hn : 0 < n) (h : noFactorBelow d n)
    (hfuel : n < (d + fuel) * (d + fuel)) : listsPrimeFactors (factorLoop fuel d n) n := by
  induction fuel generalizing d n with
  | zero => exact listsPrimeFactors_small h hn hfuel
  | succ fuel ih =>
    rw [← Nat.add_assoc, Nat.add_right_comm] at hfuel
    rw [factorLoop]
    split
    · next hle =>
      split
      · next hmod =>
        have hdvd := Nat.dvd_of_mod_eq_zero hmod
        obtain ⟨⟨k, hk⟩, hndvd⟩ := stripFactor_eq hd hn ((bitLen_le_iff n _).mp le_rfl)
        generalize stripFactor d (bitLen n) n = m at hk hndvd
        subst hk
        have hm : 0 < m := Nat.pos_of_mul_pos_left hn
        have hrest : noFactorBelow d m := fun p hp hpm => h p hp (hpm.mul_left _)
        have hle : m ≤ d ^ k * m := Nat.le_of_dvd hn (Nat.dvd_mul_left m _)
        exact listsPrimeFactors_cons (h.prime_of_dvd hd hdvd) hdvd
          (ih (by omega) hm (hrest.succ hndvd) (hle.trans_lt hfuel)) (hrest.succ hndvd)
      · next hmod =>
        exact ih (by omega) hn (h.succ (mt Nat.mod_eq_zero_of_dvd hmod)) hfuel
    · next hlt => exact listsPrimeFactors_small h hn (not_le.mp hlt)

theorem primeFactors_lists {n : Nat} (hn : 2 ≤ n) : listsPrimeFactors (primeFactors n) n := by
  rw [primeFactors, if_neg (not_lt.mpr hn)]
  refine factorLoop_lists le_rfl (by omega) (fun p hp _ => hp.two_le) ?_
  nlinarith

/-- Settles O47: the trial-division loop by induction on the divisors tried. -/
theorem primeFactorsAreTheDistinctPrimeFactors : Obligations.PrimeFactorsAreTheDistinctPrimeFactors :=
  ⟨fun _ hn => if_pos hn, fun _ hn => primeFactors_lists hn⟩

/-! ## Primitive roots (R266) -/

/-- `g` is a root of the search of R266. -/
def isSearchRoot (p g : Nat) : Prop :=
  2 ≤ g ∧ g < p ∧ ∀ f, f.Prime → f ∣ p - 1 → g ^ ((p - 1) / f) % p ≠ 1

theorem isRoot_primeFactors_iff {p : Nat} (hp : 3 ≤ p) (g : Nat) :
    isRoot p (primeFactors (p - 1)) g = true ↔
      ∀ f, f.Prime → f ∣ p - 1 → g ^ ((p - 1) / f) % p ≠ 1 := by
  obtain ⟨-, hmem⟩ := primeFactors_lists (n := p - 1) (by omega)
  have hpow (f : Nat) : modExp g ((p - 1) / f) p = g ^ ((p - 1) / f) % p :=
    modExpIsPowerModulo _ _ _ (by omega)
  simp only [isRoot, List.all_eq_true, decide_eq_true_eq, hmem, hpow, and_imp]

/-- The search finds the first candidate that passes. -/
theorem rootSearch_eq_some {p : Nat} {fs : List Nat} {k g h : Nat} (hgh : g ≤ h) (hhk : h < g + k)
    (hroot : isRoot p fs h = true) :
    ∃ r, rootSearch p fs k g = some r ∧ g ≤ r ∧ r < g + k ∧ isRoot p fs r = true ∧
      ∀ x, g ≤ x → x < r → isRoot p fs x = false := by
  induction k generalizing g with
  | zero => omega
  | succ k ih =>
    cases hg : isRoot p fs g with
    | true =>
      exact ⟨g, by rw [rootSearch, if_pos hg], le_rfl, by omega, hg, fun x _ _ => by omega⟩
    | false =>
      have hne : g ≠ h := fun heq => by rw [heq, hroot] at hg; cases hg
      obtain ⟨r, hr, hgr, hrk, hpass, hleast⟩ := ih (g := g + 1) (by omega) (by omega)
      refine ⟨r, by rw [rootSearch, if_neg (by simp [hg]), hr], by omega, by omega, hpass,
        fun x hgx hxr => ?_⟩
      rcases Nat.eq_or_lt_of_le hgx with rfl | hlt
      · exact hg
      · exact hleast x hlt hxr

/-- Modulo a prime, the roots of the search are the elements of full order. -/
theorem isSearchRoot_iff_orderOf {p g : Nat} (hp : p.Prime) (h2 : 2 ≤ g) (hlt : g < p) :
    isSearchRoot p g ↔ orderOf (g : ZMod p) = p - 1 := by
  have : Fact p.Prime := ⟨hp⟩
  have hne : (g : ZMod p) ≠ 0 :=
    mt (ZMod.natCast_eq_zero_iff g p).mp (Nat.not_dvd_of_pos_of_lt (by omega) hlt)
  have hpow (f : Nat) : g ^ ((p - 1) / f) % p = 1 ↔ (g : ZMod p) ^ ((p - 1) / f) = 1 := by
    rw [mod_eq_one_iff hp.two_le, Nat.cast_pow]
  constructor
  · rintro ⟨-, -, hroot⟩
    exact orderOf_eq_of_pow_and_pow_div_prime (by omega) (ZMod.pow_card_sub_one_eq_one hne)
      fun f hf hdvd => mt (hpow f).mpr (hroot f hf hdvd)
  · intro horder
    refine ⟨h2, hlt, fun f hf hdvd hone => ?_⟩
    have hquot : 0 < (p - 1) / f := Nat.div_pos (Nat.le_of_dvd (by omega) hdvd) hf.pos
    have hsmall : (p - 1) / f < p - 1 := Nat.div_lt_self (by omega) hf.one_lt
    have := orderOf_le_of_pow_eq_one hquot ((hpow f).mp hone)
    omega

/-- A prime has an element of full order. -/
theorem exists_searchRoot_of_prime {p : Nat} (hp : p.Prime) (h3 : 3 ≤ p) : ∃ g, isSearchRoot p g := by
  have : Fact p.Prime := ⟨hp⟩
  obtain ⟨u, hu⟩ := IsCyclic.exists_ofOrder_eq_natCard (α := (ZMod p)ˣ)
  rw [Nat.card_eq_fintype_card, ZMod.card_units, ← orderOf_units] at hu
  have hval : (((u : ZMod p).val : Nat) : ZMod p) = u := ZMod.natCast_zmod_val _
  have h2 : 2 ≤ (u : ZMod p).val := by
    by_contra hlt
    interval_cases hv : (u : ZMod p).val
    · exact u.ne_zero ((ZMod.val_eq_zero _).mp hv)
    · rw [← hval, Nat.cast_one, orderOf_one] at hu
      omega
  exact ⟨_, (isSearchRoot_iff_orderOf hp h2 (ZMod.val_lt _)).mpr (by rw [hval, hu])⟩

/-- The least prime factor of a composite passes: no power of it is 1 modulo the number. -/
theorem exists_searchRoot_of_composite {p : Nat} (hp : ¬p.Prime) (h3 : 3 ≤ p) :
    ∃ g, isSearchRoot p g := by
  have hmin := Nat.minFac_prime (n := p) (by omega)
  refine ⟨p.minFac, hmin.two_le, lt_of_le_of_ne (Nat.minFac_le (by omega)) fun heq => ?_,
    fun f hf hdvd hone => ?_⟩
  · exact hp (heq ▸ hmin)
  · have hquot : (p - 1) / f ≠ 0 := (Nat.div_pos (Nat.le_of_dvd (by omega) hdvd) hf.pos).ne'
    have hfactor : p.minFac ∣ p.minFac ^ ((p - 1) / f) % p :=
      (Nat.dvd_mod_iff (Nat.minFac_dvd p)).mpr (dvd_pow_self _ hquot)
    rw [hone, Nat.dvd_one] at hfactor
    exact hmin.ne_one hfactor

theorem exists_searchRoot {p : Nat} (h3 : 3 ≤ p) : ∃ g, isSearchRoot p g := by
  by_cases hp : p.Prime
  · exact exists_searchRoot_of_prime hp h3
  · exact exists_searchRoot_of_composite hp h3

section Search
variable {ps : List Nat} {p rounds : Nat} {e : Entropy}

theorem two_le_of_tester (h : (isProbablyPrime ps p rounds e).1 = true) : 2 ≤ p := by
  by_contra hlt
  rw [isProbablyPrime, if_pos (not_le.mp hlt)] at h
  cases h

theorem findPrimitiveRoot_refused (h : (isProbablyPrime ps p rounds e).1 = false) :
    findPrimitiveRoot ps p rounds e = (.error .invalidArgument, (isProbablyPrime ps p rounds e).2) := by
  simp [findPrimitiveRoot, h]

theorem findPrimitiveRoot_two (h : (isProbablyPrime ps p rounds e).1 = true) (hp : p = 2) :
    findPrimitiveRoot ps p rounds e = (.ok 1, (isProbablyPrime ps p rounds e).2) := by
  simp only [findPrimitiveRoot, h, Bool.not_true, Bool.false_eq_true, if_false, if_pos hp]

/-- An accepted number from 3 on: the least root. -/
theorem findPrimitiveRoot_least (h : (isProbablyPrime ps p rounds e).1 = true) (hp : p ≠ 2) :
    ∃ g, findPrimitiveRoot ps p rounds e = (.ok g, (isProbablyPrime ps p rounds e).2) ∧
      isSearchRoot p g ∧ ∀ x < g, ¬isSearchRoot p x := by
  have h3 : 3 ≤ p := by
    have := two_le_of_tester h
    omega
  have hiff := isRoot_primeFactors_iff h3
  obtain ⟨y, hy2, hyp, hy⟩ := exists_searchRoot h3
  obtain ⟨g, hg, hg2, hgp, hpass, hleast⟩ := rootSearch_eq_some (k := p - 2) hy2 (by omega)
    ((hiff y).mpr hy)
  refine ⟨g, ?_, ⟨hg2, by omega, (hiff g).mp hpass⟩, fun x hxg ⟨hx2, _, hx⟩ => ?_⟩
  · simp only [findPrimitiveRoot, h, Bool.not_true, Bool.false_eq_true, if_false, if_neg hp, hg]
  · have hfail := hleast x hx2 hxg
    rw [(hiff x).mpr hx] at hfail
    cases hfail

end Search

/-- Settles O48: the three outcomes of the search, and for a true prime roots are elements of full
order. -/
theorem primitiveRootSearchFindsTheLeast : Obligations.PrimitiveRootSearchFindsTheLeast := by
  intro ps p rounds e test root
  refine ⟨findPrimitiveRoot_refused, findPrimitiveRoot_two, findPrimitiveRoot_least,
    fun hlegal hp => ?_⟩
  have haccept : test.1 = true := everyPrimePassesTheTester ps p rounds e hlegal hp
  by_cases h2 : p = 2
  · subst h2
    exact ⟨1, findPrimitiveRoot_two haccept rfl, le_rfl, by decide, by simp, fun h _ _ => by omega⟩
  · obtain ⟨g, hg, hroot, hleast⟩ := findPrimitiveRoot_least haccept h2
    obtain ⟨hg2, hgp, -⟩ := id hroot
    refine ⟨g, hg, by omega, hgp, (isSearchRoot_iff_orderOf hp hg2 hgp).mp hroot,
      fun h h1 hhg horder => ?_⟩
    rcases Nat.eq_or_lt_of_le h1 with rfl | hlt
    · rw [Nat.cast_one, orderOf_one] at horder
      omega
    · exact hleast h hhg ((isSearchRoot_iff_orderOf hp hlt (by omega)).mpr horder)

end Sys2Proof.Machine
end

section
/-! The Diffie-Hellman commands (spec/45_dh.md sections 4 and 5) and SHA-256's padding (spec/46_kdf.md
R302). -/

namespace Sys2Proof.Machine

/-! ## Commands whose result is one number -/

/-- The completion of a command that has drawn and gives a number (R324). -/
theorem succeed_number {s : State} {v : Nat} (e : Entropy) (g : Engine) (hv : v < 2 ^ s.params.bnBits) :
    State.succeed (.number v) { s with entropy := e, engine := g } =
      { s with
        bnR := v, entropy := e, engine := .idle, err := none, done := true, outLen := 0
        mem := s.outputMem [] } := by
  have hbn : State.bnValue { s with entropy := e, engine := g } v = v := bnValue_of_lt hv
  rw [State.succeed, State.writeResult_number, hbn]
  rfl

/-- A command that computes a number, its draws counted, to its completion. -/
theorem number_completes {f : State → Computed} {s : State} {w : Word32}
    (hrun : s.engine = .running w .start) {i : Instr} (hi : ∀ s, exec i s = .next (oneShot f s)) {v : Nat}
    {e : Entropy} (hf : f s = (.ok (.number v), { s with entropy := e })) (hv : v < 2 ^ s.params.bnBits) :
    ∃ t u, exec i s = .next t ∧ exec i t = .next u ∧ bufferAfter s u [] ∧
      u = { s with
        bnR := v, entropy := e, engine := .idle, err := none, done := true, outLen := 0
        mem := u.mem } :=
  ⟨_, _, hi s, exec_completes hrun hi hf rfl,
    bufferAfter_succeed_nil (t := { s with entropy := e }) (r := .number v) rfl rfl,
    succeed_number e s.engine hv⟩

/-- Settles O49: the tester's answer is a number. -/
theorem isprimeCommand : Obligations.IsprimeCommand := by
  intro s w hlegal hrun
  refine number_completes hrun (fun _ => rfl) rfl ?_
  have hone : 1 < 2 ^ s.params.bnBits := Nat.one_lt_two_pow (by have := hlegal.1.1; omega)
  split
  · exact hone
  · exact Nat.zero_lt_of_lt hone

/-- Settles O54: the check, then one draw. -/
theorem genprivCommand : Obligations.GenprivCommand := by
  intro s w hrun hbn
  refine ⟨fun hlt => ?_, fun hge => ?_⟩
  · have hf : computeGenpriv s = (.error .invalidArgument, s) := if_pos hlt
    exact ⟨_, rfl, oneShot_fails hrun hf⟩
  · obtain ⟨hlo, hhi⟩ := Entropy.draw_mem (show 2 ≤ s.bnA - 2 by omega) s.entropy
    have hf : computeGenpriv s = (.ok (.number (s.entropy.draw 2 (s.bnA - 2)).1),
        { s with entropy := (s.entropy.draw 2 (s.bnA - 2)).2 }) := if_neg (not_lt.mpr hge)
    obtain ⟨t, u, ht, hu, hbuf, heq⟩ := number_completes (i := .genpriv) hrun (fun _ => rfl) hf (by omega)
    exact ⟨_, t, u, ht, hu, rfl, hlo, hhi, hbuf, heq⟩

/-- Settles O55: the check, then the power. -/
theorem exponentiationCommands : Obligations.ExponentiationCommands := by
  intro s w i hi hrun hbn
  have hexec : ∀ s, exec i s = .next (oneShot computeModExp s) := by
    rcases hi with rfl | rfl | rfl <;> exact fun _ => rfl
  refine ⟨fun hzero => ?_, fun hne => ?_⟩
  · have hf : computeModExp s = (.error .invalidArgument, s) := if_pos hzero
    exact ⟨_, hexec s, oneShot_fails hrun hf⟩
  · have hpos : 1 ≤ s.bnA := Nat.one_le_iff_ne_zero.mpr hne
    have hf : computeModExp s = (.ok (.number (s.bnB ^ s.bnC % s.bnA)), s) := by
      rw [← modExpIsPowerModulo s.bnB s.bnC s.bnA hpos]
      exact if_neg hne
    exact number_completes hrun hexec hf ((Nat.mod_lt _ hpos).trans hbn)

theorem execTimes_two {i : Instr} {s t u : State} (hs : exec i s = .next t) (ht : exec i t = .next u) :
    execTimes i 2 s = .next u := by
  simp only [execTimes, hs, ht]

/-- Two steps of an exponentiation command leave the power in `BN_R`. -/
theorem exponentiation_bnR {i : Instr} (hi : i = .genpub ∨ i = .shared ∨ i = .modexp) {s : State}
    {w : Word32} (hrun : s.engine = .running w .start) (hbn : s.bnA < 2 ^ s.params.bnBits)
    (hne : s.bnA ≠ 0) : ∃ u, execTimes i 2 s = .next u ∧ u.bnR = s.bnB ^ s.bnC % s.bnA := by
  obtain ⟨t, u, ht, hu, -, heq⟩ := (exponentiationCommands s w i hi hrun hbn).2 hne
  exact ⟨u, execTimes_two ht hu, congrArg State.bnR heq⟩

/-- Settles O56: both sides compute `g ^ (a · b)` modulo `p`. -/
theorem sharedSecretsAgree : Obligations.SharedSecretsAgree := by
  intro s w p g a b hrun hp hbn
  have hne : p ≠ 0 := by omega
  obtain ⟨pubA, hpubA, hA⟩ := exponentiation_bnR (.inl rfl)
    (s := { s with bnA := p, bnB := g, bnC := a }) hrun hbn hne
  obtain ⟨pubB, hpubB, hB⟩ := exponentiation_bnR (.inl rfl)
    (s := { s with bnA := p, bnB := g, bnC := b }) hrun hbn hne
  obtain ⟨secA, hsecA, hSA⟩ := exponentiation_bnR (.inr (.inl rfl))
    (s := { s with bnA := p, bnB := pubB.bnR, bnC := a }) hrun hbn hne
  obtain ⟨secB, hsecB, hSB⟩ := exponentiation_bnR (.inr (.inl rfl))
    (s := { s with bnA := p, bnB := pubA.bnR, bnC := b }) hrun hbn hne
  have hvalA : secA.bnR = g ^ (a * b) % p := by
    rw [hSA]
    change pubB.bnR ^ a % p = _
    rw [hB, ← Nat.pow_mod, ← pow_mul, mul_comm]
  have hvalB : secB.bnR = g ^ (a * b) % p := by
    rw [hSB]
    change pubA.bnR ^ b % p = _
    rw [hA, ← Nat.pow_mod, ← pow_mul]
  exact ⟨pubA, pubB, secA, secB, hpubA, hpubB, hsecA, hsecB, hvalA.trans hvalB.symm, hvalA⟩

/-! ## The primitive root -/

/-- A root that the search gives is below the number searched. -/
theorem findPrimitiveRoot_ok_lt {ps : List Nat} {p rounds g : Nat} {e e' : Entropy}
    (h : findPrimitiveRoot ps p rounds e = (.ok g, e')) : g < p := by
  cases htest : (isProbablyPrime ps p rounds e).1 with
  | false =>
    rw [findPrimitiveRoot_refused htest] at h
    cases h
  | true =>
    by_cases h2 : p = 2
    · rw [findPrimitiveRoot_two htest h2] at h
      cases h
      omega
    · obtain ⟨x, hx, ⟨-, hlt, -⟩, -⟩ := findPrimitiveRoot_least htest h2
      rw [hx] at h
      cases h
      exact hlt

/-- The search raises only `InvalidArgument`. -/
theorem findPrimitiveRoot_error {ps : List Nat} {p rounds : Nat} {e e' : Entropy} {err : CmdError}
    (h : findPrimitiveRoot ps p rounds e = (.error err, e')) : err = .invalidArgument := by
  cases htest : (isProbablyPrime ps p rounds e).1 with
  | false =>
    rw [findPrimitiveRoot_refused htest] at h
    cases h
    rfl
  | true =>
    by_cases h2 : p = 2
    · rw [findPrimitiveRoot_two htest h2] at h
      cases h
    · obtain ⟨x, hx, -⟩ := findPrimitiveRoot_least htest h2
      rw [hx] at h
      cases h

/-- Settles O53: both outcomes of the search. -/
theorem primrootCommand : Obligations.PrimrootCommand := by
  intro s w e hlegal hrun hbn
  refine ⟨fun g hg => ?_, fun err herr => ?_⟩
  · have hf : computePrimroot s = (.ok (.number g), { s with entropy := e }) := by
      simp only [computePrimroot, hg]
    exact number_completes hrun (fun _ => rfl) hf ((findPrimitiveRoot_ok_lt hg).trans hbn)
  · have hf : computePrimroot s = (.error err, { s with entropy := e }) := by
      simp only [computePrimroot, herr]
    exact ⟨.inl (findPrimitiveRoot_error herr), _, rfl, oneShot_fails hrun hf⟩

/-! ## Prime factors -/

/-- Entry `k` of the factors' bytes (R272). -/
theorem slice_factorBytes {p : Params} {fs : List Nat} {k f : Nat} (hf : fs[k]? = some f) :
    slice (factorBytes p fs) (k * p.bnBytes) p.bnBytes = toLE f p.bnBytes := by
  induction fs generalizing k with
  | nil => cases hf
  | cons x fs ih =>
    have hcons : factorBytes p (x :: fs) = toLE x p.bnBytes ++ factorBytes p fs := rfl
    cases k with
    | zero =>
      obtain rfl : x = f := by simpa using hf
      rw [hcons, Nat.zero_mul, slice_zero, List.take_left' (toLE_length x _)]
    | succ k =>
      rw [List.getElem?_cons_succ] at hf
      rw [← ih hf, hcons, slice, slice, Nat.succ_mul, Nat.add_comm, ← List.drop_drop,
        List.drop_left' (toLE_length x _)]

/-- Settles O52: the capacity check, then the entries. -/
theorem pfactorsCommand : Obligations.PfactorsCommand := by
  intro s w hlegal hrun fs
  have hbytes : s.params.bnBits / 8 = s.params.bnBytes := rfl
  have hlen := factorBytes_length s.params fs
  rw [hbytes]
  refine ⟨fun hcap => ?_, fun hfit => ?_⟩
  · have hf : computePfactors s = (.error .capacity, s) := if_pos hcap
    exact ⟨_, rfl, oneShot_fails hrun hf⟩
  · have hf : computePfactors s = (.ok (.factors fs), s) := if_neg (not_lt.mpr hfit)
    exact ⟨factorBytes s.params fs, _, _, rfl, exec_completes hrun (fun _ => rfl) hf rfl, hlen,
      fun k f => slice_factorBytes,
      bufferAfter_succeed (t := s) (r := .factors fs) rfl (hlen.trans_le (hfit.trans (bufBytes_le hlegal))),
      rfl⟩

/-! ## Prime candidates (R264) -/

/-- A candidate is odd and has exactly `bits` bits. -/
theorem primeCandidate_shape {bits v : Nat} (hbits : 1 ≤ bits) (hv : v < 2 ^ bits) :
    primeCandidate bits v % 2 = 1 ∧ 2 ^ (bits - 1) ≤ primeCandidate bits v ∧
      primeCandidate bits v < 2 ^ bits := by
  refine ⟨?_, ?_, ?_⟩
  · rw [Nat.mod_two_eq_one_iff_testBit_zero, primeCandidate, Nat.testBit_or]
    exact Bool.or_true _
  · exact Nat.right_le_or.trans Nat.left_le_or
  · have htop : 2 ^ (bits - 1) < 2 ^ bits := Nat.pow_lt_pow_right (by decide) (by omega)
    exact Nat.or_lt_two_pow (Nat.or_lt_two_pow hv htop) (Nat.one_lt_two_pow (by omega))

theorem draw_bits_lt (bits : Nat) (e : Entropy) : (e.draw 0 (2 ^ bits - 1)).1 < 2 ^ bits := by
  have hpos : 0 < 2 ^ bits := Nat.two_pow_pos bits
  obtain ⟨-, hhi⟩ := Entropy.draw_mem (Nat.zero_le (2 ^ bits - 1)) e
  omega

/-- An accepted candidate has exactly `bits` bits. -/
theorem tryCandidate_lt {ps : List Nat} {bits rounds p : Nat} {e : Entropy} (hbits : 1 ≤ bits)
    (h : (tryCandidate ps bits rounds e).1 = some p) : p < 2 ^ bits := by
  simp only [tryCandidate] at h
  split at h
  · cases h
    exact (primeCandidate_shape hbits (draw_bits_lt bits e)).2.2
  · cases h

theorem pbitsCheck_small {s : State} (h : s.pbits.toNat < 8) : pbitsCheck s = some .invalidArgument :=
  if_pos h

theorem pbitsCheck_large {s : State} (h : 8 ≤ s.pbits.toNat) (hbn : s.params.bnBits < s.pbits.toNat) :
    pbitsCheck s = some .capacity := by
  rw [pbitsCheck, if_neg (not_lt.mpr h), if_pos hbn]

theorem pbitsCheck_legal {s : State} (h : 8 ≤ s.pbits.toNat) (hbn : s.pbits.toNat ≤ s.params.bnBits) :
    pbitsCheck s = none := by
  rw [pbitsCheck, if_neg (not_lt.mpr h), if_neg (not_lt.mpr hbn)]

section Candidates
variable {s : State} {w : Word32} {accepted : Nat → Ctx}

theorem generatePrime_fails {e : CmdError} (hrun : s.engine = .running w .start)
    (he : pbitsCheck s = some e) : failedFrom s (generatePrime accepted s) e := by
  simp only [generatePrime, State.ctx_of_running hrun, he]
  exact failedFrom_fail s e

/-- A step at a candidate, the first one's checks passed. -/
theorem generatePrime_candidate {k : Nat} {ctx : Ctx} (hrun : s.engine = .running w ctx)
    (hctx : (k = 0 ∧ ctx = .start) ∨ ctx = .candidates k) (hcheck : pbitsCheck s = none) :
    generatePrime accepted s = candidateStep accepted k s := by
  rcases hctx with ⟨rfl, rfl⟩ | rfl
  · simp only [generatePrime, State.ctx_of_running hrun, hcheck]
  · simp only [generatePrime, State.ctx_of_running hrun]

theorem candidateStep_accepted {k p : Nat} {ctx : Ctx} {e : Entropy} (hrun : s.engine = .running w ctx)
    (hr : tryCandidate s.params.smallPrimes s.pbits.toNat s.mrRounds.toNat s.entropy = (some p, e)) :
    candidateStep accepted k s = { s with entropy := e, engine := .running w (accepted p) } := by
  simp only [candidateStep, hr]
  exact State.setCtx_of_running (s := { s with entropy := e }) hrun

theorem candidateStep_rejected {k : Nat} {ctx : Ctx} {e : Entropy} (hrun : s.engine = .running w ctx)
    (hr : tryCandidate s.params.smallPrimes s.pbits.toNat s.mrRounds.toNat s.entropy = (none, e)) :
    candidateStep accepted k s = { s with entropy := e, engine := .running w (.candidates (k + 1)) } := by
  simp only [candidateStep, hr]
  exact State.setCtx_of_running (s := { s with entropy := e }) hrun

theorem generatePrime_finish {r : Result} (hrun : s.engine = .running w (.finish r)) :
    generatePrime accepted s = s.succeed r := by
  simp only [generatePrime, State.ctx_of_running hrun]

/-- `GENPARAMS` outside its root search is the generation of a prime. -/
theorem execGenparams_of_ne {ctx : Ctx} (hrun : s.engine = .running w ctx)
    (hctx : ∀ p, ctx ≠ .rootSearch p) :
    exec .genparams s = .next (generatePrime (fun p => .rootSearch p) s) := by
  have hexec : exec .genparams s = execGenparams s := rfl
  rw [hexec, execGenparams]
  split
  · next p hp =>
    rw [State.ctx_of_running hrun] at hp
    exact absurd (Option.some.inj hp) (hctx p)
  · rfl

theorem execGenparams_rootSearch {p : Nat} (hrun : s.engine = .running w (.rootSearch p)) :
    exec .genparams s = .next (paramsRootStep p s) := by
  have hexec : exec .genparams s = execGenparams s := rfl
  rw [hexec, execGenparams, State.ctx_of_running hrun]

/-- The root search finds a root: its result waits for the completion step. -/
theorem paramsRootStep_ok {p g : Nat} {ctx : Ctx} {e : Entropy} (hrun : s.engine = .running w ctx)
    (hroot : findPrimitiveRoot s.params.smallPrimes p s.mrRounds.toNat s.entropy = (.ok g, e)) :
    paramsRootStep p s = { s with entropy := e, engine := .running w (.finish (.dhParams p g)) } := by
  simp only [paramsRootStep, hroot]
  exact State.setCtx_of_running (s := { s with entropy := e }) hrun

theorem paramsRootStep_error {p : Nat} {err : CmdError} {e : Entropy}
    (hroot : findPrimitiveRoot s.params.smallPrimes p s.mrRounds.toNat s.entropy = (.error err, e)) :
    failedFrom { s with entropy := e } (paramsRootStep p s) err := by
  simp only [paramsRootStep, hroot]
  exact failedFrom_fail _ _

/-- The completion of `GENPARAMS` (R324). -/
theorem succeed_dhParams {p g : Nat} (e : Entropy) (en : Engine) (hp : p < 2 ^ s.params.bnBits)
    (hg : g < 2 ^ s.params.bnBits) :
    State.succeed (.dhParams p g) { s with entropy := e, engine := en } =
      { s with
        bnR := p, bnS := g, entropy := e, engine := .idle, err := none, done := true, outLen := 0
        mem := s.outputMem [] } := by
  have hbnp : State.bnValue { s with entropy := e, engine := en } p = p := bnValue_of_lt hp
  have hbng : State.bnValue { s with entropy := e, engine := en } g = g := bnValue_of_lt hg
  rw [State.succeed, State.writeResult_dhParams, hbnp, hbng]
  rfl

end Candidates

/-- Settles O50: the checks, then a candidate accepted or rejected. -/
theorem genprimeCommand : Obligations.GenprimeCommand := by
  intro s w hlegal bits d v r
  refine ⟨fun hrun hlt => ⟨_, rfl, generatePrime_fails hrun (pbitsCheck_small hlt)⟩,
    fun hrun h8 hbn => ⟨_, rfl, generatePrime_fails hrun (pbitsCheck_large h8 hbn)⟩,
    fun k ctx hrun hctx h8 hbn => ?_⟩
  obtain ⟨hodd, hlo, hhi⟩ := primeCandidate_shape (show 1 ≤ bits by omega) (draw_bits_lt bits s.entropy)
  have hstep : exec .genprime s = .next (candidateStep (fun p => .finish (.number p)) k s) :=
    congrArg Host.Outcome.next (generatePrime_candidate hrun hctx (pbitsCheck_legal h8 hbn))
  refine ⟨hodd, hlo, hhi, fun haccept => ?_, fun hreject => ?_⟩
  · have hr : tryCandidate s.params.smallPrimes s.pbits.toNat s.mrRounds.toNat s.entropy =
        (some v, r.2) := Prod.ext (if_pos haccept) rfl
    have hfit : v < 2 ^ s.params.bnBits := hhi.trans_le (Nat.pow_le_pow_right (by decide) hbn)
    rw [candidateStep_accepted hrun hr] at hstep
    exact ⟨_, _, hstep, congrArg Host.Outcome.next (generatePrime_finish rfl),
      bufferAfter_succeed_nil (t := { s with entropy := r.2, engine := .running w (.finish (.number v)) })
        (r := .number v) rfl rfl,
      succeed_number r.2 _ hfit⟩
  · have hr : tryCandidate s.params.smallPrimes s.pbits.toNat s.mrRounds.toNat s.entropy =
        (none, r.2) := Prod.ext (if_neg (Bool.eq_false_iff.mp hreject)) rfl
    rw [hstep, candidateStep_rejected hrun hr]

/-- Settles O51: as for `GENPRIME`, then the root search. -/
theorem genparamsCommand : Obligations.GenparamsCommand := by
  intro s w hlegal bits r
  refine ⟨fun hrun hlt => ⟨_, execGenparams_of_ne hrun (fun _ => Ctx.noConfusion),
      generatePrime_fails hrun (pbitsCheck_small hlt)⟩,
    fun hrun h8 hbn => ⟨_, execGenparams_of_ne hrun (fun _ => Ctx.noConfusion),
      generatePrime_fails hrun (pbitsCheck_large h8 hbn)⟩,
    fun k ctx hrun hctx h8 hbn => ?_⟩
  have hne : ∀ p, ctx ≠ .rootSearch p := by
    rcases hctx with ⟨-, rfl⟩ | rfl <;> exact fun _ => Ctx.noConfusion
  have hstep : exec .genparams s = .next (candidateStep (fun p => .rootSearch p) k s) := by
    rw [execGenparams_of_ne hrun hne, generatePrime_candidate hrun hctx (pbitsCheck_legal h8 hbn)]
  refine ⟨fun hreject => ?_, fun p g e haccept hroot => ?_, fun p err e haccept hroot => ?_⟩
  · rw [hstep, candidateStep_rejected hrun (Prod.ext hreject rfl)]
  · rw [candidateStep_accepted hrun (Prod.ext haccept rfl)] at hstep
    have hp : p < 2 ^ s.params.bnBits :=
      (tryCandidate_lt (by omega) haccept).trans_le (Nat.pow_le_pow_right (by decide) hbn)
    have hg : g < 2 ^ s.params.bnBits := (findPrimitiveRoot_ok_lt hroot).trans hp
    exact ⟨_, _, _, hstep, (execGenparams_rootSearch rfl).trans (congrArg _ (paramsRootStep_ok rfl hroot)),
      (execGenparams_of_ne rfl (fun _ => Ctx.noConfusion)).trans
        (congrArg _ (generatePrime_finish rfl)),
      bufferAfter_succeed_nil
        (t := { s with entropy := e, engine := .running w (.finish (.dhParams p g)) })
        (r := .dhParams p g) rfl rfl,
      succeed_dhParams e _ hp hg⟩
  · rw [candidateStep_accepted hrun (Prod.ext haccept rfl)] at hstep
    exact ⟨_, _, hstep, execGenparams_rootSearch rfl, paramsRootStep_error hroot⟩

/-! ## SHA-256's padding -/

/-- Settles O58: `k` is the distance to the next multiple of 64. -/
theorem sha256PaddingIsLeast : Obligations.Sha256PaddingIsLeast :=
  fun m => ⟨(119 - m.length % 64) % 64, rfl, by omega, fun j hj => by omega⟩

end Sys2Proof.Machine
end

section
/-! Chaining undone (spec/41_modes.md R140, R151 to R159, R162). -/

namespace Sys2Proof.Machine

/-! ## Bytes -/

/-- XORing with a key stream at least as long twice leaves the bytes. -/
theorem xorBytes_xorBytes {p k : Bytes} (h : p.length ≤ k.length) : xorBytes (xorBytes p k) k = p := by
  induction p generalizing k with
  | nil => rfl
  | cons x p ih =>
    cases k with
    | nil => simp at h
    | cons y k =>
      have hrest : p.length ≤ k.length := by simpa using h
      have hbyte : x ^^^ y ^^^ y = x := by rw [BitVec.xor_assoc, BitVec.xor_self, BitVec.xor_zero]
      have hcons : xorBytes (xorBytes (x :: p) (y :: k)) (y :: k) =
          (x ^^^ y ^^^ y) :: xorBytes (xorBytes p k) k := rfl
      rw [hcons, hbyte, ih hrest]

/-- A first block, whole or the only one, in front of a string. -/
theorem chunks_append {bs : Nat} {a rest : Bytes} (h : 0 < bs) (ha : a ≠ []) (hle : a.length ≤ bs)
    (hrest : a.length = bs ∨ rest = []) : chunks bs (a ++ rest) = a :: chunks bs rest := by
  have hne : a ++ rest ≠ [] := List.append_ne_nil_of_left_ne_nil ha rest
  rw [chunks_of_ne_nil h hne]
  rcases hrest with heq | rfl
  · rw [List.take_left' heq, List.drop_left' heq]
  · rw [List.append_nil, List.take_of_length_le hle, List.drop_eq_nil_of_le hle]

/-! ## One block -/

/-- What the chaining of a block needs of the block functions (R181). -/
def invertBlocks (bs : Nat) (enc dec : BlockFn) : Prop :=
  ∀ b : Bytes, b.length = bs → (enc b).length = bs ∧ (dec b).length = bs ∧ dec (enc b) = b

/-- What mode `m` needs of the block `x` of a string: it is whole, or it may be short in CTR (R159). -/
def blockLength (m : Mode) (bs : Nat) (x : Bytes) : Prop :=
  x.length ≤ bs ∧ (m ≠ .ctr → x.length = bs)

section Block
variable {m : Mode} {enc dec : BlockFn} {bs ctr0 i : Nat} {chain x : Bytes}
  (hm : m ≠ .unknown) (hinv : invertBlocks bs enc dec) (hchain : m ≠ .ecb → chain.length = bs)
  (hx : blockLength m bs x)
include hm hinv hchain hx

/-- Encryption of a block keeps its length and the chaining variable's. -/
theorem chainEncBlock_length :
    (chainEncBlock m enc bs ctr0 i chain x).1.length = x.length ∧
      (m ≠ .ecb → (chainEncBlock m enc bs ctr0 i chain x).2.length = bs) := by
  obtain ⟨hle, hwhole⟩ := hx
  have henc : ∀ b : Bytes, b.length = bs → (enc b).length = bs := fun b hb => (hinv b hb).1
  have hctr := henc _ (ctrBlock_length bs ctr0 i)
  cases m <;> simp_all [chainEncBlock]

/-- Decryption undoes it and carries the same chaining variable on. -/
theorem chainDecBlock_chainEncBlock :
    chainDecBlock m enc dec bs ctr0 i chain (chainEncBlock m enc bs ctr0 i chain x).1 =
      (x, (chainEncBlock m enc bs ctr0 i chain x).2) := by
  obtain ⟨hle, hwhole⟩ := hx
  have hstream {k : Bytes} (hk : k.length = bs) : xorBytes (xorBytes x k) k = x :=
    xorBytes_xorBytes (hk ▸ hle)
  have hmasked (hxl : x.length = bs) (hcl : chain.length = bs) :
      xorBytes (dec (enc (xorBytes x chain))) chain = x := by
    rw [(hinv _ (by rw [xorBytes_length, hxl, hcl, Nat.min_self])).2.2, hstream hcl]
  cases m with
  | unknown => exact absurd rfl hm
  | ecb => simp only [chainDecBlock, chainEncBlock, (hinv x (hwhole Mode.noConfusion)).2.2]
  | cbc =>
    simp only [chainDecBlock, chainEncBlock,
      hmasked (hwhole Mode.noConfusion) (hchain Mode.noConfusion)]
  | pcbc =>
    simp only [chainDecBlock, chainEncBlock,
      hmasked (hwhole Mode.noConfusion) (hchain Mode.noConfusion)]
  | randomDelta =>
    simp only [chainDecBlock, chainEncBlock,
      hmasked (hwhole Mode.noConfusion) (hchain Mode.noConfusion)]
  | cfb =>
    simp only [chainDecBlock, chainEncBlock, hstream (hinv chain (hchain Mode.noConfusion)).1]
  | ofb =>
    simp only [chainDecBlock, chainEncBlock, hstream (hinv chain (hchain Mode.noConfusion)).1]
  | ctr =>
    simp only [chainDecBlock, chainEncBlock, hstream (hinv _ (ctrBlock_length bs ctr0 i)).1]

end Block

/-! ## Whole strings -/

section Run
variable {m : Mode} {enc dec : BlockFn} {bs : Nat} (hm : m ≠ .unknown) (hbs : 0 < bs)
  (hinv : invertBlocks bs enc dec)
include hm hbs hinv

/-- Decryption of a run undoes encryption of it, from any block index and chaining variable. -/
theorem chainRun_dec_enc (ctr0 i : Nat) {chain p : Bytes} (hchain : m ≠ .ecb → chain.length = bs)
    (hp : m ≠ .ctr → p.length % bs = 0) :
    chainRun (chainDecBlock m enc dec bs ctr0) i chain
      (chunks bs (chainRun (chainEncBlock m enc bs ctr0) i chain (chunks bs p))) = p := by
  by_cases hnil : p = []
  · rw [hnil, chunks_nil hbs, chainRun_nil, chunks_nil hbs, chainRun_nil]
  · have hpos : 0 < p.length := List.length_pos_iff.mpr hnil
    have hwhole (hctr : m ≠ .ctr) : bs ≤ p.length :=
      Nat.le_of_dvd hpos (Nat.dvd_of_mod_eq_zero (hp hctr))
    have hx : blockLength m bs (p.take bs) :=
      ⟨List.length_take_le _ _, fun hctr => List.length_take_of_le (hwhole hctr)⟩
    have hrest (hctr : m ≠ .ctr) : (p.drop bs).length % bs = 0 := by
      rw [List.length_drop, ← Nat.mod_eq_sub_mod (hwhole hctr), hp hctr]
    obtain ⟨hlen, hnext⟩ := chainEncBlock_length (ctr0 := ctr0) (i := i) hm hinv hchain hx
    have hundo := chainDecBlock_chainEncBlock (ctr0 := ctr0) (i := i) hm hinv hchain hx
    have htail := chainRun_dec_enc ctr0 (i + 1) hnext hrest
    rw [chunks_of_ne_nil hbs hnil, chainRun_cons]
    generalize chainEncBlock m enc bs ctr0 i chain (p.take bs) = y at hlen hnext hundo htail ⊢
    have hfirst : y.1.length ≤ bs := hlen ▸ List.length_take_le _ _
    have hne : y.1 ≠ [] := by
      rw [← List.length_pos_iff, hlen, List.length_take]
      omega
    have hlast : y.1.length = bs ∨
        chainRun (chainEncBlock m enc bs ctr0) (i + 1) y.2 (chunks bs (p.drop bs)) = [] := by
      rcases Nat.le_total bs p.length with hle | hle
      · exact .inl (hlen.trans (List.length_take_of_le hle))
      · right
        rw [List.drop_eq_nil_of_le hle, chunks_nil hbs, chainRun_nil]
    rw [chunks_append hbs hne hfirst hlast, chainRun_cons, hundo]
    simp only [htail, List.take_append_drop]
termination_by p.length
decreasing_by rw [List.length_drop]; omega

end Run

/-- Settles O36: `chainRun_dec_enc` from block 0 and the IV. -/
theorem chainDecInvertsChainEnc : Obligations.ChainDecInvertsChainEnc := by
  intro m enc dec bs iv p hm hbs hinv hiv hp
  exact chainRun_dec_enc hm hbs hinv (beNat iv) 0 hiv hp

/-- The block functions of an instance invert each other (R208, R241). -/
theorem Schedule.invertBlocks_blockSize (fe : FeTables) (sched : Schedule) :
    invertBlocks (blockSize sched.cipher) (sched.encBlock fe) (sched.decBlock fe) := by
  intro b hb
  refine ⟨encBlock_length fe sched b, decBlock_length fe sched b, ?_⟩
  cases sched with
  | a k => exact (cipherABlockFunctionsInverse fe k b hb).1
  | b k => exact (cipherBBlockFunctionsInverse k b hb).1

/-- Padding makes whole blocks (R121). -/
theorem pad_whole {d out : Bytes} {p : PadScheme} {bs : Nat} {e e' : Entropy} (hbs : 0 < bs)
    (h : pad d p bs e = .ok (out, e')) : out.length % bs = 0 := by
  rw [pad_length hbs h]
  exact (padLength_spec d.length bs hbs).2

/-- Settles O38: unchaining gives the padded message back, and unpadding the message. -/
theorem messageRoundTrip : Obligations.MessageRoundTrip := by
  intro fe sched m p iv d padded e e' bs hm hiv hpad hzeros
  have hbs : 0 < bs := blockSize_pos sched.cipher
  rw [chainDecInvertsChainEnc m _ _ bs iv padded hm hbs (sched.invertBlocks_blockSize fe) hiv
    fun _ => pad_whole hbs hpad]
  have hsize : bs = 8 ∨ bs = 16 := by
    cases sched
    · exact .inl rfl
    · exact .inr rfl
  obtain ⟨hother, hzero⟩ := unpadUndoesPad d padded p bs e e' hsize hpad
  by_cases hp : p = .zeros
  · exact (hzero hp).mpr (hzeros hp)
  · exact hother hp

end Sys2Proof.Machine
end

section
/-! The checks and the progress point of the mode commands (spec/41_modes.md R141 to R150, spec/60_exceptions.md
R330). -/

namespace Sys2Proof.Machine

/-! ## One step of a mode command -/

/-- Every mode command's step is a `modeStep`. -/
theorem exec_mode {i : Instr} {c : Cipher} {m : Mode} {p : PadScheme} {ivp : Bool}
    (hi : i = .encrypt c m p ivp ∨ i = .decrypt c m p ivp) :
    ∃ prep block close, (∀ s, exec i s = .next (modeStep prep block close s)) ∧
      ((prep = prepareEncrypt c m p ivp) ∨ (prep = prepareDecrypt c m p ivp)) := by
  rcases hi with rfl | rfl
  · exact ⟨_, _, _, fun _ => rfl, .inl rfl⟩
  · exact ⟨_, _, _, fun _ => rfl, .inr rfl⟩

section Step
variable {prep : State → Except CmdError ModeJob × State}
  {block : State → ModeJob → Bytes → Bytes × Bytes} {close : Bytes → Except CmdError Bytes}
  {s t : State} {w : Word32}

/-- A preparation that raises ends the command. -/
theorem modeStep_fails {e : CmdError} (hrun : s.engine = .running w .start)
    (hprep : prep s = (.error e, t)) : failedFrom t (modeStep prep block close s) e := by
  simp only [modeStep, State.ctx_of_running hrun, hprep]
  exact failedFrom_fail t e

theorem modeStep_prepared {job : ModeJob} (hrun : s.engine = .running w .start)
    (hprep : prep s = (.ok job, t)) : modeStep prep block close s = t.setCtx (.blocks job) := by
  simp only [modeStep, State.ctx_of_running hrun, hprep]

theorem modeStep_block {job : ModeJob} {x : Bytes} (hrun : s.engine = .running w (.blocks job))
    (hx : job.blocks[job.next]? = some x) :
    modeStep prep block close s =
      s.progressPoint { job with
        next := job.next + 1, chain := (block s job x).2, out := job.out ++ (block s job x).1 }
        job.next := by
  simp only [modeStep, State.ctx_of_running hrun, hx]

theorem modeStep_closes {job : ModeJob} {out : Bytes} (hrun : s.engine = .running w (.blocks job))
    (hx : job.blocks[job.next]? = none) (hclose : close job.out = .ok out) :
    modeStep prep block close s = s.succeed (.output out) := by
  simp only [modeStep, State.ctx_of_running hrun, hx, hclose]

theorem modeStep_close_fails {job : ModeJob} {e : CmdError} (hrun : s.engine = .running w (.blocks job))
    (hx : job.blocks[job.next]? = none) (hclose : close job.out = .error e) :
    modeStep prep block close s = s.fail e := by
  simp only [modeStep, State.ctx_of_running hrun, hx, hclose]

end Step

/-! ## The common checks -/

section Checks
variable {c : Cipher} {m : Mode} {p : PadScheme} {ivp : Bool} {s : State} {w : Word32}

theorem modeChecks_noKey (hk : s.keyedFor c = none) : modeChecks c m p ivp s = .error .noKey := by
  simp only [modeChecks, hk]

/-- The checks after the instance's, in order (R330). -/
theorem modeChecks_keyed {sched : Schedule} (hk : s.keyedFor c = some sched) :
    modeChecks c m p ivp s =
      if m = .unknown then .error .unsupportedMode
      else if schemeUnknown p then .error .padding
      else if m ≠ .ecb ∧ ivp ∧ s.ivLen.toNat ≠ blockSize c then .error .invalidIvLength
      else if s.inputTooLong then .error .capacity
      else .ok sched := by
  simp only [modeChecks, hk]

/-- A failed check ends either command with nothing changed (R325). -/
theorem mode_fails_of_checks {i : Instr} {e : CmdError} (hrun : s.engine = .running w .start)
    (hi : i = .encrypt c m p ivp ∨ i = .decrypt c m p ivp) (he : modeChecks c m p ivp s = .error e) :
    ∃ u, exec i s = .next u ∧ failedFrom s u e := by
  obtain ⟨prep, block, close, hexec, hprep⟩ := exec_mode hi
  have hfail : prep s = (.error e, s) := by
    rcases hprep with rfl | rfl
    · simp only [prepareEncrypt, he]
    · simp only [prepareDecrypt, he]
  exact ⟨_, hexec s, modeStep_fails hrun hfail⟩

/-- What passes the checks. -/
theorem modeChecks_pass {sched : Schedule} (hk : s.keyedFor c = some sched) (hm : m ≠ .unknown)
    (hp : ∀ code, p ≠ .unknown code) (hiv : m ≠ .ecb → ivp = true → s.ivLen.toNat = blockSize c)
    (hin : s.inLen.toNat ≤ s.params.bufBytes) : modeChecks c m p ivp s = .ok sched := by
  have hlen : s.inputTooLong = false := by
    rw [State.inputTooLong, decide_eq_false (not_lt.mpr hin)]
  rw [modeChecks_keyed hk, if_neg hm, schemeUnknown_eq_false hp, if_neg Bool.false_ne_true,
    if_neg fun ⟨hne, hgiven, hbad⟩ => hbad (hiv hne hgiven), hlen, if_neg Bool.false_ne_true]

end Checks

/-- Settles O41: each clause passes the checks before it. -/
theorem modeCommandChecksInOrder : Obligations.ModeCommandChecksInOrder := by
  intro s w c m p ivp i hrun hi keyed badIv
  have hfail {e : CmdError} := mode_fails_of_checks (e := e) hrun hi
  have hkey (hk : keyed) : ∃ sched, s.keyedFor c = some sched :=
    hk.imp fun _ ⟨hinst, hc⟩ => keyedFor_of_inst hinst hc
  refine ⟨fun hno => ?_, fun hk hm => ?_, fun hk hm hp => ?_, fun hk hm hp hiv => ?_,
    fun hk hm hp hiv hlong => ?_⟩
  · exact hfail (modeChecks_noKey (keyedFor_eq_none fun sched hinst hc => hno ⟨sched, hinst, hc⟩))
  all_goals obtain ⟨sched, hs⟩ := hkey hk
  · exact hfail (by rw [modeChecks_keyed hs, if_pos hm])
  · exact hfail (by rw [modeChecks_keyed hs, if_neg hm, if_pos ((schemeUnknown_eq_true_iff p).mpr hp)])
  · exact hfail (by
      rw [modeChecks_keyed hs, if_neg hm, schemeUnknown_eq_false hp, if_neg Bool.false_ne_true, if_pos hiv])
  · have hlen : s.inputTooLong = true := by
      rw [State.inputTooLong, decide_eq_true hlong]
    exact hfail (by
      rw [modeChecks_keyed hs, if_neg hm, schemeUnknown_eq_false hp, if_neg Bool.false_ne_true,
        if_neg hiv, if_pos hlen])

/-! ## The length checks -/

section Lengths
variable {c : Cipher} {m : Mode} {p : PadScheme} {ivp : Bool} {s : State} {sched : Schedule}

theorem ivPrefixLength_eq (c : Cipher) (m : Mode) (ivp : Bool) :
    ivPrefixLength c m ivp = if m ≠ .ecb ∧ ivp = false then blockSize c else 0 := by
  simp only [ivPrefixLength, Bool.not_eq_true]

theorem prepareEncrypt_capacity (hcheck : modeChecks c m p ivp s = .ok sched)
    (hcap : s.params.bufBytes <
      ivPrefixLength c m ivp + s.inLen.toNat + padLength s.inLen.toNat (blockSize c)) :
    prepareEncrypt c m p ivp s = (.error .capacity, s.readInput) := by
  simp only [prepareEncrypt, hcheck, if_pos hcap]

/-- The split of the input, when an IV is supplied or none is used (R142). -/
theorem splitIv_supplied {bs : Nat} {iv d : Bytes} (h : m = .ecb ∨ ivp = true) :
    ∃ v, splitIv m ivp bs iv d = .ok (v, d) := by
  by_cases hm : m = .ecb
  · exact ⟨[], if_pos hm⟩
  · exact ⟨iv, (if_neg hm).trans (if_pos (h.resolve_left hm))⟩

theorem splitIv_leading {bs : Nat} {iv d : Bytes} (hm : m ≠ .ecb) (hivp : ivp = false) :
    splitIv m ivp bs iv d =
      if d.length < bs then .error .dataLength else .ok (d.take bs, d.drop bs) := by
  rw [splitIv, if_neg hm, hivp, if_neg Bool.false_ne_true]

theorem prepareDecrypt_badSplit (hcheck : modeChecks c m p ivp s = .ok sched) {e : CmdError}
    (hsplit : splitIv m ivp (blockSize c) (s.ivBytes (blockSize c)) s.input = .error e) :
    prepareDecrypt c m p ivp s = (.error e, s.readInput) := by
  simp only [prepareDecrypt, hcheck, hsplit]

theorem prepareDecrypt_badLength (hcheck : modeChecks c m p ivp s = .ok sched) {iv d : Bytes}
    (hsplit : splitIv m ivp (blockSize c) (s.ivBytes (blockSize c)) s.input = .ok (iv, d))
    (hlen : d.length = 0 ∨ d.length % blockSize c ≠ 0) :
    prepareDecrypt c m p ivp s = (.error .dataLength, s.readInput) := by
  simp only [prepareDecrypt, hcheck, hsplit, if_pos hlen]

/-- With the IV in front of it, a ciphertext is at least one block and whole blocks (R144, R145). -/
theorem prepareDecrypt_leading_dataLength (hcheck : modeChecks c m p ivp s = .ok sched) (hm : m ≠ .ecb)
    (hivp : ivp = false)
    (hlen : s.inLen.toNat < 2 * blockSize c ∨ s.inLen.toNat % blockSize c ≠ 0) :
    prepareDecrypt c m p ivp s = (.error .dataLength, s.readInput) := by
  have hinput := input_length s
  have hsplit := splitIv_leading (bs := blockSize c) (iv := s.ivBytes (blockSize c)) (d := s.input)
    hm hivp
  rcases Nat.lt_or_ge s.inLen.toNat (blockSize c) with hlt | hge
  · rw [if_pos (by omega)] at hsplit
    exact prepareDecrypt_badSplit hcheck hsplit
  · rw [if_neg (by omega)] at hsplit
    refine prepareDecrypt_badLength hcheck hsplit ?_
    rw [List.length_drop, hinput, ← Nat.mod_eq_sub_mod hge]
    rcases hlen with hshort | hodd
    · rcases Nat.eq_or_lt_of_le hge with heq | hlt
      · exact .inl (by omega)
      · right
        rw [Nat.mod_eq_sub_mod hge, Nat.mod_eq_of_lt (by omega)]
        omega
    · exact .inr hodd

end Lengths

/-- Settles O42: the capacity check of `ENCRYPT`, and `DECRYPT`'s length check in each IV form. -/
theorem modeCommandLengthErrors : Obligations.ModeCommandLengthErrors := by
  intro s w c m p ivp sched bs hrun hinst hc hm hp hiv hin
  have hcheck := modeChecks_pass (keyedFor_of_inst hinst hc) hm hp hiv hin
  refine ⟨fun hcap => ?_, fun ⟨hne, hivp, hshort⟩ => ?_, fun hbad => ?_⟩
  · rw [← ivPrefixLength_eq] at hcap
    exact ⟨_, rfl, modeStep_fails hrun (prepareEncrypt_capacity hcheck hcap)⟩
  · exact ⟨_, rfl, modeStep_fails hrun
      (prepareDecrypt_leading_dataLength hcheck hne hivp (.inl hshort))⟩
  · have hpos : 0 < bs := blockSize_pos c
    refine ⟨_, rfl, modeStep_fails hrun ?_⟩
    by_cases hform : m = .ecb ∨ ivp = true
    · obtain ⟨v, hv⟩ := splitIv_supplied (bs := blockSize c) (iv := s.ivBytes (blockSize c))
        (d := s.input) hform
      exact prepareDecrypt_badLength hcheck hv (by rwa [input_length])
    · obtain ⟨hne, hivp⟩ := not_or.mp hform
      exact prepareDecrypt_leading_dataLength hcheck hne (Bool.not_eq_true _ ▸ hivp)
        (hbad.imp_left fun h0 => by omega)

/-! ## The progress point -/

/-- Settles O43: the block's step, then the three outcomes of `progressPoint`. -/
theorem progressPointReportsAndCancels : Obligations.ProgressPointReportsAndCancels := by
  intro s w c m p ivp i job hrun hnext hi pct
  obtain ⟨prep, block, close, hexec, -⟩ := exec_mode hi
  have hx : job.blocks[job.next]? = some job.blocks[job.next] := List.getElem?_eq_getElem hnext
  have hstep := modeStep_block (prep := prep) (block := block) (close := close) hrun hx
  generalize block s job job.blocks[job.next] = y at hstep
  refine ⟨_, (hexec s).trans (congrArg _ hstep), ?_⟩
  have hout : job.out <+: job.out ++ y.1 := List.prefix_append _ _
  obtain ⟨hlast, heq⟩ | ⟨hlast, ⟨hcancel, heq⟩ | ⟨hcancel, heq⟩⟩ := progressPoint_cases
    { job with next := job.next + 1, chain := y.2, out := job.out ++ y.1 } job.next s
  · rw [heq, State.setCtx_of_running hrun]
    exact ⟨fun hne => absurd hlast hne, fun hne => absurd hlast hne,
      fun _ => ⟨_, rfl, rfl, hlast, rfl, rfl, hout⟩⟩
  · rw [heq, State.setCtx_of_running hrun]
    refine ⟨fun _ _ => failedFrom_fail _ _, fun _ hno => ?_, fun hsame => absurd hsame hlast⟩
    rw [hcancel] at hno
    cases hno
  · rw [heq, State.setCtx_of_running hrun]
    refine ⟨fun _ hyes => ?_, fun _ _ => ⟨_, rfl, rfl, rfl, rfl, rfl, hout⟩,
      fun hsame => absurd hsame hlast⟩
    rw [hcancel] at hyes
    cases hyes

end Sys2Proof.Machine
end

section
/-! `ENCRYPT` and `DECRYPT` from their first engine step to their completion (spec/41_modes.md R148 to R150,
R160 and R161). -/

namespace Sys2Proof.Machine

theorem execTimes_add {i : Instr} {n k : Nat} {s t : State} (h : execTimes i n s = .next t) :
    execTimes i (n + k) s = execTimes i k t := by
  induction n generalizing s with
  | zero =>
    cases h
    rw [Nat.zero_add]
  | succ n ih =>
    rw [Nat.add_right_comm, execTimes]
    rw [execTimes] at h
    cases hs : exec i s with
    | next s' =>
      rw [hs] at h
      exact ih h
    | fault r => rw [hs] at h; cases h
    | refused r => rw [hs] at h; cases h

theorem execTimes_one (i : Instr) (s : State) : execTimes i 1 s = exec i s := by
  rw [execTimes]
  cases exec i s <;> rfl

/-! ## Lengths -/

/-- A run of whole blocks keeps their length, when its block step does. -/
theorem chainRun_length {f : Nat → Bytes → Bytes → Bytes × Bytes} {bs : Nat} {good : Bytes → Prop}
    (hf : ∀ i chain x, good chain → x.length = bs → (f i chain x).1.length = bs ∧ good (f i chain x).2)
    {blocks : List Bytes} (hwhole : ∀ x ∈ blocks, x.length = bs) (i : Nat) {chain : Bytes}
    (hchain : good chain) : (chainRun f i chain blocks).length = blocks.length * bs := by
  induction blocks generalizing i chain with
  | nil => rw [chainRun_nil, List.length_nil, List.length_nil, Nat.zero_mul]
  | cons x rest ih =>
    obtain ⟨hx, hrest⟩ := List.forall_mem_cons.mp hwhole
    obtain ⟨hlen, hnext⟩ := hf i chain x hchain hx
    rw [chainRun_cons, List.length_append, hlen, ih hrest (i + 1) hnext, List.length_cons, Nat.succ_mul,
      Nat.add_comm]

theorem chainEnc_length {m : Mode} {enc : BlockFn} {bs : Nat} {iv p : Bytes} (hm : m ≠ .unknown)
    (hbs : 0 < bs) (henc : ∀ b, (enc b).length = bs) (hiv : m ≠ .ecb → iv.length = bs)
    (hp : p.length % bs = 0) : (chainEnc m enc bs iv p).length = p.length := by
  have hrun := chainRun_length (good := fun chain => m ≠ .ecb → chain.length = bs)
    (fun i chain x hchain hx => chainEncBlock_lengths (ctr0 := beNat iv) (i := i) hm henc hx hchain)
    (chunks_whole hbs hp) 0 hiv
  rw [chainEnc, hrun, chunks_length hbs hp, Nat.div_mul_cancel (Nat.dvd_of_mod_eq_zero hp)]

theorem chainDec_length {m : Mode} {enc dec : BlockFn} {bs : Nat} {iv p : Bytes} (hm : m ≠ .unknown)
    (hbs : 0 < bs) (henc : ∀ b, (enc b).length = bs) (hdec : ∀ b, (dec b).length = bs)
    (hiv : m ≠ .ecb → iv.length = bs) (hp : p.length % bs = 0) :
    (chainDec m enc dec bs iv p).length = p.length := by
  have hrun := chainRun_length (good := fun chain => m ≠ .ecb → chain.length = bs)
    (fun i chain x hchain hx => chainDecBlock_lengths (ctr0 := beNat iv) (i := i) hm henc hdec hx hchain)
    (chunks_whole hbs hp) 0 hiv
  rw [chainDec, hrun, chunks_length hbs hp, Nat.div_mul_cancel (Nat.dvd_of_mod_eq_zero hp)]

/-! ## The blocks of a job -/

/-- Nothing has been reported before the first block, and after block `next - 1` its percentage stands in
`PROGRESS` (R150). -/
def reportedSoFar (job : ModeJob) (progress : BitVec 7) : Prop :=
  (job.next = 0 → job.last = none) ∧
    (0 < job.next → job.last = some (percent (job.next - 1) job.blocks.length) ∧
      progress = BitVec.ofNat 7 (percent (job.next - 1) job.blocks.length))

/-- The job after a block whose output and next chaining variable are `y`. -/
def jobAfter (job : ModeJob) (y : Bytes × Bytes) : ModeJob :=
  { job with
    next := job.next + 1, chain := y.2, out := job.out ++ y.1
    last := some (percent job.next job.blocks.length) }

theorem reportedSoFar_jobAfter (job : ModeJob) (y : Bytes × Bytes) :
    reportedSoFar (jobAfter job y) (BitVec.ofNat 7 (percent job.next job.blocks.length)) :=
  ⟨fun h => absurd h (Nat.succ_ne_zero _), fun _ => ⟨rfl, rfl⟩⟩

/-- The last block's percentage is 100. -/
theorem reportedSoFar.complete {job : ModeJob} {progress : BitVec 7} (h : reportedSoFar job progress)
    (hpos : 0 < job.blocks.length) (hnext : job.next = job.blocks.length) : progress = 100 := by
  have hdone : percent (job.next - 1) job.blocks.length = 100 := by
    rw [percent, hnext, Nat.sub_add_cancel hpos, Nat.mul_div_cancel _ hpos]
  obtain ⟨-, hprogress⟩ := h.2 (hnext ▸ hpos)
  rw [hprogress, hdone]
  rfl

/-- A state whose engine has run the last block of a job. -/
def blocksDone (s : State) (w : Word32) (job : ModeJob) : State :=
  { s with engine := .running w (.blocks job), progress := 100 }

section Run
variable {i : Instr} {prep : State → Except CmdError ModeJob × State}
  {block : State → ModeJob → Bytes → Bytes × Bytes} {close : Bytes → Except CmdError Bytes} {w : Word32}

/-- A block's step when no cancellation is requested (R150): the percentage stands in `PROGRESS` whether it
is reported now or was before. -/
theorem modeStep_block_uncancelled {s : State} {job : ModeJob} {x : Bytes}
    (hrun : s.engine = .running w (.blocks job)) (hx : job.blocks[job.next]? = some x)
    (hcancel : s.cancel = false) (hrep : reportedSoFar job s.progress) :
    modeStep prep block close s = { s with
      engine := .running w (.blocks (jobAfter job (block s job x)))
      progress := BitVec.ofNat 7 (percent job.next job.blocks.length) } := by
  rw [modeStep_block hrun hx]
  obtain ⟨hlast, heq⟩ | ⟨-, ⟨hyes, -⟩ | ⟨-, heq⟩⟩ := progressPoint_cases
    { job with
      next := job.next + 1, chain := (block s job x).2, out := job.out ++ (block s job x).1 } job.next s
  · have hlast : job.last = some (percent job.next job.blocks.length) := hlast
    have hpos : 0 < job.next := by
      by_contra hzero
      rw [hrep.1 (by omega)] at hlast
      cases hlast
    obtain ⟨hbefore, hprogress⟩ := hrep.2 hpos
    have hsame := Option.some.inj (hbefore.symm.trans hlast)
    rw [hsame] at hprogress
    rw [heq, State.setCtx_of_running hrun, jobAfter, ← hlast, ← hprogress]
  · rw [hcancel] at hyes
    cases hyes
  · rw [heq, State.setCtx_of_running hrun]
    rfl

variable {f : Nat → Nat → Bytes → Bytes → Bytes × Bytes} {sched : Schedule} {fe : FeTables}
  (hexec : ∀ s, exec i s = .next (modeStep prep block close s))
  (hblock : ∀ (s : State) job x, s.inst = some sched → s.params.fe = fe →
    block s job x = f job.ctr0 job.next job.chain x)
include hexec hblock

/-- The remaining blocks of a job, one engine step each (R149). -/
theorem execTimes_blocks (n : Nat) {s : State} {job : ModeJob}
    (hrun : s.engine = .running w (.blocks job)) (hcancel : s.cancel = false) (hinst : s.inst = some sched)
    (hfe : s.params.fe = fe) (hrep : reportedSoFar job s.progress)
    (hn : job.next + n = job.blocks.length) :
    ∃ job' progress,
      execTimes i n s = .next { s with engine := .running w (.blocks job'), progress := progress } ∧
      reportedSoFar job' progress ∧ job'.blocks = job.blocks ∧ job'.next = job.blocks.length ∧
      job'.out = job.out ++ chainRun (f job.ctr0) job.next job.chain (job.blocks.drop job.next) := by
  induction n generalizing s job with
  | zero =>
    refine ⟨job, s.progress, ?_, hrep, rfl, hn, ?_⟩
    · rw [← hrun]
      rfl
    · rw [List.drop_eq_nil_of_le (by omega), chainRun_nil, List.append_nil]
  | succ n ih =>
    have hlt : job.next < job.blocks.length := by omega
    have hx : job.blocks[job.next]? = some job.blocks[job.next] := List.getElem?_eq_getElem hlt
    have hstep := hexec s
    rw [modeStep_block_uncancelled hrun hx hcancel hrep, hblock s job _ hinst hfe] at hstep
    obtain ⟨job', progress, hsteps, hrep', hblocks, hnext, hout⟩ :=
      ih (s := { s with
          engine := .running w (.blocks
            (jobAfter job (f job.ctr0 job.next job.chain job.blocks[job.next])))
          progress := BitVec.ofNat 7 (percent job.next job.blocks.length) })
        rfl hcancel hinst hfe (reportedSoFar_jobAfter job _)
        (show job.next + 1 + n = job.blocks.length by omega)
    refine ⟨job', progress, ?_, hrep', hblocks, hnext, ?_⟩
    · rw [execTimes, hstep]
      exact hsteps
    · rw [hout, List.drop_eq_getElem_cons hlt, chainRun_cons, ← List.append_assoc]
      rfl

section Prepared
variable {bs : Nat} {iv data lead : Bytes} {s t : State} (hbs : 0 < bs)
  (hrun : s.engine = .running w .start) (hprep : prep s = (.ok (newJob bs iv data lead), t))
  (ht : t.engine = s.engine) (hcancel : t.cancel = false) (hinst : t.inst = some sched)
  (hfe : t.params.fe = fe) (hne : data ≠ []) (hwhole : data.length % bs = 0)
include hbs hrun hprep ht hcancel hinst hfe hne hwhole

/-- A prepared command (R148): after its blocks the job holds the chained data and `PROGRESS` is 100. -/
theorem execTimes_newJob :
    ∃ t' job', exec i s = .next t' ∧
      execTimes i (data.length / bs + 1) t' = .next (modeStep prep block close (blocksDone t w job')) ∧
      job'.blocks[job'.next]? = none ∧
      job'.out = lead ++ chainRun (f (beNat iv)) 0 iv (chunks bs data) := by
  have hcount : (newJob bs iv data lead).blocks.length = data.length / bs := chunks_length hbs hwhole
  have hpos : 0 < data.length / bs :=
    Nat.div_pos (Nat.le_of_dvd (List.length_pos_iff.mpr hne) (Nat.dvd_of_mod_eq_zero hwhole)) hbs
  have hfirst : exec i s = .next { t with engine := .running w (.blocks (newJob bs iv data lead)) } := by
    rw [hexec, modeStep_prepared hrun hprep, State.setCtx_of_running (ht.trans hrun)]
  obtain ⟨job', progress, hsteps, hrep, hblocks, hnext, hout⟩ :=
    execTimes_blocks hexec hblock (data.length / bs)
      (s := { t with engine := .running w (.blocks (newJob bs iv data lead)) }) rfl hcancel hinst hfe
      ⟨fun _ => rfl, fun h => absurd h (lt_irrefl 0)⟩ (by rw [hcount]; exact Nat.zero_add _)
  have h100 : progress = 100 := hrep.complete (by rw [hblocks, hcount]; exact hpos) (by rw [hnext, hblocks])
  subst h100
  refine ⟨_, job', hfirst, ?_, List.getElem?_eq_none (by rw [hblocks, hnext]), hout⟩
  rw [execTimes_add hsteps, execTimes_one]
  exact hexec _

/-- The final step when the output closes. -/
theorem mode_completes {out : Bytes}
    (hclose : close (lead ++ chainRun (f (beNat iv)) 0 iv (chunks bs data)) = .ok out) :
    ∃ t' job', exec i s = .next t' ∧ execTimes i (data.length / bs + 1) t' =
      .next (State.succeed (.output out) (blocksDone t w job')) := by
  obtain ⟨t', job', hfirst, hsteps, hlast, hout⟩ :=
    execTimes_newJob hexec hblock hbs hrun hprep ht hcancel hinst hfe hne hwhole
  rw [← hout] at hclose
  exact ⟨t', job', hfirst, hsteps.trans (congrArg _ (modeStep_closes rfl hlast hclose))⟩

/-- The final step when it raises. -/
theorem mode_close_fails {e : CmdError}
    (hclose : close (lead ++ chainRun (f (beNat iv)) 0 iv (chunks bs data)) = .error e) :
    ∃ t' job', exec i s = .next t' ∧ execTimes i (data.length / bs + 1) t' =
      .next (State.fail e (blocksDone t w job')) := by
  obtain ⟨t', job', hfirst, hsteps, hlast, hout⟩ :=
    execTimes_newJob hexec hblock hbs hrun hprep ht hcancel hinst hfe hne hwhole
  rw [← hout] at hclose
  exact ⟨t', job', hfirst, hsteps.trans (congrArg _ (modeStep_close_fails rfl hlast hclose))⟩

end Prepared

end Run

theorem encFn_of_inst {s : State} {sched : Schedule} {fe : FeTables} (h : s.inst = some sched)
    (hfe : s.params.fe = fe) : s.encFn = sched.encBlock fe := by
  simp only [State.encFn, h, hfe]

theorem decFn_of_inst {s : State} {sched : Schedule} {fe : FeTables} (h : s.inst = some sched)
    (hfe : s.params.fe = fe) : s.decFn = sched.decBlock fe := by
  simp only [State.decFn, h, hfe]

/-! ## `ENCRYPT` -/

/-- The IV of an encryption and the entropy that is left (R142, R143). -/
def encryptIv (m : Mode) (ivp : Bool) (bs : Nat) (iv : Bytes) (e : Entropy) : Bytes × Entropy :=
  if m = .ecb then ([], e) else if ivp then (iv, e) else e.drawBytes bs

section Encrypt
variable {s : State} {c : Cipher} {m : Mode} {p : PadScheme} {ivp : Bool} {sched : Schedule}

theorem ivBytes_length (s : State) (c : Cipher) : (s.ivBytes (blockSize c)).length = blockSize c := by
  cases c <;> simp [State.ivBytes, blockSize]

theorem encryptIv_length (s : State) (e : Entropy) (hm : m ≠ .ecb) :
    (encryptIv m ivp (blockSize c) (s.ivBytes (blockSize c)) e).1.length = blockSize c := by
  rw [encryptIv, if_neg hm]
  split
  · exact ivBytes_length s c
  · exact Entropy.drawBytes_length _ e

theorem pad_unknown_scheme {d out : Bytes} {bs : Nat} {e e' : Entropy}
    (h : pad d p bs e = .ok (out, e')) (code : _) : p ≠ .unknown code := by
  rintro rfl
  cases h

theorem prepareEncrypt_eq {padded : Bytes} {e : Entropy} (hcheck : modeChecks c m p ivp s = .ok sched)
    (hcap : ivPrefixLength c m ivp + s.inLen.toNat + padLength s.inLen.toNat (blockSize c) ≤
      s.params.bufBytes)
    (hpad : pad s.input p (blockSize c) s.entropy = .ok (padded, e)) :
    prepareEncrypt c m p ivp s =
      let ivs := encryptIv m ivp (blockSize c) (s.ivBytes (blockSize c)) e
      (.ok (newJob (blockSize c) ivs.1 padded (if m ≠ .ecb ∧ ivp = false then ivs.1 else [])),
        { s.readInput with entropy := ivs.2 }) := by
  simp only [prepareEncrypt, hcheck, if_neg (not_lt.mpr hcap), hpad, encryptIv]
  by_cases hm : m = .ecb
  · simp [hm]
  · cases ivp <;> simp [hm]

end Encrypt

/-- Settles O39: the preparation, the blocks by `execTimes_newJob`, and the final step. -/
theorem encryptRunsToCompletion : Obligations.EncryptRunsToCompletion := by
  intro s w c m p ivp sched padded e bs pre hlegal hrun hcancel hinst hc hm hiv hcap hpad ivs out
  have hbs : 0 < bs := blockSize_pos c
  have hp := pad_unknown_scheme hpad
  have hin : s.inLen.toNat ≤ s.params.bufBytes := by omega
  have hcheck := modeChecks_pass (keyedFor_of_inst hinst hc) hm hp hiv hin
  have hprep := prepareEncrypt_eq hcheck (by rw [ivPrefixLength_eq]; exact hcap) hpad
  have hivlen : m ≠ .ecb → ivs.1.length = bs := encryptIv_length s e
  have hpadlen : padded.length = s.inLen.toNat + (bs - s.inLen.toNat % bs) := by
    rw [pad_length hbs hpad, input_length]
    rfl
  have hwhole := pad_whole hbs hpad
  have hne : padded ≠ [] := by
    have := Nat.mod_lt s.inLen.toNat hbs
    exact List.ne_nil_of_length_pos (by omega)
  have henc (b : Bytes) : (sched.encBlock s.params.fe b).length = bs := by
    rw [encBlock_length, hc]
  have hlead : (if m ≠ .ecb ∧ ivp = false then ivs.1 else []).length = pre := by
    by_cases hform : m ≠ .ecb ∧ ivp = false
    · simp only [pre, if_pos hform, hivlen hform.1]
    · simp only [pre, if_neg hform, List.length_nil]
  have hlen : out.length = pre + s.inLen.toNat + (bs - s.inLen.toNat % bs) := by
    rw [List.length_append, hlead, chainEnc_length hm hbs henc hivlen hwhole, hpadlen, Nat.add_assoc]
  obtain ⟨t, job', hfirst, hsteps⟩ := mode_completes
    (i := .encrypt c m p ivp) (f := chainEncBlock m (sched.encBlock s.params.fe) bs)
    (fun _ => rfl)
    (fun s' job x hs' hfe => congrArg (fun g => chainEncBlock m g bs job.ctr0 job.next job.chain x)
      (encFn_of_inst hs' hfe))
    hbs hrun hprep rfl hcancel hinst rfl hne hwhole rfl
  exact ⟨hlen, t, _, hfirst, hsteps,
    bufferAfter_succeed (r := .output out) rfl (hlen.trans_le (hcap.trans (bufBytes_le hlegal))), rfl⟩

/-! ## `DECRYPT` -/

/-- Unpadding raises `PaddingError` and nothing else (R126, R131). -/
theorem unpad_error {d : Bytes} {p : PadScheme} {bs : Nat} {e : CmdError} (h : unpad d p bs = .error e) :
    e = .padding := by
  cases p with
  | unknown code => cases h; rfl
  | pkcs7 =>
    simp only [unpad, unpadPkcs7] at h
    split at h
    · cases h
    · split_ifs at h
      cases h
      rfl
  | zeros => cases h
  | ansiX923 => cases h
  | iso10126 => cases h

theorem prepareDecrypt_eq {s : State} {c : Cipher} {m : Mode} {p : PadScheme} {ivp : Bool}
    {sched : Schedule} {iv d : Bytes} (hcheck : modeChecks c m p ivp s = .ok sched)
    (hsplit : splitIv m ivp (blockSize c) (s.ivBytes (blockSize c)) s.input = .ok (iv, d))
    (hne : d ≠ []) (hwhole : d.length % blockSize c = 0) :
    prepareDecrypt c m p ivp s = (.ok (newJob (blockSize c) iv d []), s.readInput) := by
  have hlen : ¬(d.length = 0 ∨ d.length % blockSize c ≠ 0) := by
    rw [not_or, List.length_eq_zero_iff, not_not]
    exact ⟨hne, hwhole⟩
  simp only [prepareDecrypt, hcheck, hsplit, if_neg hlen]

/-- The IV and the ciphertext in each IV form (R142, R144). -/
theorem splitIv_eq_ok {m : Mode} {ivp : Bool} {bs : Nat} {v iv x d : Bytes}
    (h : if m = .ecb then iv = [] ∧ d = x
      else if ivp then iv = v ∧ d = x
      else bs ≤ x.length ∧ iv = x.take bs ∧ d = x.drop bs) : splitIv m ivp bs v x = .ok (iv, d) := by
  unfold splitIv
  split_ifs at h ⊢ with hm hivp hshort
  · obtain ⟨rfl, rfl⟩ := h
    rfl
  · obtain ⟨rfl, rfl⟩ := h
    rfl
  · omega
  · obtain ⟨-, rfl, rfl⟩ := h
    rfl

/-- Settles O40: the preparation, the blocks by `execTimes_newJob`, and either final step. -/
theorem decryptRunsToCompletion : Obligations.DecryptRunsToCompletion := by
  intro s w c m p ivp sched iv d bs hlegal hrun hcancel hinst hc hm hp hiv hin hform hne hwhole plain
  have hbs : 0 < bs := blockSize_pos c
  have hcheck := modeChecks_pass (keyedFor_of_inst hinst hc) hm hp hiv hin
  have hsplit := splitIv_eq_ok hform
  have hprep := prepareDecrypt_eq hcheck hsplit hne hwhole
  obtain ⟨hivlen, hdlen⟩ := splitIv_ok hsplit (ivBytes_length s c)
  rw [input_length] at hdlen
  have henc (b : Bytes) : (sched.encBlock s.params.fe b).length = bs := by rw [encBlock_length, hc]
  have hdec (b : Bytes) : (sched.decBlock s.params.fe b).length = bs := by rw [decBlock_length, hc]
  have hplain : plain.length = d.length := chainDec_length hm hbs henc hdec hivlen hwhole
  have hdecs (s' : State) (job : ModeJob) (x : Bytes) (hs' : s'.inst = some sched)
      (hfe : s'.params.fe = s.params.fe) :=
    congrArg₂ (fun g h => chainDecBlock m g h bs job.ctr0 job.next job.chain x)
      (encFn_of_inst hs' hfe) (decFn_of_inst hs' hfe)
  cases hun : unpad plain p bs with
  | ok out =>
    have hlen : out.length ≤ d.length := (unpad_length_le hun).trans_eq hplain
    obtain ⟨t, job', hfirst, hsteps⟩ := mode_completes (i := .decrypt c m p ivp)
      (f := chainDecBlock m (sched.encBlock s.params.fe) (sched.decBlock s.params.fe) bs)
      (fun _ => rfl) hdecs hbs hrun hprep rfl hcancel hinst rfl hne hwhole hun
    exact ⟨t, _, hfirst, hsteps, bufferAfter_succeed (r := .output out) rfl
      (hlen.trans (hdlen.trans (hin.trans (bufBytes_le hlegal)))), hlen, rfl⟩
  | error err =>
    obtain rfl := unpad_error hun
    obtain ⟨t, job', hfirst, hsteps⟩ := mode_close_fails (i := .decrypt c m p ivp)
      (f := chainDecBlock m (sched.encBlock s.params.fe) (sched.decBlock s.params.fe) bs)
      (fun _ => rfl) hdecs hbs hrun hprep rfl hcancel hinst rfl hne hwhole hun
    exact ⟨t, _, hfirst, hsteps, rfl, failedFrom_fail _ _⟩

end Sys2Proof.Machine
end
